-- ==== Sys2Proof/Word.lean ====
section
/-! DEFINITION. Word.lean: the widths WRPC's values have: a 64-bit word (10_state.md R19,
20_memory.md R54), a byte of the window (20_memory.md R52), a 16-bit sample code (00_scope.md R8)
and an 18-bit byte address of the window (00_scope.md R3). -/

namespace Sys2Proof

/-- A 64-bit word: a register, a command word or one binary64 bit pattern (R9, R19, R54). -/
abbrev Word := BitVec 64

/-- One byte of the window (R52, R56). -/
abbrev Byte := BitVec 8

/-- One stored sample code, a 16-bit unsigned integer (R8). -/
abbrev Code := BitVec 16

/-- One byte address of the 18-bit window, an offset from `WRPC_BASE` (R3, R52). -/
abbrev Addr := BitVec 18

/-- A current channel: `⟨k - 1, _⟩` stands for the spec's channel `k`, `k` in 1..6 (R6). -/
abbrev Channel := Fin 6

end Sys2Proof
end

