-- ==== Sys2Proof/Syntax.lean ====
section
/-! DEFINITION. Syntax.lean: WRPC's commands, one constructor for each row of
spec/opcode_table.json (30_encoding.md R74, R75). -/

namespace Sys2Proof

/-- The six commands. `ch` is the CH operand as written, an unsigned integer; `mask` is the MASK
operand, six independent bits (R76). Words that decode to none of them are ILLEGAL (R78). -/
inductive Instr where
  /-- `NOP` (R109). -/
  | nop
  /-- `RECON ch` (R88). -/
  | recon (ch : Nat)
  /-- `CALC ch` (R101). -/
  | calculate (ch : Nat)
  /-- `MEASURE mask` (R102): bit `k - 1` of `mask` selects channel `k`. -/
  | measure (mask : BitVec 6)
  /-- `CLEAR` (R110). -/
  | clear
  /-- `SRESET` (R111). -/
  | sreset
deriving DecidableEq, Repr

/-- A word is immediate when it is a NOP, CLEAR or SRESET; every other word is queued (R77). -/
def Instr.immediate : Instr → Bool
  | .nop => true
  | .recon _ => false
  | .calculate _ => false
  | .measure _ => false
  | .clear => true
  | .sreset => true

end Sys2Proof
end

