-- ==== Sys2Proof/WellFormed.lean ====
section
/-! DEFINITION. WellFormed.lean: which terms of `Instr` a command word can stand for. The channel
operand has 3 bits, so it is below 8 (30_encoding.md R73, R76); 0 and 7 are well-formed encodings that
fail when they execute (R75). MASK has six bits by its type. -/

namespace Sys2Proof

/-- The operands fit the fields of `CMD64` (R73). -/
def Instr.wf : Instr → Bool
  | .nop => true
  | .recon ch => decide (ch < 8)
  | .calculate ch => decide (ch < 8)
  | .measure _ => true
  | .clear => true
  | .sreset => true

end Sys2Proof
end

