-- ==== Sys2Proof/Decode.lean ====
section
/-! DEFINITION. Decode.lean: the one command format `CMD64` (30_encoding.md R72, R73), the decoder
(R75, R78), total on every word, and the encoder (R81). -/

namespace Sys2Proof

/-- Why a word is ILLEGAL: the five kinds of R78. -/
inductive Illegal where
  /-- A nonzero bit in RSV_A or RSV_B. -/
  | reservedBits
  /-- An OP value 0x04..0x0D or 0x10..0xFF. -/
  | reservedOpcode
  /-- NOP, CLEAR or SRESET with a nonzero CH or MASK. -/
  | strayOperand
  /-- RECON or CALC with a nonzero MASK. -/
  | strayMask
  /-- MEASURE with a nonzero CH. -/
  | strayChannel
deriving DecidableEq, Repr

/-- OP, bits 7:0 (R73). -/
def opField (w : Word) : BitVec 8 := w.extractLsb' 0 8

/-- CH, bits 10:8 (R73). -/
def chField (w : Word) : BitVec 3 := w.extractLsb' 8 3

/-- RSV_A, bits 15:11 (R73). -/
def rsvAField (w : Word) : BitVec 5 := w.extractLsb' 11 5

/-- MASK, bits 21:16 (R73). -/
def maskField (w : Word) : BitVec 6 := w.extractLsb' 16 6

/-- RSV_B, bits 63:22 (R73). -/
def rsvBField (w : Word) : BitVec 42 := w.extractLsb' 22 42

/-- The operands of an opcode that has none: CH and MASK must be 0 (R75). -/
def decodeBare (w : Word) (i : Instr) : Except Illegal Instr :=
  if chField w = 0 ∧ maskField w = 0 then .ok i else .error .strayOperand

/-- `Decode(w)` (R75): the command of a word, or the reason it is ILLEGAL (R78). No mode bit changes
how a word decodes (R72). -/
def decode (w : Word) : Except Illegal Instr :=
  if rsvAField w ≠ 0 ∨ rsvBField w ≠ 0 then .error .reservedBits
  else if opField w = 0x00 then decodeBare w .nop
  else if opField w = 0x01 then
    if maskField w = 0 then .ok (.recon (chField w).toNat) else .error .strayMask
  else if opField w = 0x02 then
    if maskField w = 0 then .ok (.calculate (chField w).toNat) else .error .strayMask
  else if opField w = 0x03 then
    if chField w = 0 then .ok (.measure (maskField w)) else .error .strayChannel
  else if opField w = 0x0E then decodeBare w .clear
  else if opField w = 0x0F then decodeBare w .sreset
  else .error .reservedOpcode

/-- The opcode of a command (R74). -/
def Instr.opcode : Instr → BitVec 8
  | .nop => 0x00
  | .recon _ => 0x01
  | .calculate _ => 0x02
  | .measure _ => 0x03
  | .clear => 0x0E
  | .sreset => 0x0F

/-- A `CMD64` word from its three fields, every reserved bit 0 (R73). -/
def packCommand (op : BitVec 8) (ch : BitVec 3) (mask : BitVec 6) : Word :=
  op.setWidth 64 ||| (ch.setWidth 64 <<< 8) ||| (mask.setWidth 64 <<< 16)

/-- The word of a well-formed command (R74, R81). -/
def encode : Instr → Word
  | .nop => packCommand Instr.nop.opcode 0 0
  | .recon ch => packCommand (Instr.recon ch).opcode (BitVec.ofNat 3 ch) 0
  | .calculate ch => packCommand (Instr.calculate ch).opcode (BitVec.ofNat 3 ch) 0
  | .measure mask => packCommand (Instr.measure mask).opcode 0 mask
  | .clear => packCommand Instr.clear.opcode 0 0
  | .sreset => packCommand Instr.sreset.opcode 0 0

/-- The word whose byte at the lowest address is the first of the list: byte `j` is
`word[8j+7:8j]` (20_memory.md R56). -/
def wordOfBytes : List Byte → Word
  | [] => 0
  | b :: bs => b.setWidth 64 ||| (wordOfBytes bs <<< 8)

/-- The low `k` bytes of a word, the lowest address first (R56). -/
def bytesOfWord : (k : Nat) → Word → List Byte
  | 0, _ => []
  | k + 1, w => w.setWidth 8 :: bytesOfWord k (w >>> 8)

/-- The command in the eight bytes of one word as the hardware stores them, and none where the bytes
are not one whole legal word (R72: a command is one word, never longer or shorter). -/
def decodeBytes (bs : List Byte) : Option Instr :=
  if bs.length = 8 then (decode (wordOfBytes bs)).toOption else none

/-- The command the decoder reads from an instruction whose bits are `w` (bit 0 the least significant
of the one command word), `nbits` of them given and the rest 0. -/
def decodeTableWord (nbits w : Nat) : Option Instr :=
  decodeBytes (bytesOfWord 8 (BitVec.ofNat 64 (w % 2 ^ nbits)))

end Sys2Proof
end

