-- ==== Sys2Proof/Config.lean ====
section
/-! DEFINITION. Config.lean: the implementation parameters (00_scope.md R6 to R8, R12; 10_state.md
R20, R21), the binary64 constants the rules name, and the free values: what the spec leaves
unspecified and the machine goes on with. -/

namespace Sys2Proof

/-- `SAMPLE_DEPTH` (R7), the spec's own value. DESIGN CHOICE, log 9: the parameter is not varied. -/
def Config.sampleDepth : Nat := 4096

/-- The constant register `ID` (R20): "WRPC" and command set version 1. -/
def Config.idValue : Word := 0x0000000157525043

/-- The constant register `CAP` (R21): `NCH` 6, `SAMPLE_DEPTH` 0x1000, `CODE_BITS` 16. -/
def Config.capValue : Word := 0x0000001010000006

/-- The converter resolution after reset, 1024 (R28). -/
def Config.resetAdcRes : BitVec 32 := 1024

/-- `1.0`, the reset value of the coefficients (R32, R38, R39). -/
def Config.one : Word := 0x3FF0000000000000

/-- `100.0`, the literal of `current_scale` (R12, R91; log 16). -/
def Config.hundred : Word := 0x4059000000000000

/-- `11.0`, the literal of `ac_voltage_ratio` (R12, R91; log 16). -/
def Config.eleven : Word := 0x4026000000000000

/-- FREE VALUE (R133, I1; log 4): what a byte of VRAM, IRAM or VREC reads as while nothing has written
it since the hardware reset number `epoch`. A function of that reset and of the byte's address, so
that reading it twice gives one answer (R61: every read is idempotent). DESIGN CHOICE, log 4, unsafe: two
runs whose resets have one number draw equal values, which R142 does not say of two runs. -/
opaque Config.unwrittenByte : (epoch : Nat) → (addr : Nat) → Byte

/-- FREE VALUE (R55, I3; log 5): the data word of a read that gets the ERROR response, the `draw`-th
one of the run. DESIGN CHOICE, log 5: two runs with one count of draws get equal words. -/
opaque Config.errorReadData : (draw : Nat) → Word

end Sys2Proof
end

