-- ==== Sys2Proof/Machine/State.lean ====
section
/-! DEFINITION. State.lean: the machine's state as plain data (10_state.md R51), the inputs the outside
world gives it (10_state.md R16, 20_memory.md R71), the reasons a step can stop, and the state right
after a hardware reset (10_state.md R50). -/

namespace Sys2Proof.Machine

/-- The error codes of 60_exceptions.md R114; no other code is ever written (I18). -/
inductive ErrCode where
  /-- 0x00: no error since the last CLEAR, SRESET or reset. -/
  | none
  /-- 0x01: E_BADCMD, an ILLEGAL word. -/
  | badCmd
  /-- 0x02: E_BADCHAN, CH 0 or 7, or an empty MASK. -/
  | badChan
  /-- 0x03: E_LEN, `N` outside 2..SAMPLE_DEPTH. -/
  | len
  /-- 0x04: E_MISMATCH, VREC does not hold channel `k`'s current reconstruction at length `N`. -/
  | mismatch
  /-- 0x05: E_CONFIG, an illegal configuration value. -/
  | config
  /-- 0x06: E_CODE, a sample code at or above `ADC_RES`. -/
  | code
  /-- 0x07: E_NONFINITE, an arithmetic result that is not finite. -/
  | nonFinite
  /-- 0x08: E_DOMAIN, a negative RMS radicand. -/
  | domain
deriving DecidableEq, Repr

/-- ERRINFO.STAGE (R26): where in a command an error arose. -/
inductive Stage where
  /-- 0. -/
  | validation
  /-- 1. -/
  | reconstruction
  /-- 2. -/
  | scaleFactors
  /-- 3. -/
  | pass
  /-- 4. -/
  | final
deriving DecidableEq, Repr

/-- ERRINFO.SEQ (R26): which sequence an error concerns. -/
inductive Seq where
  /-- 0. -/
  | none
  /-- 1. -/
  | voltage
  /-- 2. -/
  | current
deriving DecidableEq, Repr

/-- The fields of ERRINFO (R26). -/
structure ErrInfo where
  index : BitVec 16
  channel : BitVec 3
  stage : Stage
  seq : Seq
  opcode : BitVec 8
deriving DecidableEq, Repr

/-- ERRINFO with every field 0 (R26, R50). -/
def ErrInfo.zero : ErrInfo := ⟨0, 0, .validation, .none, 0⟩

/-- What `raise E_X(info)` carries (00_scope.md R14): the code and the information but the opcode,
which the error entry adds (60_exceptions.md R115, R116). -/
structure CmdError where
  code : ErrCode
  stage : Stage
  channel : BitVec 3
  seq : Seq
  index : Nat
deriving DecidableEq, Repr

/-- One PowerReading, the four registers of `RESULT[k]` (R40). -/
structure Reading where
  realPower : Word
  rmsCurrent : Word
  rmsVoltage : Word
  powerFactor : Word
deriving DecidableEq, Repr

/-- Four times +0.0 (R50). -/
def Reading.zero : Reading := ⟨0, 0, 0, 0⟩

/-- The debug registers (R41). -/
structure Debug where
  ch : BitVec 3
  si : Word
  sv : Word
  sp : Word
  sii : Word
  svv : Word
  core : Word
  app : Word
deriving DecidableEq, Repr

/-- DBG_CH 0 and seven times +0.0 (R50). -/
def Debug.zero : Debug := ⟨0, 0, 0, 0, 0, 0, 0, 0⟩

/-- The fields of VREC_STATUS (R37). -/
structure VrecStatus where
  len : BitVec 16
  ch : BitVec 3
  valid : Bool
deriving DecidableEq, Repr

/-- VREC_STATUS 0 (R50). -/
def VrecStatus.zero : VrecStatus := ⟨0, 0, false⟩

/-- What the block answers to one host access: `bus_resp` (`err` = ERROR) and, for a read,
`bus_rdata` (R3). The spec gives a write's answer no data (log 17). -/
inductive BusResponse where
  | read (err : Bool) (data : Word)
  | write (err : Bool)
deriving DecidableEq, Repr

/-- What happens next outside the engine, or when the engine gets its turn (R16, R140; log 1). -/
inductive Input where
  /-- The host reads the word at `addr` (20_memory.md R59). -/
  | read (addr : Addr)
  /-- The host writes `data` at `addr` (20_memory.md R60). -/
  | write (addr : Addr) (data : Word)
  /-- The engine takes its step now if it has one (42_control.md R108, R140; log 2). -/
  | engine
  /-- The level of the port `rst` in this step, true = asserted (70_reset_and_hazards.md R132; log 11). -/
  | rst (asserted : Bool)
  /-- The clock is stopped or gated (60_exceptions.md R131, I5; log 12). -/
  | clkStop
deriving DecidableEq, Repr

/-- The stops the spec gives the treatment 'fault'. No command raises one: a command error is a state
(60_exceptions.md R116), a bus error a response (R121). -/
inductive Fault where
  /-- A host access while `rst` is asserted (70_reset_and_hazards.md R134, I4). Raised by the step on
  an input `read` or `write`. Safe: the run has no meaning. -/
  | accessDuringReset
  /-- The clock is gated or stopped (60_exceptions.md R131, I5). Raised by the step on the input
  `clkStop`. Safe: the run has no meaning. -/
  | clockStopped
deriving DecidableEq, Repr

/-- Why an instruction has no meaning in the model. -/
inductive Refusal where
  /-- An instruction the model has given no meaning yet, by its mnemonic. Raised by no arm: all six
  commands are modelled. Safe. -/
  | notModelled (mnemonic : String)
deriving DecidableEq, Repr

/-- Sample memory and VREC as data: the bytes of the window that have been written, each at its byte
offset in the window (20_memory.md R53, R56). An address that is not listed has not been written since
the hardware reset (R133; the written-bit of R51). The one canonical form is `Memory.wf` (Ops.lean). -/
abbrev Memory := List Host.Cell

/-- The whole architectural state (10_state.md R51) and, below the line, the model's own fields. -/
structure State where
  /-- CTRL.IE_DONE (R22). -/
  ieDone : Bool
  /-- CTRL.IE_ERR (R22). -/
  ieErr : Bool
  /-- STATUS.BUSY (R23). -/
  busy : Bool
  /-- STATUS.DONE (R23). -/
  done : Bool
  /-- STATUS.ERR (R23). -/
  err : Bool
  /-- STATUS.DROP (R23). -/
  drop : Bool
  /-- ERRCODE.CODE (R25). -/
  errCode : ErrCode
  /-- ERRINFO (R26). -/
  errInfo : ErrInfo
  /-- N (R27). -/
  n : BitVec 16
  /-- ADC_RES (R28). -/
  adcRes : BitVec 32
  /-- BOARD_REF, binary64 (R29). -/
  boardRef : Word
  /-- GRID_V, binary64 (R30). -/
  gridV : Word
  /-- XFMR_V, binary64 (R31). -/
  xfmrV : Word
  /-- AC_ACC, binary64 (R32). -/
  acAcc : Word
  /-- BATCH_TS (R33). -/
  batchTs : Word
  /-- RES_TS (R34). -/
  resTs : Word
  /-- RES_VALID.VALID, bit `k - 1` for channel `k` (R35). -/
  resValid : BitVec 6
  /-- REP_VRMS, binary64 (R36). -/
  repVrms : Word
  /-- VREC_STATUS (R37). -/
  vrecStatus : VrecStatus
  /-- PHASE[1..6], binary64 (R38). -/
  phase : Vector Word 6
  /-- CUR_ACC[1..6], binary64 (R39). -/
  curAcc : Vector Word 6
  /-- RESULT[1..6] (R40). -/
  results : Vector Reading 6
  /-- DBG_CH to DBG_APP (R41). -/
  dbg : Debug
  /-- PENDING (R45), read only while BUSY = 1. -/
  pending : Word
  /-- VRAM, IRAM[1..6] and VREC (R42 to R44) as the bytes of the window that have been written since
  the hardware reset: addresses strictly rising (log 13). -/
  mem : Memory
  /-- MODEL: the level of the port `rst`, true = asserted (log 11). -/
  rst : Bool
  /-- MODEL: the answer to the latest host access, none before the first (log 17). -/
  bus : Option BusResponse
  /-- MODEL: what happens next, the first element first (log 1, log 2). -/
  inputs : List Input
  /-- MODEL: how many hardware resets there have been, for the free draws of unwritten memory (log 4). Two
  runs with one count draw equal values, which R142 does not say (DESIGN CHOICE, log 4, unsafe). -/
  epoch : Nat
  /-- MODEL: how many free read-data words have been drawn (log 5). -/
  draws : Nat
deriving DecidableEq, Repr

/-- The state right after a hardware reset: the table of R50. PENDING, which R50 leaves unspecified, is
0 (DESIGN CHOICE, log 6); memory lists nothing, so every sample is a free draw (R133, log 4). The epoch is 0
(DESIGN CHOICE, log 4): two runs that both start here draw equal values, which R142 does not say; `State.reset`
with another epoch stands for another run's reset. -/
def State.reset : State where
  ieDone := false
  ieErr := false
  busy := false
  done := false
  err := false
  drop := false
  errCode := .none
  errInfo := .zero
  n := 0
  adcRes := Config.resetAdcRes
  boardRef := 0
  gridV := 0
  xfmrV := 0
  acAcc := Config.one
  batchTs := 0
  resTs := 0
  resValid := 0
  repVrms := 0
  vrecStatus := .zero
  phase := Vector.replicate 6 Config.one
  curAcc := Vector.replicate 6 Config.one
  results := Vector.replicate 6 .zero
  dbg := .zero
  pending := 0
  mem := []
  rst := false
  bus := none
  inputs := []
  epoch := 0
  draws := 0

end Sys2Proof.Machine
end

