-- ==== Sys2Proof/Machine/Ops.lean ====
section
/-! DEFINITION. Ops.lean: the named operations over memory and registers: reading and writing the bytes,
sample codes and words of VRAM, IRAM and VREC (10_state.md R42 to R44, 20_memory.md R56, R57), entering a
command error and returning from it (60_exceptions.md R116, R119; 42_control.md R110, R111), and the
hardware reset (70_reset_and_hazards.md R132). -/

namespace Sys2Proof.Machine

/-- The canonical form: addresses strictly rising. (An unlisted address reads as 'never written', which
no entry can equal.) -/
abbrev Memory.wf (m : Memory) : Prop := m.Pairwise fun x y => x.1 < y.1

/-- The stored byte at `a`, none where nothing has been written. -/
def Memory.lookup : Memory → Nat → Option Byte
  | [], _ => none
  | (a, b) :: m, x => if x = a then some b else Memory.lookup m x

/-- Store one byte, keeping the addresses rising. -/
def Memory.store : Memory → Nat → Byte → Memory
  | [], x, v => [(x, v)]
  | (a, b) :: m, x, v =>
    if x < a then (x, v) :: (a, b) :: m
    else if x = a then (x, v) :: m
    else (a, b) :: Memory.store m x v

/-- Store bytes at rising addresses. -/
def Memory.storeBytes : Memory → Nat → List Byte → Memory
  | m, _, [] => m
  | m, a, b :: bs => Memory.storeBytes (m.store a b) (a + 1) bs

/-- Store a 64-bit word, its low byte at the lowest address (R56). -/
def Memory.storeWord (m : Memory) (a : Nat) (w : Word) : Memory := m.storeBytes a (bytesOfWord 8 w)

/-- The byte at offset `a` of the sample memory or VREC: what was written, else a free draw of this
hardware reset (R133, I1; log 4). DESIGN CHOICE, log 4, unsafe: two runs that both start at State.reset draw equal
values, which R142 does not say; a claim that compares two runs takes states with two different epochs. -/
def State.byteAt (s : State) (a : Nat) : Byte :=
  (s.mem.lookup a).getD (Config.unwrittenByte s.epoch a)

/-- The 16-bit code at offset `a`, the low byte first (R56). -/
def State.codeAt (s : State) (a : Nat) : Code := s.byteAt (a + 1) ++ s.byteAt a

/-- The 64-bit word at offset `a`, the low byte first (R56). A sample word holds samples `4j` to `4j+3`,
the first in the low bits (R57), because a sample's offset is `B + 2*s`. -/
def State.wordAt (s : State) (a : Nat) : Word :=
  wordOfBytes ((List.range 8).map fun j => s.byteAt (a + j))

/-- The base of VRAM (R53, R57). -/
def vramBase : Nat := 0x10000

/-- The base of `IRAM[k]`, `0x10000 + 0x2000*k` for the spec's `k` in 1..6 (R43, R57). -/
def iramBase (k : Channel) : Nat := 0x10000 + 0x2000 * (k.val + 1)

/-- The base of VREC (R44, R53). -/
def vrecBase : Nat := 0x20000

/-- `VRAM[i]` (R42). -/
def State.vram (s : State) (i : Nat) : Code := s.codeAt (vramBase + 2 * i)

/-- `IRAM[k][i]` (R43). -/
def State.iram (s : State) (k : Channel) (i : Nat) : Code := s.codeAt (iramBase k + 2 * i)

/-- `VREC[i]` (R44). -/
def State.vrec (s : State) (i : Nat) : Word := s.wordAt (vrecBase + 8 * i)

/-- The batch length `N` (R27). -/
def State.batch (s : State) : Nat := s.n.toNat

/-- `VRAM[0..N)`. -/
def State.vramSeq (s : State) : List Code := (List.range s.batch).map s.vram

/-- `IRAM[k][0..N)`. -/
def State.iramSeq (s : State) (k : Channel) : List Code := (List.range s.batch).map (s.iram k)

/-- `VREC[0..N)`. -/
def State.vrecSeq (s : State) : List Word := (List.range s.batch).map s.vrec

/-- `VREC[i] <- w` for consecutive entries from `i` (R88). -/
def Memory.storeVrec : Memory → Nat → List Word → Memory
  | m, _, [] => m
  | m, i, w :: ws => Memory.storeVrec (m.storeWord (vrecBase + 8 * i) w) (i + 1) ws

/-- ENTERING A COMMAND ERROR: `ErrorEntry(E, info, w)` (R116): ERR, ERRCODE and ERRINFO are written, the
opcode being `w[7:0]` (R115), and nothing else: DONE keeps the 0 of the acceptance. WRPC saves no program
counter, changes no mode and jumps to no vector. -/
def errorEntry (w : Word) (e : CmdError) (s : State) : State :=
  { s with
    err := true
    errCode := e.code
    errInfo := ⟨BitVec.ofNat 16 e.index, e.channel, e.stage, e.seq, opField w⟩ }

/-- The end of the engine step of the queued word `w` (R108): its command's commit, or the error entry on
the state before the command, never both; BUSY is cleared in both cases. -/
def finishQueued (w : Word) (s : State) : Except CmdError State → State
  | .ok s' => { s' with busy := false }
  | .error e => { errorEntry w e s with busy := false }

/-- RETURNING FROM A COMMAND ERROR: `Clear()` (R110, R119). -/
def clearErrors (s : State) : State :=
  { s with err := false, done := false, drop := false, errCode := .none, errInfo := .zero }

/-- `SoftReset()` (R111): exactly the rows of R50 marked yes. PENDING keeps a value that is never read
(log 6). -/
def softReset (s : State) : State :=
  { s with
    busy := false
    done := false
    err := false
    drop := false
    errCode := .none
    errInfo := .zero
    resTs := 0
    resValid := 0
    repVrms := 0
    vrecStatus := .zero
    results := Vector.replicate 6 .zero
    dbg := .zero }

/-- The hardware reset at a step in which `rst` has the level `asserted` or in which it is released
(R132): every register at its value of R50, sample memory unspecified anew (R133). The inputs still to
come, the answer on the bus and the count of free draws are not the block's registers. -/
def hardwareReset (asserted : Bool) (s : State) : State :=
  { State.reset with
    rst := asserted
    bus := s.bus
    inputs := s.inputs
    epoch := s.epoch + 1
    draws := s.draws }

/-- A host write that the block discards (R60, R107). -/
def dropWrite (s : State) : State := { s with drop := true }

end Sys2Proof.Machine
end

