-- ==== Sys2Proof/Machine/Flags.lean ====
section
/-! DEFINITION. Flags.lean: WRPC has no condition codes (10_state.md R49); its flags are the STATUS bits and
the valid bits. This file holds the interrupt output (R46) and the words in which the host reads flags and
records (R22, R23, R25, R26, R35, R37; 60_exceptions.md R114). -/

namespace Sys2Proof.Machine

/-- The output `irq` (R46, R123): a pure function of the state. -/
def State.irq (s : State) : Bool := (s.done && s.ieDone) || (s.err && s.ieErr)

/-- A flag at bit `i` of a 64-bit word whose other bits are 0. -/
def flagAt (b : Bool) (i : Nat) : Word := (BitVec.ofBool b).setWidth 64 <<< i

/-- STATUS (R23): BUSY, DONE, ERR, DROP, and IRQ, the mirror of `irq`. -/
def State.statusWord (s : State) : Word :=
  flagAt s.busy 0 ||| flagAt s.done 1 ||| flagAt s.err 2 ||| flagAt s.drop 3 ||| flagAt s.irq 4

/-- CTRL (R22). -/
def State.ctrlWord (s : State) : Word := flagAt s.ieDone 0 ||| flagAt s.ieErr 1

/-- The numbers of the error codes (R114). -/
def ErrCode.number : ErrCode → BitVec 8
  | .none => 0x00
  | .badCmd => 0x01
  | .badChan => 0x02
  | .len => 0x03
  | .mismatch => 0x04
  | .config => 0x05
  | .code => 0x06
  | .nonFinite => 0x07
  | .domain => 0x08

/-- The numbers of ERRINFO.STAGE (R26). -/
def Stage.number : Stage → BitVec 4
  | .validation => 0
  | .reconstruction => 1
  | .scaleFactors => 2
  | .pass => 3
  | .final => 4

/-- The numbers of ERRINFO.SEQ (R26). -/
def Seq.number : Seq → BitVec 2
  | .none => 0
  | .voltage => 1
  | .current => 2

/-- ERRINFO as a word: INDEX 15:0, CHANNEL 18:16, STAGE 27:24, SEQ 33:32, OPCODE 47:40 (R26). -/
def ErrInfo.word (e : ErrInfo) : Word :=
  e.index.setWidth 64 ||| (e.channel.setWidth 64 <<< 16) ||| (e.stage.number.setWidth 64 <<< 24) |||
    (e.seq.number.setWidth 64 <<< 32) ||| (e.opcode.setWidth 64 <<< 40)

/-- VREC_STATUS as a word: LEN 15:0, CH 18:16, VALID 31 (R37). -/
def VrecStatus.word (v : VrecStatus) : Word :=
  v.len.setWidth 64 ||| (v.ch.setWidth 64 <<< 16) ||| flagAt v.valid 31

/-- RES_VALID with the bit of channel `k` set (R35, R101). -/
def setValid (v : BitVec 6) (k : Channel) : BitVec 6 := v ||| (1#6 <<< k.val)

end Sys2Proof.Machine
end

