-- ==== Sys2Proof/Machine/Float.lean ====
section
/-! DEFINITION. Float.lean: binary64 values and the operations `f64`, `fadd`, `fsub`, `fmul`, `fdiv`,
`fsqrt`, `isfinite`, `iszero` and `x < 0.0` of 00_scope.md R9, R10 and R14. A finite value is a whole
number of units of 2^-1074 (the least subnormal), so exact results are integers, or quotients of
integers, of units; each operation rounds its exact result once, to nearest with ties to even (R10).
The definitions of the operations are IEEE 754-2008's (R10; log 8). The payload of a NaN result is one
fixed pattern that no state ever holds (log 7). -/

namespace Sys2Proof.Machine

/-- The sign bit, bit 63 (R9). -/
def fSign (x : Word) : Bool := x.getLsbD 63

/-- The biased exponent field, bits 62:52 (R9). -/
def fExp (x : Word) : Nat := (x.extractLsb' 52 11).toNat

/-- The fraction field, bits 51:0 (R9). -/
def fFrac (x : Word) : Nat := (x.extractLsb' 0 52).toNat

/-- `isfinite(x)`: neither an infinity nor a NaN (R14). -/
def isFinite (x : Word) : Bool := fExp x != 2047

/-- A NaN: exponent field all ones and a fraction other than 0 (R9). -/
def isNaN (x : Word) : Bool := fExp x == 2047 && fFrac x != 0

/-- An infinity: exponent field all ones and fraction 0 (R9). -/
def isInf (x : Word) : Bool := fExp x == 2047 && fFrac x == 0

/-- `iszero(x)`: `+0.0` or `-0.0` (R14). -/
def isZero (x : Word) : Bool := fExp x == 0 && fFrac x == 0

/-- `x < 0.0`, the IEEE ordered comparison: false for `-0.0` and for NaN (R14). -/
def isNegative (x : Word) : Bool := fSign x && !isZero x && !isNaN x

/-- The magnitude of a finite value in units of 2^-1074: subnormals have no hidden bit (R9). -/
def fMag (x : Word) : Nat :=
  if fExp x = 0 then fFrac x else (2 ^ 52 + fFrac x) * 2 ^ (fExp x - 1)

/-- The exact value of a finite `x` in units of 2^-1074. -/
def fVal (x : Word) : Int := if fSign x then -(fMag x : Int) else (fMag x : Int)

/-- One (the value 1.0) in units of 2^-1074. -/
def fUnit : Nat := 2 ^ 1074

/-- The pattern of +infinity, which is also the first pattern above every finite magnitude (R9). -/
def infMagnitude : Nat := 2047 * 2 ^ 52

/-- A pattern from its sign and its low 63 bits. -/
def packSign (neg : Bool) (m : Nat) : Word := BitVec.ofNat 64 (m + if neg then 2 ^ 63 else 0)

/-- An infinity of the given sign. -/
def infinity (neg : Bool) : Word := packSign neg infMagnitude

/-- The one pattern of a NaN result (log 7). -/
def quietNaN : Word := 0x7FF8000000000000

/-- `a / b` rounded to the nearest integer, ties to even. -/
def divNearestEven (a b : Nat) : Nat :=
  let m := a / b
  let r := a % b
  if b < 2 * r ∨ (2 * r = b ∧ m % 2 = 1) then m + 1 else m

/-- The low 63 bits of the binary64 value nearest to `num / den` units, ties to even. The unit in the
last place is `2^sh` units where the quotient has `53 + sh` bits; the pattern of a magnitude `m * 2^sh`
with `m` in `2^52..2^53` is `sh * 2^52 + m`, and a magnitude below `2^53` is its own pattern, so a carry
out of the significand moves into the exponent and, past the largest finite value, to infinity. -/
def roundMagnitude (num den : Nat) : Nat :=
  let sh := (num / den).log2 - 52
  min (sh * 2 ^ 52 + divNearestEven num (den * 2 ^ sh)) infMagnitude

/-- The one rounding of R10: the exact result `num / den` units with the given sign. -/
def roundNearest (neg : Bool) (num den : Nat) : Word := packSign neg (roundMagnitude num den)

/-- `f64(n)`: conversion of an unsigned integer (R14), exact for every `n` below 2^53 (R104). -/
def f64 (n : Nat) : Word := roundNearest false (n * fUnit) 1

/-- Sign change, for `fsub`. -/
def fneg (x : Word) : Word := x ^^^ 0x8000000000000000

/-- `fadd(a, b)` (R10). A sum that is exactly zero is `+0.0` unless both operands are negative zeros. -/
def fadd (x y : Word) : Word :=
  if isNaN x || isNaN y then quietNaN
  else if isInf x then (if isInf y && fSign x != fSign y then quietNaN else x)
  else if isInf y then y
  else
    let z := fVal x + fVal y
    if z = 0 then packSign (fSign x && fSign y) 0
    else roundNearest (decide (z < 0)) z.natAbs 1

/-- `fsub(a, b)` (R10): the sum of `a` and `b` with its sign changed. -/
def fsub (x y : Word) : Word := fadd x (fneg y)

/-- `fmul(a, b)` (R10). -/
def fmul (x y : Word) : Word :=
  let neg := fSign x != fSign y
  if isNaN x || isNaN y then quietNaN
  else if isInf x || isInf y then
    (if isZero x || isZero y then quietNaN else infinity neg)
  else roundNearest neg (fMag x * fMag y) fUnit

/-- `fdiv(a, b)` (R10). -/
def fdiv (x y : Word) : Word :=
  let neg := fSign x != fSign y
  if isNaN x || isNaN y then quietNaN
  else if isInf x then (if isInf y then quietNaN else infinity neg)
  else if isInf y then packSign neg 0
  else if isZero y then (if isZero x then quietNaN else infinity neg)
  else roundNearest neg (fMag x * fUnit) (fMag y)

/-- Newton's iteration from above; `fuel` bounds its length by the first estimate. -/
def isqrtLoop : (fuel : Nat) → (n r : Nat) → Nat
  | 0, _, r => r
  | fuel + 1, n, r =>
    let r' := (r + n / r) / 2
    if r' < r then isqrtLoop fuel n r' else r

/-- The integer square root: the greatest `r` with `r * r <= n`. -/
def isqrt (n : Nat) : Nat :=
  let r := 2 ^ (n.log2 / 2 + 1)
  isqrtLoop r n r

/-- `fsqrt(a)`, correctly rounded (R10, D32). The exact root of `m` units is the square root of
`m * 2^1074` units, a number of more than 500 bits, so half an odd number stands exactly for a root
that falls between two integers. -/
def fsqrt (x : Word) : Word :=
  if isNaN x then quietNaN
  else if isZero x then x
  else if fSign x then quietNaN
  else if isInf x then x
  else
    let n := fMag x * fUnit
    let r := isqrt n
    roundNearest false (2 * r + if r * r = n then 0 else 1) 2

end Sys2Proof.Machine
end

