-- ==== Sys2Proof/Machine/Operands.lean ====
section
/-! DEFINITION. Operands.lean: the operand forms of the commands, CH and MASK (30_encoding.md R76), and the
checks every queued command makes of its operands and of the batch length before it reads a sample
(41_calculator.md R90, 60_exceptions.md R114, R115). -/

namespace Sys2Proof.Machine

/-- The number 1..6 of a channel, as ERRINFO.CHANNEL, VREC_STATUS.CH and DBG_CH hold it. -/
def channelNumber (k : Channel) : BitVec 3 := BitVec.ofNat 3 (k.val + 1)

/-- The channel that a CH operand names, none outside 1..6 (R6, R114). -/
def channelOf (ch : Nat) : Option Channel :=
  if h : 1 ≤ ch ∧ ch ≤ 6 then some ⟨ch - 1, by omega⟩ else none

/-- The channels that a MASK operand selects, in increasing `k` (R76). -/
def maskChannels (mask : BitVec 6) : List Channel :=
  ([0, 1, 2, 3, 4, 5] : List Channel).filter fun k => mask.getLsbD k.val

/-- The CH operand of RECON and CALC: E_BADCHAN with CH as written outside 1..6 (R88, R101, R115). -/
def needChannel (ch : Nat) : Except CmdError Channel :=
  match channelOf ch with
  | some k => .ok k
  | none => .error ⟨.badChan, .validation, BitVec.ofNat 3 ch, .none, 0⟩

/-- The MASK operand of MEASURE: E_BADCHAN with channel 0 where it is empty (R102, R115). -/
def needMask (mask : BitVec 6) : Except CmdError (List Channel) :=
  if mask = 0 then .error ⟨.badChan, .validation, 0, .none, 0⟩ else .ok (maskChannels mask)

/-- `2 <= N <= SAMPLE_DEPTH`, else E_LEN (R90). -/
def needLength (s : State) : Except CmdError Unit :=
  if 2 ≤ s.batch ∧ s.batch ≤ Config.sampleDepth then .ok ()
  else .error ⟨.len, .validation, 0, .none, 0⟩

/-- `VREC_STATUS.VALID = 1`, `CH = k` and `LEN = N`, else E_MISMATCH (R101). -/
def needMatch (s : State) (k : Channel) : Except CmdError Unit :=
  if s.vrecStatus.valid = true ∧ s.vrecStatus.ch = channelNumber k ∧ s.vrecStatus.len = s.n then .ok ()
  else .error ⟨.mismatch, .validation, channelNumber k, .voltage, 0⟩

end Sys2Proof.Machine
end

