-- ==== Sys2Proof/Machine/Reconstructor.lean ====
section
/-! DEFINITION. Reconstructor.lean: the waveform reconstruction `Reconstruct(k)` (40_reconstructor.md R84,
R87) and the command RECON (R88). -/

namespace Sys2Proof.Machine

/-- The recurrence from sample `i` on, `prev` being `W[i-1]` (R84). At one index the code check comes
first, and the three results are checked together (R118). -/
def reconstructFrom (adc : BitVec 32) (c : Word) (ch : BitVec 3) :
    (i : Nat) → (prev : Word) → List Code → Except CmdError (List Word)
  | _, _, [] => .ok []
  | i, prev, v :: vs =>
    if adc.toNat ≤ v.toNat then .error ⟨.code, .reconstruction, ch, .voltage, i⟩
    else
      let d := fsub (f64 v.toNat) prev
      let m := fmul c d
      let w := fadd prev m
      if isFinite d && isFinite m && isFinite w then
        match reconstructFrom adc c ch (i + 1) w vs with
        | .ok ws => .ok (w :: ws)
        | .error e => .error e
      else .error ⟨.nonFinite, .reconstruction, ch, .voltage, i⟩

/-- The reconstruction of a code sequence: `V'[0] = V[0]`, then the recurrence (R84). -/
def reconstructSeq (adc : BitVec 32) (c : Word) (ch : BitVec 3) : List Code → Except CmdError (List Word)
  | [] => .ok []
  | v :: vs =>
    if adc.toNat ≤ v.toNat then .error ⟨.code, .reconstruction, ch, .voltage, 0⟩
    else
      match reconstructFrom adc c ch 1 (f64 v.toNat) vs with
      | .ok ws => .ok (f64 v.toNat :: ws)
      | .error e => .error e

/-- `Reconstruct(k)` (R84): reads `N`, `ADC_RES`, `PHASE[k]` and `VRAM[0..N)`, and writes nothing (R86). -/
def State.reconstruct (s : State) (k : Channel) : Except CmdError (List Word) :=
  if s.adcRes = 0 then .error ⟨.config, .reconstruction, channelNumber k, .none, 0⟩
  else if !isFinite s.phase[k] then .error ⟨.config, .reconstruction, channelNumber k, .none, 0⟩
  else reconstructSeq s.adcRes s.phase[k] (channelNumber k) s.vramSeq

/-- The commit of RECON (R88): `VREC[0..N)`, VREC_STATUS and DONE. Entries from `N` on keep their
values. -/
def commitRecon (k : Channel) (ws : List Word) (s : State) : State :=
  { s with
    mem := s.mem.storeVrec 0 ws
    vrecStatus := ⟨s.n, channelNumber k, true⟩
    done := true }

/-- `Exec_RECON(k)` (R88): the state its commit leaves, or the error it raises. -/
def reconCommand (ch : Nat) (s : State) : Except CmdError State := do
  let k ← needChannel ch
  needLength s
  let ws ← s.reconstruct k
  pure (commitRecon k ws s)

/-- RECON: the engine step of the word `RECON ch` (R88, R108). -/
def execRecon (ch : Nat) (s : State) : Host.Outcome State Fault Refusal :=
  .next (finishQueued (encode (.recon ch)) s (reconCommand ch s))

end Sys2Proof.Machine
end

