-- ==== Sys2Proof/Machine/Calculator.lean ====
section
/-! DEFINITION. Calculator.lean: the scale factors, the accumulation pass and the final formulas of
41_calculator.md R91 to R100, and the commands CALC (R101) and MEASURE (R102, R103). -/

namespace Sys2Proof.Machine

/-- Every failure of `ScaleFactors(k)` (R92). -/
def configError (k : Channel) : CmdError := ⟨.config, .scaleFactors, channelNumber k, .none, 0⟩

/-- The formulas of R91 in the order written: `vref, t1, cs, q, ratio, t2, vs`. -/
def scaleProducts (s : State) (k : Channel) : List Word × Word × Word :=
  let vref := fdiv s.boardRef (f64 s.adcRes.toNat)
  let t1 := fmul vref Config.hundred
  let cs := fmul t1 s.curAcc[k]
  let q := fdiv s.gridV s.xfmrV
  let ratio := fmul q Config.eleven
  let t2 := fmul vref ratio
  let vs := fmul t2 s.acAcc
  ([vref, t1, cs, q, ratio, t2, vs], cs, vs)

/-- `ScaleFactors(k)` (R91, R92): the input checks before any operation, the result check after all
seven; answers `(cs, vs)`. -/
def State.scaleFactors (s : State) (k : Channel) : Except CmdError (Word × Word) :=
  if s.adcRes = 0 then .error (configError k)
  else if !([s.boardRef, s.gridV, s.xfmrV, s.acAcc, s.curAcc[k]].all isFinite) then .error (configError k)
  else if isZero s.xfmrV then .error (configError k)
  else
    let (all, cs, vs) := scaleProducts s k
    if all.all isFinite then .ok (cs, vs) else .error (configError k)

/-- The five accumulators (R93). -/
structure Sums where
  si : Word
  sv : Word
  sp : Word
  sii : Word
  svv : Word
deriving DecidableEq, Repr

/-- The accumulators start at +0.0 (R93, D44). -/
def Sums.zero : Sums := ⟨0, 0, 0, 0, 0⟩

/-- The accumulation pass from sample `i` on (R93): the current code and the voltage of each sample. At one
index the code check comes first, and the eight results are checked together. -/
def passFrom (adc : BitVec 32) (ch : BitVec 3) : (i : Nat) → Sums → List (Code × Word) → Except CmdError Sums
  | _, t, [] => .ok t
  | i, t, (x, b) :: rest =>
    if adc.toNat ≤ x.toNat then .error ⟨.code, .pass, ch, .current, i⟩
    else
      let a := f64 x.toNat
      let si := fadd t.si a
      let sv := fadd t.sv b
      let p := fmul a b
      let sp := fadd t.sp p
      let q := fmul a a
      let sii := fadd t.sii q
      let r := fmul b b
      let svv := fadd t.svv r
      if [si, sv, p, sp, q, sii, r, svv].all isFinite then passFrom adc ch (i + 1) ⟨si, sv, sp, sii, svv⟩ rest
      else .error ⟨.nonFinite, .pass, ch, .none, i⟩

/-- `Pass(k, W)` (R93) over `IRAM[k][0..N)` and `W[0..N)`. -/
def State.pass (s : State) (k : Channel) (ws : List Word) : Except CmdError Sums :=
  passFrom s.adcRes (channelNumber k) 0 .zero ((s.iramSeq k).zip ws)

/-- The check after each operation of the final stage (R100). -/
def needFinite (ch : BitVec 3) (x : Word) : Except CmdError Word :=
  if isFinite x then .ok x else .error ⟨.nonFinite, .final, ch, .none, 0⟩

/-- The radicand checks of R96 and R97. -/
def needRadicand (ch : BitVec 3) (seq : Seq) (x : Word) : Except CmdError Unit :=
  if isNegative x then .error ⟨.domain, .final, ch, seq, 0⟩ else .ok ()

/-- The power factor (R98, R122): `+0.0` where the apparent power is `+0.0` or `-0.0`, the quotient
otherwise. -/
def powerFactor (real app : Word) : Word := if isZero app then 0 else fdiv real app

/-- The final stage: R94, R95, R96, R97 and R98 in that order, each operation's result checked in turn
(R100). -/
def finalStage (ch : BitVec 3) (n : Nat) (cs vs : Word) (t : Sums) : Except CmdError (Reading × Debug) := do
  let nf := f64 n
  let mI ← needFinite ch (fdiv t.si nf)
  let mV ← needFinite ch (fdiv t.sv nf)
  let mP ← needFinite ch (fdiv t.sp nf)
  let mII ← needFinite ch (fdiv t.sii nf)
  let mVV ← needFinite ch (fdiv t.svv nf)
  let bias ← needFinite ch (fmul mI mV)
  let core ← needFinite ch (fsub mP bias)
  let coreCs ← needFinite ch (fmul core cs)
  let real ← needFinite ch (fmul coreCs vs)
  let sqI ← needFinite ch (fmul mI mI)
  let radI ← needFinite ch (fsub mII sqI)
  needRadicand ch .current radI
  let rootI ← needFinite ch (fsqrt radI)
  let rmsI ← needFinite ch (fmul rootI cs)
  let sqV ← needFinite ch (fmul mV mV)
  let radV ← needFinite ch (fsub mVV sqV)
  needRadicand ch .voltage radV
  let rootV ← needFinite ch (fsqrt radV)
  let rmsV ← needFinite ch (fmul rootV vs)
  let app ← needFinite ch (fmul rmsV rmsI)
  let pf ← needFinite ch (powerFactor real app)
  pure (⟨real, rmsI, rmsV, pf⟩, ⟨ch, t.si, t.sv, t.sp, t.sii, t.svv, core, app⟩)

/-- `Calc(k, W)` (R100): the PowerReading and the debug values; writes no state. -/
def State.calculate (s : State) (k : Channel) (ws : List Word) : Except CmdError (Reading × Debug) := do
  let (cs, vs) ← s.scaleFactors k
  let t ← s.pass k ws
  finalStage (channelNumber k) s.batch cs vs t

/-- The commit of CALC (R101). -/
def commitCalc (k : Channel) (r : Reading × Debug) (s : State) : State :=
  { s with
    results := s.results.set k r.1
    resValid := setValid s.resValid k
    dbg := r.2
    resTs := s.batchTs
    done := true }

/-- `Exec_CALC(k)` (R101). -/
def calcCommand (ch : Nat) (s : State) : Except CmdError State := do
  let k ← needChannel ch
  needLength s
  needMatch s k
  let r ← s.calculate k s.vrecSeq
  pure (commitCalc k r s)

/-- CALC: the engine step of the word `CALC ch` (R101, R108). -/
def execCalc (ch : Nat) (s : State) : Host.Outcome State Fault Refusal :=
  .next (finishQueued (encode (.calculate ch)) s (calcCommand ch s))

/-- One channel of MEASURE (R102): its private reconstruction, then its reading. -/
def State.measureChannel (s : State) (k : Channel) : Except CmdError (Reading × Debug) := do
  let ws ← s.reconstruct k
  s.calculate k ws

/-- The channels of MEASURE one after another, each in full before the next (R102, R118). -/
def State.measureAll (s : State) : List Channel → Except CmdError (List (Channel × Reading × Debug))
  | [] => .ok []
  | k :: ks => do
    let r ← s.measureChannel k
    let rest ← s.measureAll ks
    pure ((k, r) :: rest)

/-- `RESULT[k] <- reading_k` for every channel computed (R102). -/
def storeReadings : List (Channel × Reading × Debug) → Vector Reading 6 → Vector Reading 6
  | [], v => v
  | (k, r, _) :: rest, v => storeReadings rest (v.set k r)

/-- The commit of MEASURE (R102): REP_VRMS is the RMS voltage of the lowest channel (R103), DBG the debug
values of the highest. -/
def commitMeasure (mask : BitVec 6) (rs : List (Channel × Reading × Debug)) (s : State) : State :=
  { s with
    results := storeReadings rs s.results
    resValid := mask
    repVrms := (rs.head?.map fun r => r.2.1.rmsVoltage).getD s.repVrms
    dbg := (rs.getLast?.map fun r => r.2.2).getD s.dbg
    resTs := s.batchTs
    done := true }

/-- `Exec_MEASURE(m)` (R102). -/
def measureCommand (mask : BitVec 6) (s : State) : Except CmdError State := do
  let ks ← needMask mask
  needLength s
  let rs ← s.measureAll ks
  pure (commitMeasure mask rs s)

/-- MEASURE: the engine step of the word `MEASURE mask` (R102, R108). -/
def execMeasure (mask : BitVec 6) (s : State) : Host.Outcome State Fault Refusal :=
  .next (finishQueued (encode (.measure mask)) s (measureCommand mask s))

end Sys2Proof.Machine
end

