-- ==== Sys2Proof/Machine/Control.lean ====
section
/-! DEFINITION. Control.lean: the immediate commands NOP, CLEAR and SRESET (42_control.md R109 to R111),
each with what the CMD write does with it in every state (R107). -/

namespace Sys2Proof.Machine

/-- NOP (R109): no state change when `BUSY = 0`, ERR set or not; dropped while `BUSY = 1`. -/
def execNop (s : State) : Host.Outcome State Fault Refusal :=
  if s.busy then .next (dropWrite s) else .next s

/-- CLEAR (R110): the return from a command error when `BUSY = 0`; dropped while `BUSY = 1`. -/
def execClear (s : State) : Host.Outcome State Fault Refusal :=
  if s.busy then .next (dropWrite s) else .next (clearErrors s)

/-- SRESET (R111): acts in every state, also while `BUSY = 1`, where it cancels the pending command. -/
def execSreset (s : State) : Host.Outcome State Fault Refusal := .next (softReset s)

end Sys2Proof.Machine
end

