-- ==== Sys2Proof/Machine/Dispatch.lean ====
section
/-! DEFINITION. Dispatch.lean: one arm for each command. A queued command's meaning is its engine step
(42_control.md R108), an immediate command's its effect within the CMD write (R107); log 14. -/

namespace Sys2Proof.Machine

def exec (i : Instr) (s : State) : Host.Outcome State Fault Refusal :=
  match i with
  | .nop => Sys2Proof.Machine.execNop s
  | .recon ch => Sys2Proof.Machine.execRecon ch s
  | .calculate ch => Sys2Proof.Machine.execCalc ch s
  | .measure mask => Sys2Proof.Machine.execMeasure mask s
  | .clear => Sys2Proof.Machine.execClear s
  | .sreset => Sys2Proof.Machine.execSreset s

end Sys2Proof.Machine
end

