-- ==== Sys2Proof/Machine/Engine.lean ====
section
/-! DEFINITION. Engine.lean: the acceptance of a CMD write and the engine step (42_control.md R107, R108). -/

namespace Sys2Proof.Machine

/-- The acceptance of a queued word: PENDING, BUSY and DONE (R107). -/
def acceptWord (w : Word) (s : State) : State := { s with pending := w, busy := true, done := false }

/-- A queued word, illegal ones too: dropped while BUSY = 1 or ERR = 1, else accepted (R107). -/
def queueWord (w : Word) (s : State) : State :=
  if s.busy || s.err then dropWrite s else acceptWord w s

/-- `Issue(w)` (R107): the CMD write decodes the word at once; an immediate command acts within the write
(NOP and CLEAR are themselves dropped while BUSY = 1), every other word is a queued word (R77). -/
def issue (w : Word) (s : State) : Host.Outcome State Fault Refusal :=
  match decode w with
  | .ok i => if i.immediate then exec i s else .next (queueWord w s)
  | .error _ => .next (queueWord w s)

/-- E_BADCMD (R78, R115). -/
def badCommand : CmdError := ⟨.badCmd, .validation, 0, .none, 0⟩

/-- `EngineStep()` (R108) on a state with BUSY = 1: the word in PENDING is executed, and BUSY is cleared. A
pending NOP, CLEAR or SRESET, which the acceptance never queues, has no arm in R108: BUSY is cleared and
nothing else happens (log 15). -/
def engineStep (s : State) : Host.Outcome State Fault Refusal :=
  match decode s.pending with
  | .error _ => .next (finishQueued s.pending s (.error badCommand))
  | .ok i => if i.immediate then .next { s with busy := false } else exec i s

/-- The engine's turn: its step is enabled exactly when BUSY = 1 (R108); otherwise nothing happens (R142). -/
def engineTurn (s : State) : Host.Outcome State Fault Refusal :=
  if s.busy then engineStep s else .next s

end Sys2Proof.Machine
end

