-- ==== Sys2Proof/Machine/Registers.lean ====
section
/-! DEFINITION. Registers.lean: the memory-mapped registers (10_state.md R19 to R41) and the address map of
the window (20_memory.md R53): which location an aligned offset is, what a read of it returns (R59), whether
the host may write it (R19, R58) and what a write stores (R60, R61). -/

namespace Sys2Proof.Machine

/-- The four registers of one `RESULT[k]` (R40). -/
inductive ResultField where
  | realPower
  | rmsCurrent
  | rmsVoltage
  | powerFactor
deriving DecidableEq, Repr

/-- The debug registers (R41). -/
inductive DebugField where
  | ch
  | si
  | sv
  | sp
  | sii
  | svv
  | core
  | app
deriving DecidableEq, Repr

/-- The registers of the window (R53). -/
inductive Reg where
  | id
  | cap
  | ctrl
  | status
  | cmd
  | errCode
  | errInfo
  | n
  | adcRes
  | boardRef
  | gridV
  | xfmrV
  | acAcc
  | batchTs
  | resTs
  | resValid
  | repVrms
  | vrecStatus
  | phase (k : Channel)
  | curAcc (k : Channel)
  | result (k : Channel) (f : ResultField)
  | dbg (f : DebugField)
deriving DecidableEq, Repr

/-- What an aligned offset of the window is. A sample word or a VREC entry is known by its offset. -/
inductive Loc where
  | reg (r : Reg)
  | vramWord (a : Nat)
  | iramWord (a : Nat)
  | vrecWord (a : Nat)
deriving DecidableEq, Repr

/-- The registers at 0x000 to 0x08F, in order (R20 to R37). -/
def controlRegs : List Reg :=
  [.id, .cap, .ctrl, .status, .cmd, .errCode, .errInfo, .n, .adcRes, .boardRef, .gridV, .xfmrV, .acAcc,
    .batchTs, .resTs, .resValid, .repVrms, .vrecStatus]

/-- The registers of one RESULT[k], in order (R40). -/
def resultFields : List ResultField := [.realPower, .rmsCurrent, .rmsVoltage, .powerFactor]

/-- The registers at 0x300 to 0x33F, in order (R41). -/
def debugFields : List DebugField := [.ch, .si, .sv, .sp, .sii, .svv, .core, .app]

/-- The channel of the `j`-th entry of a per-channel block of registers. -/
def channelAt (j : Nat) : Channel := Fin.ofNat 6 j

/-- The address map (R53) on offsets that are multiples of 8, none where the offset is reserved. -/
def locate (a : Nat) : Option Loc :=
  if a < 0x90 then controlRegs[a / 8]?.map .reg
  else if 0x100 ≤ a ∧ a < 0x130 then some (.reg (.phase (channelAt ((a - 0x100) / 8))))
  else if 0x140 ≤ a ∧ a < 0x170 then some (.reg (.curAcc (channelAt ((a - 0x140) / 8))))
  else if 0x200 ≤ a ∧ a < 0x2C0 then
    resultFields[(a - 0x200) / 8 % 4]?.map fun f => .reg (.result (channelAt ((a - 0x200) / 0x20)) f)
  else if 0x300 ≤ a ∧ a < 0x340 then debugFields[(a - 0x300) / 8]?.map fun f => .reg (.dbg f)
  else if vramBase ≤ a ∧ a < 0x12000 then some (.vramWord a)
  else if 0x12000 ≤ a ∧ a < 0x1E000 then some (.iramWord a)
  else if vrecBase ≤ a ∧ a < 0x28000 then some (.vrecWord a)
  else none

/-- The offset of a register (R20 to R41). -/
def Reg.offset : Reg → Nat
  | .id => 0x000
  | .cap => 0x008
  | .ctrl => 0x010
  | .status => 0x018
  | .cmd => 0x020
  | .errCode => 0x028
  | .errInfo => 0x030
  | .n => 0x038
  | .adcRes => 0x040
  | .boardRef => 0x048
  | .gridV => 0x050
  | .xfmrV => 0x058
  | .acAcc => 0x060
  | .batchTs => 0x068
  | .resTs => 0x070
  | .resValid => 0x078
  | .repVrms => 0x080
  | .vrecStatus => 0x088
  | .phase k => 0x100 + 8 * k.val
  | .curAcc k => 0x140 + 8 * k.val
  | .result k .realPower => 0x200 + 0x20 * k.val
  | .result k .rmsCurrent => 0x208 + 0x20 * k.val
  | .result k .rmsVoltage => 0x210 + 0x20 * k.val
  | .result k .powerFactor => 0x218 + 0x20 * k.val
  | .dbg .ch => 0x300
  | .dbg .si => 0x308
  | .dbg .sv => 0x310
  | .dbg .sp => 0x318
  | .dbg .sii => 0x320
  | .dbg .svv => 0x328
  | .dbg .core => 0x330
  | .dbg .app => 0x338

/-- One of the four values of a PowerReading (R40). -/
def Reading.get (r : Reading) : ResultField → Word
  | .realPower => r.realPower
  | .rmsCurrent => r.rmsCurrent
  | .rmsVoltage => r.rmsVoltage
  | .powerFactor => r.powerFactor

/-- One of the debug values as a word (R41). -/
def Debug.get (d : Debug) : DebugField → Word
  | .ch => d.ch.setWidth 64
  | .si => d.si
  | .sv => d.sv
  | .sp => d.sp
  | .sii => d.sii
  | .svv => d.svv
  | .core => d.core
  | .app => d.app

/-- The 64-bit value a host read of a register returns, reserved bits as 0 (R19, R59); CMD reads 0 (R24). -/
def State.readReg (s : State) : Reg → Word
  | .id => Config.idValue
  | .cap => Config.capValue
  | .ctrl => s.ctrlWord
  | .status => s.statusWord
  | .cmd => 0
  | .errCode => s.errCode.number.setWidth 64
  | .errInfo => s.errInfo.word
  | .n => s.n.setWidth 64
  | .adcRes => s.adcRes.setWidth 64
  | .boardRef => s.boardRef
  | .gridV => s.gridV
  | .xfmrV => s.xfmrV
  | .acAcc => s.acAcc
  | .batchTs => s.batchTs
  | .resTs => s.resTs
  | .resValid => s.resValid.setWidth 64
  | .repVrms => s.repVrms
  | .vrecStatus => s.vrecStatus.word
  | .phase k => s.phase[k]
  | .curAcc k => s.curAcc[k]
  | .result k f => s.results[k].get f
  | .dbg f => s.dbg.get f

/-- The value of a location (R59). -/
def State.readLoc (s : State) : Loc → Word
  | .reg r => s.readReg r
  | .vramWord a => s.wordAt a
  | .iramWord a => s.wordAt a
  | .vrecWord a => s.wordAt a

/-- The RW registers (R19). CMD, the one WO register, is not among them: a write of it is a command. -/
def Reg.writable : Reg → Bool
  | .ctrl => true
  | .n => true
  | .adcRes => true
  | .boardRef => true
  | .gridV => true
  | .xfmrV => true
  | .acAcc => true
  | .batchTs => true
  | .phase _ => true
  | .curAcc _ => true
  | .id => false
  | .cap => false
  | .status => false
  | .cmd => false
  | .errCode => false
  | .errInfo => false
  | .resTs => false
  | .resValid => false
  | .repVrms => false
  | .vrecStatus => false
  | .result _ _ => false
  | .dbg _ => false

/-- The locations a host write may store to: RW registers and sample words, not VREC (R58). -/
def Loc.writable : Loc → Bool
  | .reg r => r.writable
  | .vramWord _ => true
  | .iramWord _ => true
  | .vrecWord _ => false

/-- `VREC_STATUS.VALID <- 0` (R61); LEN and CH keep their values. -/
def invalidateVrec (s : State) : State := { s with vrecStatus := { s.vrecStatus with valid := false } }

/-- A host write of a register: its stored bits, and the side effects of R61 for `N` and `PHASE[k]`.
Registers that are not RW store nothing (the write does not get here, R58). -/
def storeReg (r : Reg) (v : Word) (s : State) : State :=
  match r with
  | .ctrl => { s with ieDone := v.getLsbD 0, ieErr := v.getLsbD 1 }
  | .n => invalidateVrec { s with n := v.setWidth 16 }
  | .adcRes => { s with adcRes := v.setWidth 32 }
  | .boardRef => { s with boardRef := v }
  | .gridV => { s with gridV := v }
  | .xfmrV => { s with xfmrV := v }
  | .acAcc => { s with acAcc := v }
  | .batchTs => { s with batchTs := v }
  | .phase k =>
    let s' := { s with phase := s.phase.set k v }
    if channelNumber k = s.vrecStatus.ch then invalidateVrec s' else s'
  | .curAcc k => { s with curAcc := s.curAcc.set k v }
  | .id => s
  | .cap => s
  | .status => s
  | .cmd => s
  | .errCode => s
  | .errInfo => s
  | .resTs => s
  | .resValid => s
  | .repVrms => s
  | .vrecStatus => s
  | .result _ _ => s
  | .dbg _ => s

/-- A host write of a location that is not dropped (R60, R61): a sample word stores its eight bytes, four
codes (R57), and a VRAM word also clears VREC_STATUS.VALID. -/
def storeLoc (l : Loc) (v : Word) (s : State) : State :=
  match l with
  | .reg r => storeReg r v s
  | .vramWord a => invalidateVrec { s with mem := s.mem.storeWord a v }
  | .iramWord a => { s with mem := s.mem.storeWord a v }
  | .vrecWord _ => s

end Sys2Proof.Machine
end

