-- ==== Sys2Proof/Machine/Bus.lean ====
section
/-! DEFINITION. Bus.lean: the host's accesses (20_memory.md R54 to R61, R71), each one atomic transaction
(R62), and what each input does in one step (log 1). -/

namespace Sys2Proof.Machine

/-- The offset of CMD (R24). -/
def cmdOffset : Addr := 0x020

/-- The block answers the access (R3; log 17). -/
def respond (r : BusResponse) (s : State) : State := { s with bus := some r }

/-- A read that gets ERROR: no state of the block changes (R58); the data word is a free value (R55, I3;
log 5). -/
def readError (s : State) : State :=
  { s with bus := some (.read true (Config.errorReadData s.draws)), draws := s.draws + 1 }

/-- The location of an access, none where it is misaligned (R55) or the offset is reserved (R53). -/
def target (a : Addr) : Option Loc := if a.toNat % 8 = 0 then locate a.toNat else none

/-- `MemRead(a, 8)` (R58, R59): no side effect in any region. -/
def hostRead (a : Addr) (s : State) : State :=
  match target a with
  | none => readError s
  | some l => respond (.read false (s.readLoc l)) s

/-- A host write of a location other than CMD (R58, R60): a bus error where the host may not write it,
whether BUSY is 0 or 1; else dropped while BUSY; else stored. -/
def writeLoc (l : Loc) (v : Word) (s : State) : State :=
  if l.writable then
    respond (.write false) (if s.busy then dropWrite s else storeLoc l v s)
  else respond (.write true) s

/-- `MemWrite(a, 8, v)` (R58, R60). A CMD write answers OKAY in every case (R107). -/
def hostWrite (a : Addr) (v : Word) (s : State) : Host.Outcome State Fault Refusal :=
  match target a with
  | none => .next (respond (.write true) s)
  | some l =>
    if l = .reg .cmd then issue v (respond (.write false) s) else .next (writeLoc l v s)

/-- One input in one atomic step (R62, R64). A host access while `rst` is asserted faults (R134), and so
does a stopped clock (R131). `rst` acts while it is asserted and at the step of its release (R132). -/
def runInput (e : Input) (s : State) : Host.Outcome State Fault Refusal :=
  match e with
  | .read a => if s.rst then .fault .accessDuringReset else .next (hostRead a s)
  | .write a v => if s.rst then .fault .accessDuringReset else hostWrite a v s
  | .engine => engineTurn s
  | .rst asserted => if asserted || s.rst then .next (hardwareReset asserted s) else .next s
  | .clkStop => .fault .clockStopped

end Sys2Proof.Machine
end

