-- ==== Sys2Proof/Machine/Step.lean ====
section
/-! DEFINITION. Step.lean: one step of the whole block (20_memory.md R64: a total order of host accesses,
engine steps and resets), and how one command comes to be the next to run. -/

namespace Sys2Proof.Machine

/-- The next input happens; when none is left, the engine takes its turn (70_reset_and_hazards.md R140:
weak fairness; R142: quiescent once BUSY = 0; log 2). -/
def step (s : State) : Host.Outcome State Fault Refusal :=
  match s.inputs with
  | [] => engineTurn s
  | e :: rest => runInput e { s with inputs := rest }

/-- The engine's turn comes next. -/
def engineNext : List Input → List Input
  | [] => []
  | e :: rest => .engine :: e :: rest

/-- `s` with the one command word `w` where the next step runs it (log 3): a word that the CMD write itself
runs is the next host access, and a queued word stands in PENDING with BUSY = 1 and the engine's turn
next. -/
def State.withFetchWord (s : State) (nbits w : Nat) : State :=
  let v : Word := BitVec.ofNat 64 (w % 2 ^ nbits)
  match decode v with
  | .ok i =>
    if i.immediate then { s with rst := false, inputs := .write cmdOffset v :: s.inputs }
    else { s with pending := v, busy := true, inputs := engineNext s.inputs }
  | .error _ => { s with pending := v, busy := true, inputs := engineNext s.inputs }

end Sys2Proof.Machine
end

