-- ==== Sys2Proof/Machine/Assembler.lean ====
section
/-! DEFINITION. Assembler.lean: the command syntax (30_encoding.md R81), the pseudo-commands (R82) and the
notation of host programs (R83) as data, with the words and the inputs they stand for. -/

namespace Sys2Proof.Machine

/-- One line of command syntax (R81) or a pseudo-command of one word (R82), after parsing. -/
inductive AsmCommand where
  | nop
  | recon (k : Nat)
  | calculate (k : Nat)
  /-- `MEASURE <k1>,<k2>,...`: the channels as listed. -/
  | measure (ks : List Nat)
  | clear
  | sreset
  /-- `.word <64-bit value>`. -/
  | word (v : Word)
  /-- `MEASURE.ALL`. -/
  | measureAll
  /-- `MEASURE.MASK <m>`. -/
  | measureMask (m : Nat)
deriving DecidableEq, Repr

/-- A channel the assembler accepts: 1..6 (R81). -/
def asmChannel (k : Nat) : Bool := decide (1 ≤ k ∧ k ≤ 6)

/-- The mask of a list of channels: the OR of `1 << (ki - 1)` (R81). -/
def asmMask (ks : List Nat) : BitVec 6 := ks.foldl (fun m k => m ||| (1#6 <<< (k - 1))) 0

/-- The word of one line, none where the assembler refuses it: a channel outside 1..6, an empty list, a
repeated channel (R81), or a mask outside 1..63 (R82). -/
def assemble : AsmCommand → Option Word
  | .nop => some (encode .nop)
  | .recon k => if asmChannel k then some (encode (.recon k)) else none
  | .calculate k => if asmChannel k then some (encode (.calculate k)) else none
  | .measure ks =>
    if !ks.isEmpty && ks.all asmChannel && decide ks.Nodup then some (encode (.measure (asmMask ks))) else none
  | .clear => some (encode .clear)
  | .sreset => some (encode .sreset)
  | .word v => some v
  | .measureAll => some (encode (.measure (asmMask [1, 2, 3, 4, 5, 6])))
  | .measureMask m => if 1 ≤ m ∧ m ≤ 63 then some (encode (.measure (BitVec.ofNat 6 m))) else none

/-- One line of a host program (R83), `RECALC <k>` of R82 included. -/
inductive HostLine where
  /-- `WR <offset>, <value>`. -/
  | wr (offset : Addr) (value : Word)
  /-- `RD <offset> => <value>`. -/
  | rd (offset : Addr) (value : Word)
  /-- `CMD <command>`. -/
  | cmd (c : AsmCommand)
  /-- `WAIT`. -/
  | wait
  /-- `RECALC <k>`. -/
  | recalc (k : Nat)
deriving DecidableEq, Repr

/-- The offset of STATUS (R23). -/
def statusOffset : Addr := 0x018

/-- `WAIT` in a run where the engine steps after the host has read STATUS `polls` times with BUSY = 1: those
reads, the engine step, and the read that finds BUSY = 0 (R83, R140). -/
def waitInputs (polls : Nat) : List Input :=
  List.replicate polls (.read statusOffset) ++ [.engine, .read statusOffset]

/-- The accesses of one line, none where the assembler refuses it, in a run where each WAIT of the line sees
`polls` reads of BUSY = 1 (R83). Other runs of the same program put `engine` elsewhere (R140). -/
def HostLine.inputs (polls : Nat) : HostLine → Option (List Input)
  | .wr a v => some [.write a v]
  | .rd a _ => some [.read a]
  | .cmd c => (assemble c).map fun w => [.write cmdOffset w]
  | .wait => some (waitInputs polls)
  | .recalc k =>
    match assemble (.recon k), assemble (.calculate k) with
    | some r, some c => some (.write cmdOffset r :: (waitInputs polls ++ [.write cmdOffset c]))
    | _, _ => none

/-- What a line expects the bus to have answered once it has run (R83). -/
def HostLine.expects : HostLine → Option BusResponse
  | .rd _ v => some (.read false v)
  | .wr _ _ => none
  | .cmd _ => none
  | .wait => none
  | .recalc _ => none

/-- The inputs of a host program, each line with its number of polls. -/
def programInputs : List (HostLine × Nat) → Option (List Input)
  | [] => some []
  | (l, polls) :: rest =>
    match l.inputs polls, programInputs rest with
    | some is, some js => some (is ++ js)
    | _, _ => none

end Sys2Proof.Machine
end

