-- ==== Sys2Proof/Safety.lean ====
section
/-! DEFINITION. Safety.lean: the terms in which claims about runs speak: the invariants of 10_state.md R47
and R48 and those that follow from 42_control.md R107 and R108 and 60_exceptions.md R116 and R123, the
finiteness of every committed result (60_exceptions.md R114, E_NONFINITE), the end of a run
(70_reset_and_hazards.md R142), the host's duties as premises (20_memory.md R71), the results of the formulas of
40_reconstructor.md R84 and 41_calculator.md R91 to R98 with the checks on them, and the rows of the error record
(60_exceptions.md R115). -/

namespace Sys2Proof.Machine

/-- The offsets that hold sample memory or VREC (R53). -/
def storedOffset (a : Nat) : Prop := (0x10000 ≤ a ∧ a < 0x1E000) ∨ (0x20000 ≤ a ∧ a < 0x28000)

/-- Every value of a PowerReading is finite. -/
def Reading.finite (r : Reading) : Bool :=
  isFinite r.realPower && isFinite r.rmsCurrent && isFinite r.rmsVoltage && isFinite r.powerFactor

/-- Every binary64 debug value is finite. -/
def Debug.finite (d : Debug) : Bool :=
  isFinite d.si && isFinite d.sv && isFinite d.sp && isFinite d.sii && isFinite d.svv && isFinite d.core &&
    isFinite d.app

/-- Every committed result is finite: WRPC keeps NaN and infinities out of every result (R114, D8). -/
def State.resultsFinite (s : State) : Prop :=
  (∀ k : Channel, s.results[k].finite = true) ∧ s.dbg.finite = true ∧ isFinite s.repVrms = true

/-- What VREC_STATUS.VALID means (R37, R48): some channel `k` is the one in CH, LEN is the current `N` and a
legal batch length, PHASE[k] is finite, and VREC[0..LEN) is the reconstruction of the current VRAM[0..LEN)
with the current PHASE[k], for the `ADC_RES` the codes were checked against then (R101, C10). -/
def State.vrecMatches (s : State) : Prop :=
  ∃ (k : Channel) (adc : BitVec 32),
    s.vrecStatus.ch = channelNumber k ∧ s.vrecStatus.len = s.n ∧ 2 ≤ s.batch ∧ s.batch ≤ Config.sampleDepth ∧
      isFinite s.phase[k] = true ∧ reconstructSeq adc s.phase[k] (channelNumber k) s.vramSeq = .ok s.vrecSeq

/-- PENDING holds a word that the acceptance queues: no NOP, CLEAR or SRESET (R107, R108). -/
def State.pendingQueued (s : State) : Prop := ∀ i, decode s.pending = .ok i → i.immediate = false

/-- The block is held in reset: every register has its reset value (R132). -/
def State.heldInReset (s : State) : Prop :=
  s = { State.reset with rst := s.rst, bus := s.bus, inputs := s.inputs, epoch := s.epoch, draws := s.draws }

/-- The invariants of the whole block. -/
structure State.Inv (s : State) : Prop where
  /-- Sample memory keeps its one canonical form. -/
  memory : s.mem.wf
  /-- Only offsets of sample memory and VREC are stored (R53). -/
  offsets : ∀ c ∈ s.mem, storedOffset c.1
  /-- BUSY excludes ERR (R47) and DONE (R107 clears it, R108 sets it as BUSY ends). -/
  busyAlone : s.busy = true → s.err = false ∧ s.done = false
  /-- DONE and ERR are never pending together (R123). -/
  doneOrErr : ¬ (s.done = true ∧ s.err = true)
  /-- ERRCODE is 0 exactly while ERR = 0 (R116, R110, R111). -/
  errHasCode : s.err = true ↔ s.errCode ≠ .none
  /-- ERRINFO is 0 while ERR = 0 (R116, R110, R111). -/
  errHasInfo : s.err = false → s.errInfo = .zero
  /-- A pending word is a queued one (R108). -/
  queued : s.busy = true → s.pendingQueued
  /-- VREC_STATUS.VALID means what R37 and R48 say. -/
  vrec : s.vrecStatus.valid = true → s.vrecMatches
  /-- Results are finite (R114). -/
  finite : s.resultsFinite
  /-- While `rst` is asserted every register has its reset value (R132). -/
  inReset : s.rst = true → s.heldInReset

/-- No access is left and no command is pending: the run has ended (R142). -/
def quiescent (s : State) : Prop := s.inputs = [] ∧ s.busy = false

/-- The host's duty of R134 and R71 as a premise on what is still to come: no access while `rst` is asserted
(`level` is its level now), and the clock runs (R131). -/
def hostKeepsReset : (level : Bool) → List Input → Bool
  | _, [] => true
  | level, .read _ :: rest => !level && hostKeepsReset level rest
  | level, .write _ _ :: rest => !level && hostKeepsReset level rest
  | level, .engine :: rest => hostKeepsReset level rest
  | _, .rst asserted :: rest => hostKeepsReset asserted rest
  | _, .clkStop :: _ => false

/-- What R135 asks before a command on channel `k` can succeed, as far as it is a condition on the registers
(items 1, 2, 5, 6 and 7): a legal `N`, a finite non-zero XFMR_V, and finite configuration inputs. -/
def booted (s : State) (k : Channel) : Prop :=
  2 ≤ s.batch ∧ s.batch ≤ Config.sampleDepth ∧ s.adcRes ≠ 0 ∧ isFinite s.xfmrV = true ∧ isZero s.xfmrV = false ∧
    isFinite s.gridV = true ∧ isFinite s.boardRef = true ∧ isFinite s.acAcc = true ∧
    isFinite s.curAcc[k] = true ∧ isFinite s.phase[k] = true

/-- What the host may do between the acceptance of a queued command and its engine step without cancelling it:
every access but a CMD write of SRESET (R64 item 2, R107, R111). -/
def leavesPending : Input → Bool
  | .read _ => true
  | .write a v =>
    match decode v with
    | .ok .sreset => a != cmdOffset
    | _ => true
  | .engine => false
  | .rst _ => false
  | .clkStop => false

/-- The state a failing queued command leaves: ERR, ERRCODE and ERRINFO written, BUSY cleared, all else as
before its engine step (R116, R117). -/
def State.failed (s : State) (c : ErrCode) (info : ErrInfo) : State :=
  { s with busy := false, err := true, errCode := c, errInfo := info }

/-- Sample `i` of the reconstruction with `PHASE[k]`, as a relation between the samples `W[i-1]` and `W[i]`:
the code is legal, `W[0] = V[0]`, and later samples follow the recurrence with finite results (R84). -/
abbrev State.reconstructsAt (s : State) (k : Channel) (W : Nat → Word) (i : Nat) : Prop :=
  (s.vram i).toNat < s.adcRes.toNat ∧
    (i = 0 → W 0 = f64 (s.vram 0).toNat) ∧
    (0 < i →
      isFinite (fsub (f64 (s.vram i).toNat) (W (i - 1))) = true ∧
        isFinite (fmul s.phase[k] (fsub (f64 (s.vram i).toNat) (W (i - 1)))) = true ∧
          W i = fadd (W (i - 1)) (fmul s.phase[k] (fsub (f64 (s.vram i).toNat) (W (i - 1)))) ∧
            isFinite (W i) = true)

/-- `W` is channel `k`'s reconstruction of a batch whose codes are legal and whose results are all finite (R84). -/
abbrev State.reconstructible (s : State) (k : Channel) (W : Nat → Word) : Prop :=
  isFinite s.phase[k] = true ∧ ∀ i, i < s.batch → s.reconstructsAt k W i

/-- VREC is marked as channel `k`'s reconstruction at the current length (R101). -/
abbrev State.vrecTagged (s : State) (k : Channel) : Prop :=
  s.vrecStatus.valid = true ∧ s.vrecStatus.ch = channelNumber k ∧ s.vrecStatus.len = s.n

/-- A legal batch length (R90). -/
abbrev State.legalBatch (s : State) : Prop := 2 ≤ s.batch ∧ s.batch ≤ 4096

/-- The seven results of the scale formulas in the order written: `vref, t1, cs, q, ratio, t2, vs` (R91). -/
def State.scaleResults (s : State) (k : Channel) : List Word :=
  let vref := fdiv s.boardRef (f64 s.adcRes.toNat)
  let t1 := fmul vref 0x4059000000000000
  let q := fdiv s.gridV s.xfmrV
  let ratio := fmul q 0x4026000000000000
  let t2 := fmul vref ratio
  [vref, t1, fmul t1 s.curAcc[k], q, ratio, t2, fmul t2 s.acAcc]

/-- `cs`, the current scale (R91). -/
def State.currentScale (s : State) (k : Channel) : Word :=
  fmul (fmul (fdiv s.boardRef (f64 s.adcRes.toNat)) 0x4059000000000000) s.curAcc[k]

/-- `vs`, the voltage scale (R91). -/
def State.voltageScale (s : State) : Word :=
  fmul (fmul (fdiv s.boardRef (f64 s.adcRes.toNat)) (fmul (fdiv s.gridV s.xfmrV) 0x4026000000000000)) s.acAcc

/-- No check of R92 fails. -/
abbrev State.configLegal (s : State) (k : Channel) : Prop :=
  s.adcRes ≠ 0 ∧ [s.boardRef, s.gridV, s.xfmrV, s.acAcc, s.curAcc[k]].all isFinite = true ∧
    isZero s.xfmrV = false ∧ (s.scaleResults k).all isFinite = true

/-- The five accumulators before index `i` of the pass over the current codes of `k` and the voltages `W`: from
+0.0, over increasing indices, with no check (R93). -/
def State.sumsTo (s : State) (k : Channel) (W : Nat → Word) : Nat → Sums
  | 0 => ⟨0, 0, 0, 0, 0⟩
  | i + 1 =>
    let t := s.sumsTo k W i
    let a := f64 (s.iram k i).toNat
    let b := W i
    ⟨fadd t.si a, fadd t.sv b, fadd t.sp (fmul a b), fadd t.sii (fmul a a), fadd t.svv (fmul b b)⟩

/-- The eight results of the pass at index `i` (R93). -/
def State.passResults (s : State) (k : Channel) (W : Nat → Word) (i : Nat) : List Word :=
  let a := f64 (s.iram k i).toNat
  let b := W i
  let u := s.sumsTo k W (i + 1)
  [u.si, u.sv, fmul a b, u.sp, fmul a a, u.sii, fmul b b, u.svv]

/-- No check of the pass at index `i` fails: the code is legal and the eight results are finite (R93). -/
abbrev State.accumulatesAt (s : State) (k : Channel) (W : Nat → Word) (i : Nat) : Prop :=
  (s.iram k i).toNat < s.adcRes.toNat ∧ (s.passResults k W i).all isFinite = true

/-- One check of the final stage (R96, R97, R100). -/
inductive FinalCheck where
  /-- The result of an operation is finite, else E_NONFINITE. -/
  | finite (x : Word)
  /-- A radicand is not below 0.0, else E_DOMAIN with this SEQ. -/
  | radicand (seq : Seq) (x : Word)
deriving DecidableEq, Repr

/-- The check does not fail. -/
def FinalCheck.passes : FinalCheck → Bool
  | .finite x => isFinite x
  | .radicand _ x => !isNegative x

/-- The code of its error (R96, R97, R100). -/
def FinalCheck.code : FinalCheck → ErrCode
  | .finite _ => .nonFinite
  | .radicand _ _ => .domain

/-- ERRINFO.SEQ of its error (R96, R97, R100). -/
def FinalCheck.seq : FinalCheck → Seq
  | .finite _ => .none
  | .radicand q _ => q

/-- `radI` (R94, R96). -/
def State.radicandI (s : State) (k : Channel) (W : Nat → Word) : Word :=
  let t := s.sumsTo k W s.batch
  let mI := fdiv t.si (f64 s.batch)
  fsub (fdiv t.sii (f64 s.batch)) (fmul mI mI)

/-- `radV` (R94, R97). -/
def State.radicandV (s : State) (k : Channel) (W : Nat → Word) : Word :=
  let t := s.sumsTo k W s.batch
  let mV := fdiv t.sv (f64 s.batch)
  fsub (fdiv t.svv (f64 s.batch)) (fmul mV mV)

/-- The reading and the debug values that the formulas of R91 to R98 give for the current codes of `k` and the
voltages `W[0..N)`, each operation in the order written, with no check. -/
def State.readingOf (s : State) (k : Channel) (W : Nat → Word) : Reading × Debug :=
  let t := s.sumsTo k W s.batch
  let nf := f64 s.batch
  let core := fsub (fdiv t.sp nf) (fmul (fdiv t.si nf) (fdiv t.sv nf))
  let real := fmul (fmul core (s.currentScale k)) s.voltageScale
  let rmsI := fmul (fsqrt (s.radicandI k W)) (s.currentScale k)
  let rmsV := fmul (fsqrt (s.radicandV k W)) s.voltageScale
  let app := fmul rmsV rmsI
  (⟨real, rmsI, rmsV, if isZero app then 0 else fdiv real app⟩,
    ⟨BitVec.ofNat 3 (k.val + 1), t.si, t.sv, t.sp, t.sii, t.svv, core, app⟩)

/-- The checks of the final stage in the order in which they are made (R94 to R98, R100). The last is the one on
the power factor. -/
def State.finalChecks (s : State) (k : Channel) (W : Nat → Word) : List FinalCheck :=
  let t := s.sumsTo k W s.batch
  let nf := f64 s.batch
  let mI := fdiv t.si nf
  let mV := fdiv t.sv nf
  let r := s.readingOf k W
  [.finite mI, .finite mV, .finite (fdiv t.sp nf), .finite (fdiv t.sii nf), .finite (fdiv t.svv nf),
    .finite (fmul mI mV), .finite r.2.core, .finite (fmul r.2.core (s.currentScale k)), .finite r.1.realPower,
    .finite (fmul mI mI), .finite (s.radicandI k W), .radicand .current (s.radicandI k W),
    .finite (fsqrt (s.radicandI k W)), .finite r.1.rmsCurrent,
    .finite (fmul mV mV), .finite (s.radicandV k W), .radicand .voltage (s.radicandV k W),
    .finite (fsqrt (s.radicandV k W)), .finite r.1.rmsVoltage, .finite r.2.app, .finite r.1.powerFactor]

/-- No check of `Calc(k, W)` fails: those of R92, of R93 at every index, and of R94 to R98 and R100. -/
abbrev State.calculable (s : State) (k : Channel) (W : Nat → Word) : Prop :=
  s.configLegal k ∧ (∀ i, i < s.batch → s.accumulatesAt k W i) ∧ ∀ c ∈ s.finalChecks k W, c.passes = true

/-- The rows of R115 for an error that `Reconstruct` raises in a command with opcode `op` on the channel number `k`
of a batch of `n` samples. -/
def reconstructRow (n : Nat) (k : BitVec 3) (op : BitVec 8) (c : ErrCode) (e : ErrInfo) : Prop :=
  (c = .config ∧ e = ⟨0, k, .reconstruction, .none, op⟩) ∨
    ((c = .code ∨ c = .nonFinite) ∧ e.index.toNat < n ∧ e = ⟨e.index, k, .reconstruction, .voltage, op⟩)

/-- The rows of R115 for an error that `Calc` raises: `ScaleFactors`, `Pass`, then the final stage. -/
def calculateRow (n : Nat) (k : BitVec 3) (op : BitVec 8) (c : ErrCode) (e : ErrInfo) : Prop :=
  (c = .config ∧ e = ⟨0, k, .scaleFactors, .none, op⟩) ∨
    (c = .code ∧ e.index.toNat < n ∧ e = ⟨e.index, k, .pass, .current, op⟩) ∨
    (c = .nonFinite ∧ e.index.toNat < n ∧ e = ⟨e.index, k, .pass, .none, op⟩) ∨
    (c = .nonFinite ∧ e = ⟨0, k, .final, .none, op⟩) ∨
    (c = .domain ∧ (e = ⟨0, k, .final, .current, op⟩ ∨ e = ⟨0, k, .final, .voltage, op⟩))

/-- Overflow in units of 2^-1074: from here on, the largest finite value plus half a unit in its last place, a
result is an infinity (R10, IEEE 754-2008). -/
def overflowBound : ℕ := (2 ^ 54 - 1) * 2 ^ 2044

/-- `r` is the binary64 value nearest to the exact result of `v` units of 2^-1074, ties to even, an infinity of
the sign of `v` past the overflow bound (R10). -/
def roundsTo (v : ℝ) (r : Word) : Prop :=
  (|v| < overflowBound →
    isFinite r = true ∧
      ∀ z : Word, isFinite z = true →
        |(fVal r : ℝ) - v| ≤ |(fVal z : ℝ) - v| ∧
          (|(fVal r : ℝ) - v| = |(fVal z : ℝ) - v| → fVal z ≠ fVal r → r.getLsbD 0 = false)) ∧
    (overflowBound ≤ |v| → r = infinity (decide (v < 0)))

end Sys2Proof.Machine
end

