-- ==== Sys2Proof/Certificates/Slice0/Obligations.lean ====
section
/-! DEFINITION. Obligations.lean: the statements for the provers. Each docstring names the rule of spec/ it
formalises. In all of them the spec's channel `k` is `k.val + 1` for a `k : Channel`. -/

open Sys2Proof Sys2Proof.Machine

/-! ## Encoding -/

/-- R75, R76, R78, R81: words written out from the encoding table decode to the commands they stand for. -/
def Obligations.SampleWordsDecode : Prop :=
  decode 0x0000000000000000 = .ok .nop ∧
    decode 0x0000000000000101 = .ok (.recon 1) ∧
    decode 0x0000000000000701 = .ok (.recon 7) ∧
    decode 0x0000000000000602 = .ok (.calculate 6) ∧
    decode 0x0000000000030003 = .ok (.measure 0b000011) ∧
    decode 0x00000000003F0003 = .ok (.measure 0b111111) ∧
    decode 0x000000000000000E = .ok .clear ∧
    decode 0x000000000000000F = .ok .sreset ∧
    decode 0x0000000000000801 = .error .reservedBits ∧
    decode 0x0000000000400002 = .error .reservedBits ∧
    decode 0x0000000000000004 = .error .reservedOpcode ∧
    decode 0x0000000000010001 = .error .strayMask ∧
    decode 0x0000000000000103 = .error .strayChannel ∧
    decode 0x0000000000000100 = .error .strayOperand

/-- R73, R75, R81: no bit of a well-formed command is lost between its word and its decoding. -/
def Obligations.DecodeOfEncode : Prop :=
  ∀ i : Instr, i.wf = true → decode (encode i) = .ok i

/-- R75: every command has exactly one word ("NOP, CLEAR and SRESET each have exactly one encoding"): a word
that decodes to `i` is the word `encode i`, and `i` is well-formed. -/
def Obligations.EncodeOfDecode : Prop :=
  ∀ (w : Word) (i : Instr), decode w = .ok i → encode i = w ∧ i.wf = true

/-- R78: the illegal words are exactly the five kinds the rule lists, in terms of the word's bits. -/
def Obligations.IllegalWordsAreTheListedOnes : Prop :=
  ∀ w : Word,
    (∃ r, decode w = .error r) ↔
      (w.extractLsb' 11 5 ≠ 0 ∨ w.extractLsb' 22 42 ≠ 0) ∨
      (w.extractLsb' 0 8 ∉ [(0x00 : BitVec 8), 0x01, 0x02, 0x03, 0x0E, 0x0F]) ∨
      (w.extractLsb' 0 8 ∈ [(0x00 : BitVec 8), 0x0E, 0x0F] ∧
        (w.extractLsb' 8 3 ≠ 0 ∨ w.extractLsb' 16 6 ≠ 0)) ∨
      (w.extractLsb' 0 8 ∈ [(0x01 : BitVec 8), 0x02] ∧ w.extractLsb' 16 6 ≠ 0) ∨
      (w.extractLsb' 0 8 = 0x03 ∧ w.extractLsb' 8 3 ≠ 0)

/-- R81: the word of each line of command syntax, which decodes to the command written; the assembler refuses a
channel outside 1..6, an empty MEASURE list and a repeated channel. -/
def Obligations.AssembledCommandsDecode : Prop :=
  (assemble .nop = some 0x0 ∧ assemble .clear = some 0xE ∧ assemble .sreset = some 0xF ∧
      ∀ v, assemble (.word v) = some v) ∧
    (∀ k w, assemble (.recon k) = some w ↔ (1 ≤ k ∧ k ≤ 6 ∧ w = 0x1#64 ||| (BitVec.ofNat 64 k <<< 8))) ∧
    (∀ k w, assemble (.recon k) = some w → decode w = .ok (.recon k)) ∧
    (∀ k w, assemble (.calculate k) = some w ↔ (1 ≤ k ∧ k ≤ 6 ∧ w = 0x2#64 ||| (BitVec.ofNat 64 k <<< 8))) ∧
    (∀ k w, assemble (.calculate k) = some w → decode w = .ok (.calculate k)) ∧
    (∀ ks, (∃ w, assemble (.measure ks) = some w) ↔ (ks ≠ [] ∧ (∀ k ∈ ks, 1 ≤ k ∧ k ≤ 6) ∧ ks.Nodup)) ∧
    (∀ ks w, assemble (.measure ks) = some w →
      ∃ m : BitVec 6, w = 0x3#64 ||| (m.setWidth 64 <<< 16) ∧ decode w = .ok (.measure m) ∧
        ∀ k : Channel, m.getLsbD k.val = true ↔ k.val + 1 ∈ ks)

/-! ## Steps of the whole block -/

/-- R108: the engine's step runs the command word in PENDING. The list `inputs`, and that the engine steps once it
is empty, are the model's (log 1, log 2): a step of a state with BUSY = 1 whose word decodes
to a queued command `i` is `exec i`, the input `engine` having been taken off where it is there. -/
def Obligations.StepRunsThePendingCommand : Prop :=
  ∀ (s : State) (i : Instr) (rest : List Input),
    s.busy = true → decode s.pending = .ok i → i.immediate = false →
      (s.inputs = [] → step s = exec i s) ∧
        (s.inputs = .engine :: rest → step s = exec i { s with inputs := rest })

/-- R107: a CMD write of an immediate command runs it within the access, which answers OKAY. -/
def Obligations.StepRunsTheImmediateCommand : Prop :=
  ∀ (s : State) (w : Word) (i : Instr) (rest : List Input),
    s.rst = false → s.inputs = .write 0x020 w :: rest → decode w = .ok i → i.immediate = true →
      step s = exec i { s with inputs := rest, bus := some (.write false) }

/-- R107, in the order of its pseudocode, for every word and every state. -/
def Obligations.CmdWriteFollowsIssue : Prop :=
  ∀ (s t : State) (w : Word) (rest : List Input),
    s.rst = false → s.inputs = .write 0x020 w :: rest →
      t = { s with inputs := rest, bus := some (.write false) } →
        if decode w = .ok .sreset then step s = .next (softReset t)
        else if s.busy = true then step s = .next { t with drop := true }
        else if s.err = true ∧ decode w ≠ .ok .nop ∧ decode w ≠ .ok .clear then
          step s = .next { t with drop := true }
        else if decode w = .ok .nop then step s = .next t
        else if decode w = .ok .clear then
          step s = .next { t with err := false, done := false, drop := false, errCode := .none,
                                  errInfo := ⟨0, 0, .validation, .none, 0⟩ }
        else step s = .next { t with pending := w, busy := true, done := false }

/-- R78, R115: an illegal word that was queued fails with E_BADCMD, its low byte in ERRINFO.OPCODE, and changes
nothing else. -/
def Obligations.IllegalPendingWordIsBadCommand : Prop :=
  ∀ (s : State) (r : Illegal),
    s.busy = true → s.inputs = [] → decode s.pending = .error r →
      step s = .next (s.failed .badCmd ⟨0, 0, .validation, .none, s.pending.extractLsb' 0 8⟩)

/-- R108: every engine step completes and clears BUSY, whatever word is pending, and either commits (DONE = 1)
or records an error (ERR = 1) where the word is a queued one. Three clauses are the model's: PENDING keeps its value
(log 6), a pending NOP, CLEAR or SRESET, which no run has, completes too (log 15), and the engine steps once `inputs`
is empty (log 2). -/
def Obligations.EngineStepClearsBusy : Prop :=
  ∀ s : State, s.busy = true → s.inputs = [] →
    ∃ t, step s = .next t ∧ t.busy = false ∧ t.inputs = [] ∧ t.pending = s.pending ∧
      (s.pendingQueued → t.done = true ∨ t.err = true)

/-- R140, R142: every finite schedule of accesses, engine turns and resets in which the host makes no access
during reset runs without a fault to a quiescent state. That the engine's step happens once the accesses are used
up is the model's way to say weak fairness (log 2). -/
def Obligations.EveryRunBecomesQuiescent : Prop :=
  ∀ s : State, hostKeepsReset s.rst s.inputs = true →
    ∃ t, Host.Core.run Sys2Proof.core (s.inputs.length + 1) s = .next t ∧ quiescent t

/-- R60, R64 item 2, R107, R139: while BUSY = 1 an access that is no SRESET changes nothing but DROP and what
the bus answers; a read never sets DROP, and a write that answers OKAY always does. -/
def Obligations.BusyAccessOnlyDrops : Prop :=
  ∀ (s : State) (e : Input) (rest : List Input),
    s.busy = true → s.rst = false → s.inputs = e :: rest → leavesPending e = true →
      ∃ t, step s = .next t ∧
        t = { s with inputs := rest, drop := t.drop, bus := t.bus, draws := t.draws } ∧
          match e with
          | .read _ => t.drop = s.drop
          | _ => (t.bus = some (.write false) ∧ t.drop = true) ∨ (t.bus = some (.write true) ∧ t.drop = s.drop)

/-- R140 ("No value of a committed result depends on `T_CMD`"): however many accesses fall between the
acceptance of a command and its engine step, the step leaves what it would have left at once, but for DROP,
the answer on the bus and the count of free read-data words. "At once" is the step on the empty list, where the
engine takes its turn by the model's choice (log 2). -/
def Obligations.CommitDoesNotDependOnTheDelay : Prop :=
  ∀ (s : State) (between : List Input),
    s.busy = true → s.rst = false → (∀ e ∈ between, leavesPending e = true) →
      ∃ t u, Host.Core.run Sys2Proof.core (between.length + 1) { s with inputs := between ++ [.engine] } = .next t ∧
        step { s with inputs := [] } = .next u ∧
          t = { u with drop := t.drop, bus := t.bus, draws := t.draws }

/-- R23: the events that set and clear the bits of STATUS are only the listed ones. A dropped write is one that
answers OKAY while BUSY = 1, SRESET apart, or while ERR = 1 a write of CMD with another word than NOP, CLEAR and
SRESET (R60, R107). -/
def Obligations.StatusBitsChangeOnlyAsListed : Prop :=
  ∀ s t : State, step s = .next t →
    let engine := s.busy = true ∧ (s.inputs.head? = none ∨ s.inputs.head? = some .engine)
    let command (p : Word → Prop) := ∃ w, s.inputs.head? = some (.write 0x020 w) ∧ p w
    let accepted := command fun w => s.busy = false ∧ s.err = false ∧ t.pending = w ∧
      decode w ≠ .ok .nop ∧ decode w ≠ .ok .clear ∧ decode w ≠ .ok .sreset
    let cleared := command fun w => s.busy = false ∧ decode w = .ok .clear
    let soft := command fun w => decode w = .ok .sreset
    let hard := ∃ b, s.inputs.head? = some (.rst b)
    let dropped := ∃ a v, s.inputs.head? = some (.write a v) ∧ t.bus = some (.write false) ∧
      (a = 0x020 → decode v ≠ .ok .sreset) ∧
        (s.busy = true ∨ (a = 0x020 ∧ s.err = true ∧ decode v ≠ .ok .nop ∧ decode v ≠ .ok .clear))
    (s.busy = false → t.busy = true → accepted) ∧
      (s.busy = true → t.busy = false → engine ∨ soft ∨ hard) ∧
      (s.done = false → t.done = true → engine) ∧
      (s.done = true → t.done = false → accepted ∨ cleared ∨ soft ∨ hard) ∧
      (s.err = false → t.err = true → engine) ∧
      (s.err = true → t.err = false → cleared ∨ soft ∨ hard) ∧
      (s.drop = false → t.drop = true → dropped) ∧
      (s.drop = true → t.drop = false → cleared ∨ soft ∨ hard)

/-- R120: while ERR = 1 every CMD write other than NOP, CLEAR and SRESET is dropped and sets DROP, and ERRCODE and
ERRINFO go on describing the first error until ERR is cleared. -/
def Obligations.FirstErrorIsKept : Prop :=
  ∀ s t : State, s.Inv → s.err = true → step s = .next t →
    (t.err = true → t.errCode = s.errCode ∧ t.errInfo = s.errInfo) ∧
      (∀ w rest, s.inputs = .write 0x020 w :: rest → decode w ≠ .ok .nop → decode w ≠ .ok .clear →
        decode w ≠ .ok .sreset → t = { s with inputs := rest, bus := some (.write false), drop := true })

/-- R45: the value of PENDING is never read while BUSY = 0. -/
def Obligations.IdlePendingIsNeverRead : Prop :=
  ∀ (s : State) (p : Word), s.busy = false →
    match step s with
    | .next t =>
      step { s with pending := p } = .next t ∨ step { s with pending := p } = .next { t with pending := p }
    | .fault f => step { s with pending := p } = .fault f
    | .refused r => step { s with pending := p } = .refused r

/-- R38 ("WRPC never writes PHASE"), R42, R43, R70, R116: the configuration and the samples change only by a
host write or a hardware reset; no command and no engine step changes them. -/
def Obligations.OnlyTheHostWritesConfiguration : Prop :=
  ∀ s t : State, step s = .next t →
    (∀ a v, s.inputs.head? = some (.write a v) → target a = some (.reg .cmd)) →
      (∀ b, s.inputs.head? ≠ some (.rst b)) →
        t.ieDone = s.ieDone ∧ t.ieErr = s.ieErr ∧ t.n = s.n ∧ t.adcRes = s.adcRes ∧ t.boardRef = s.boardRef ∧
          t.gridV = s.gridV ∧ t.xfmrV = s.xfmrV ∧ t.acAcc = s.acAcc ∧ t.batchTs = s.batchTs ∧
          t.phase = s.phase ∧ t.curAcc = s.curAcc ∧
          ∀ a : Nat, 0x10000 ≤ a → a < 0x1E000 → t.byteAt a = s.byteAt a

/-! ## Immediate commands -/

/-- R109: NOP, whose one word is the all-zero word, changes nothing when BUSY = 0, with ERR set or not; while BUSY
= 1 it is dropped. -/
def Obligations.NopChangesNothing : Prop :=
  (∀ w : Word, decode w = .ok .nop ↔ w = 0x0000000000000000) ∧ ∀ s : State,
    (s.busy = false → exec .nop s = .next s) ∧ (s.busy = true → exec .nop s = .next { s with drop := true })

/-- R110: CLEAR clears ERR, DONE, DROP, ERRCODE and ERRINFO and nothing else; while BUSY = 1 it is dropped. -/
def Obligations.ClearReturnsFromTheError : Prop :=
  (∀ w : Word, decode w = .ok .clear ↔ w = 0x000000000000000E) ∧ ∀ s : State,
    (s.busy = true → exec .clear s = .next { s with drop := true }) ∧
    (s.busy = false → ∃ t, exec .clear s = .next t ∧
      t.err = false ∧ t.done = false ∧ t.drop = false ∧ t.errCode = .none ∧ t.errInfo.word = 0 ∧
      (∀ a, t.byteAt a = s.byteAt a) ∧
      t = { s with err := false, done := false, drop := false, errCode := .none, errInfo := t.errInfo })

/-- R111, R50: SRESET acts in every state; it clears status, errors, results, DBG and VREC_STATUS, and keeps
CTRL, N, ADC_RES, the configuration, the coefficients and every byte of VRAM, IRAM and VREC. That it keeps PENDING,
which R50 and R111 leave open, is the model's choice (log 6). -/
def Obligations.SresetClearsResultsAndKeepsConfiguration : Prop :=
  (∀ w : Word, decode w = .ok .sreset ↔ w = 0x000000000000000F) ∧ ∀ s : State, ∃ t, exec .sreset s = .next t ∧
    t.busy = false ∧ t.done = false ∧ t.err = false ∧ t.drop = false ∧ t.errCode = .none ∧ t.errInfo.word = 0 ∧
    t.resTs = 0 ∧ t.resValid = 0 ∧ t.repVrms = 0 ∧ t.vrecStatus.word = 0 ∧
    (∀ (k : Channel) (f : ResultField), t.results[k].get f = 0) ∧ (∀ f : DebugField, t.dbg.get f = 0) ∧
    (∀ a, t.byteAt a = s.byteAt a) ∧
    t = { s with busy := false, done := false, err := false, drop := false, errCode := .none,
                 errInfo := t.errInfo, resTs := 0, resValid := 0, repVrms := 0, vrecStatus := t.vrecStatus,
                 results := t.results, dbg := t.dbg }

/-! ## Checks and errors of the queued commands -/

/-- R114, R115, R118 (E_BADCHAN, then E_LEN, before anything else): a channel outside 1..6 or an empty mask, then
an illegal batch length. -/
def Obligations.BadOperandsFailFirst : Prop :=
  ∀ s : State,
    (∀ ch, ch = 0 ∨ ch = 7 →
      exec (.recon ch) s = .next (s.failed .badChan ⟨0, BitVec.ofNat 3 ch, .validation, .none, 0x01⟩) ∧
        exec (.calculate ch) s = .next (s.failed .badChan ⟨0, BitVec.ofNat 3 ch, .validation, .none, 0x02⟩)) ∧
      exec (.measure 0) s = .next (s.failed .badChan ⟨0, 0, .validation, .none, 0x03⟩) ∧
      (¬ s.legalBatch →
        (∀ ch, 1 ≤ ch → ch ≤ 6 →
          exec (.recon ch) s = .next (s.failed .len ⟨0, 0, .validation, .none, 0x01⟩) ∧
            exec (.calculate ch) s = .next (s.failed .len ⟨0, 0, .validation, .none, 0x02⟩)) ∧
          ∀ m : BitVec 6, m ≠ 0 →
            exec (.measure m) s = .next (s.failed .len ⟨0, 0, .validation, .none, 0x03⟩))

/-- R84, R88, R118: a zero ADC_RES or a PHASE[k] that is not finite makes RECON k fail with E_CONFIG, STAGE 1. -/
def Obligations.ReconRejectsBadConfiguration : Prop :=
  ∀ (s : State) (k : Channel), s.legalBatch → s.adcRes = 0 ∨ isFinite s.phase[k] = false →
    exec (.recon (k.val + 1)) s =
      .next (s.failed .config ⟨0, channelNumber k, .reconstruction, .none, 0x01⟩)

/-- R84, R88, R115, R118: RECON k reports the first failing index `j`: E_CODE where the code there is not below
ADC_RES, else E_NONFINITE where one of the three results there is not finite. -/
def Obligations.ReconReportsTheFirstBadSample : Prop :=
  ∀ (s : State) (k : Channel) (W : Nat → Word) (j : Nat),
    s.legalBatch → s.adcRes ≠ 0 → isFinite s.phase[k] = true → j < s.batch →
      (∀ i, i < j → s.reconstructsAt k W i) →
        (s.adcRes.toNat ≤ (s.vram j).toNat →
          exec (.recon (k.val + 1)) s =
            .next (s.failed .code ⟨BitVec.ofNat 16 j, channelNumber k, .reconstruction, .voltage, 0x01⟩)) ∧
          ((s.vram j).toNat < s.adcRes.toNat → 0 < j →
            (let d := fsub (f64 (s.vram j).toNat) (W (j - 1))
             let m := fmul s.phase[k] d
             isFinite d = false ∨ isFinite m = false ∨ isFinite (fadd (W (j - 1)) m) = false) →
            exec (.recon (k.val + 1)) s =
              .next (s.failed .nonFinite ⟨BitVec.ofNat 16 j, channelNumber k, .reconstruction, .voltage, 0x01⟩))

/-- R101, R118: CALC k on a VREC that is not channel `k`'s current reconstruction at length `N` fails with
E_MISMATCH. -/
def Obligations.CalcRejectsAnUnmatchedReconstruction : Prop :=
  ∀ (s : State) (k : Channel), s.legalBatch → ¬ s.vrecTagged k →
    exec (.calculate (k.val + 1)) s = .next (s.failed .mismatch ⟨0, channelNumber k, .validation, .voltage, 0x02⟩)

/-- R92, R101: a zero ADC_RES, a configuration input that is not finite, a zero XFMR_V or a scale factor that is
not finite makes CALC k fail with E_CONFIG, STAGE 2. -/
def Obligations.CalcRejectsBadConfiguration : Prop :=
  ∀ (s : State) (k : Channel), s.legalBatch → s.vrecTagged k →
    (s.adcRes = 0 ∨ isFinite s.boardRef = false ∨ isFinite s.gridV = false ∨ isFinite s.xfmrV = false ∨
      isFinite s.acAcc = false ∨ isFinite s.curAcc[k] = false ∨ isZero s.xfmrV = true ∨
      (let vref := fdiv s.boardRef (f64 s.adcRes.toNat)
       let t1 := fmul vref 0x4059000000000000
       let q := fdiv s.gridV s.xfmrV
       let ratio := fmul q 0x4026000000000000
       let t2 := fmul vref ratio
       ∃ x ∈ [vref, t1, fmul t1 s.curAcc[k], q, ratio, t2, fmul t2 s.acAcc], isFinite x = false)) →
      exec (.calculate (k.val + 1)) s =
        .next (s.failed .config ⟨0, channelNumber k, .scaleFactors, .none, 0x02⟩)

/-- R8, R93, R118: a current code at or above ADC_RES in `[0, N)` makes CALC k fail: with E_CODE at the first such
index, unless an accumulation before that index was not finite. -/
def Obligations.BadCurrentCodeFailsCalc : Prop :=
  ∀ (s : State) (k : Channel) (sf : Word × Word) (j : Nat),
    s.legalBatch → s.vrecTagged k → s.scaleFactors k = .ok sf → j < s.batch →
      s.adcRes.toNat ≤ (s.iram k j).toNat → (∀ i, i < j → (s.iram k i).toNat < s.adcRes.toNat) →
        exec (.calculate (k.val + 1)) s =
            .next (s.failed .code ⟨BitVec.ofNat 16 j, channelNumber k, .pass, .current, 0x02⟩) ∨
          ∃ i, i < j ∧ exec (.calculate (k.val + 1)) s =
            .next (s.failed .nonFinite ⟨BitVec.ofNat 16 i, channelNumber k, .pass, .none, 0x02⟩)

/-- R102, R118: MEASURE reports the error of the first selected channel that fails, and commits nothing: it leaves
the very state that MEASURE of that channel alone leaves. -/
def Obligations.MeasureReportsTheFirstFailingChannel : Prop :=
  (∀ (s : State) (mask : BitVec 6) (k : Channel) (e : CmdError),
    s.legalBatch → mask.getLsbD k.val = true → s.measureChannel k = .error e →
      (∀ j : Channel, j < k → mask.getLsbD j.val = true → ∃ r, s.measureChannel j = .ok r) →
        exec (.measure mask) s =
          .next (s.failed e.code ⟨BitVec.ofNat 16 e.index, e.channel, e.stage, e.seq, 0x03⟩)) ∧
    ∀ (s v : State) (mask : BitVec 6) (k : Channel),
      s.err = false → mask.getLsbD k.val = true → exec (.measure (1#6 <<< k.val)) s = .next v → v.err = true →
        (∀ j : Channel, j < k → mask.getLsbD j.val = true →
          ∃ u, exec (.measure (1#6 <<< j.val)) s = .next u ∧ u.err = false) →
          exec (.measure mask) s = .next v

/-- R117: "The state after a failed command equals the state before its engine step, except for STATUS.ERR,
STATUS.BUSY, ERRCODE and ERRINFO", of every queued command and of every pending word; and a command that does not
fail has committed. -/
def Obligations.CommandErrorsArePrecise : Prop :=
  (∀ (s : State) (i : Instr), i.immediate = false → s.err = false →
    ∃ t, exec i s = .next t ∧
      (t.err = true → t = s.failed t.errCode t.errInfo) ∧
        (t.err = false → t.done = true ∧ t.errCode = s.errCode ∧ t.errInfo = s.errInfo)) ∧
    ∀ s : State, s.busy = true → s.err = false → s.inputs = [] →
      ∃ t, step s = .next t ∧ (t.err = true → t = s.failed t.errCode t.errInfo)

/-- R114, R115: the code and the record that each failed command leaves: OPCODE is the command's, CHANNEL its operand,
or for MEASURE a channel its mask selects, and STAGE, SEQ and INDEX are those of a row that the command can
reach. -/
def Obligations.ErrorRecordFollowsTheTable : Prop :=
  ∀ (s t : State) (i : Instr), i.immediate = false → i.wf = true → s.err = false → exec i s = .next t →
    t.err = true →
      t.errInfo.opcode = i.opcode ∧
        ((t.errCode = .len ∧ ¬ s.legalBatch ∧ t.errInfo = ⟨0, 0, .validation, .none, i.opcode⟩) ∨
          match i with
          | .recon ch =>
            (t.errCode = .badChan ∧ (ch = 0 ∨ ch = 7) ∧
                t.errInfo = ⟨0, BitVec.ofNat 3 ch, .validation, .none, 0x01⟩) ∨
              (1 ≤ ch ∧ ch ≤ 6 ∧ reconstructRow s.batch (BitVec.ofNat 3 ch) 0x01 t.errCode t.errInfo)
          | .calculate ch =>
            (t.errCode = .badChan ∧ (ch = 0 ∨ ch = 7) ∧
                t.errInfo = ⟨0, BitVec.ofNat 3 ch, .validation, .none, 0x02⟩) ∨
              (1 ≤ ch ∧ ch ≤ 6 ∧
                ((t.errCode = .mismatch ∧ t.errInfo = ⟨0, BitVec.ofNat 3 ch, .validation, .voltage, 0x02⟩) ∨
                  calculateRow s.batch (BitVec.ofNat 3 ch) 0x02 t.errCode t.errInfo))
          | .measure m =>
            (t.errCode = .badChan ∧ m = 0 ∧ t.errInfo = ⟨0, 0, .validation, .none, 0x03⟩) ∨
              ∃ k : Channel, m.getLsbD k.val = true ∧
                (reconstructRow s.batch (BitVec.ofNat 3 (k.val + 1)) 0x03 t.errCode t.errInfo ∨
                  calculateRow s.batch (BitVec.ofNat 3 (k.val + 1)) 0x03 t.errCode t.errInfo)
          | .nop => False
          | .clear => False
          | .sreset => False)

/-! ## RECON -/

/-- R84, R88: for every batch whose samples follow the recurrence with legal codes and finite results, RECON k
completes: VREC[0..N) holds `W`, VREC_STATUS is (N, k, VALID), DONE is set, BUSY is cleared, and every other
register and every byte outside VREC[0..N) is unchanged. -/
def Obligations.ReconCommitsTheRecurrence : Prop :=
  ∀ (s : State) (k : Channel) (W : Nat → Word),
    s.legalBatch → isFinite s.phase[k] = true → (∀ i, i < s.batch → s.reconstructsAt k W i) →
      ∃ t, exec (.recon (k.val + 1)) s = .next t ∧
        (∀ i, i < s.batch → t.vrec i = W i) ∧
        t.vrecStatus = ⟨s.n, BitVec.ofNat 3 (k.val + 1), true⟩ ∧ t.done = true ∧ t.busy = false ∧
        (∀ a, ¬ (0x20000 ≤ a ∧ a < 0x20000 + 8 * s.batch) → t.byteAt a = s.byteAt a) ∧
        t = { s with mem := t.mem, vrecStatus := t.vrecStatus, done := true, busy := false }

/-- R85: with PHASE[k] = 1.0 and legal codes, RECON k completes and VREC[0..N) is the input sequence, bit for
bit. -/
def Obligations.UnitCoefficientIsTheIdentity : Prop :=
  ∀ (s : State) (k : Channel),
    s.legalBatch → s.phase[k] = 0x3FF0000000000000 →
      (∀ i, i < s.batch → (s.vram i).toNat < s.adcRes.toNat) →
        ∃ t, exec (.recon (k.val + 1)) s = .next t ∧ t.done = true ∧ t.err = s.err ∧
          ∀ i, i < s.batch → t.vrec i = f64 (s.vram i).toNat

/-- R88, corner case: with PHASE[k] = +0.0 or -0.0 and legal codes, RECON k completes and every VREC entry is
`f64(VRAM[0])`. -/
def Obligations.ZeroCoefficientHoldsTheFirstSample : Prop :=
  ∀ (s : State) (k : Channel),
    s.legalBatch → isZero s.phase[k] = true →
      (∀ i, i < s.batch → (s.vram i).toNat < s.adcRes.toNat) →
        ∃ t, exec (.recon (k.val + 1)) s = .next t ∧ t.done = true ∧ t.err = s.err ∧
          ∀ i, i < s.batch → t.vrec i = f64 (s.vram 0).toNat

/-! ## CALC and MEASURE -/

/-- R91 to R98, R100, R101: CALC k on a matched VREC in which no check fails, those of R92, of R93 at every index and
of the final stage, completes: RESULT[k] holds the reading of the formulas, the bit of channel `k` in RES_VALID is
set and the others are kept, DBG and RES_TS are written, and every other register and every byte of memory is
unchanged. -/
def Obligations.CalcCommitsTheReading : Prop :=
  ∀ (s : State) (k : Channel) (r : Reading) (d : Debug),
    s.legalBatch → s.vrecTagged k → s.calculable k s.vrec → s.readingOf k s.vrec = (r, d) →
      ∃ t, exec (.calculate (k.val + 1)) s = .next t ∧
        (∀ j : Channel, t.results[j] = if j = k then r else s.results[j]) ∧
        (∀ j : Channel, t.resValid.getLsbD j.val = (s.resValid.getLsbD j.val || decide (j = k))) ∧
        t.dbg = d ∧ d.ch = BitVec.ofNat 3 (k.val + 1) ∧ t.resTs = s.batchTs ∧ t.done = true ∧ t.busy = false ∧
        (∀ a, t.byteAt a = s.byteAt a) ∧
        t = { s with results := t.results, resValid := t.resValid, dbg := d, resTs := s.batchTs, done := true,
                     busy := false }

/-- R92, R93, R96, R97, R100, R118: the error of CALC k on a matched VREC with a legal configuration. At the first
index of the pass at which a check fails it is E_CODE where the code is not below ADC_RES, else E_NONFINITE where one
of the eight results is not finite, STAGE 3. When every index passes, the first check of the final stage that fails
gives E_NONFINITE or, for a radicand, E_DOMAIN with its SEQ, STAGE 4. -/
def Obligations.CalcReportsTheFirstFailure : Prop :=
  ∀ (s : State) (k : Channel), s.legalBatch → s.vrecTagged k → s.configLegal k →
    (∀ j, j < s.batch → (∀ i, i < j → s.accumulatesAt k s.vrec i) →
      (s.adcRes.toNat ≤ (s.iram k j).toNat →
        exec (.calculate (k.val + 1)) s =
          .next (s.failed .code ⟨BitVec.ofNat 16 j, channelNumber k, .pass, .current, 0x02⟩)) ∧
        ((s.iram k j).toNat < s.adcRes.toNat → (s.passResults k s.vrec j).all isFinite = false →
          exec (.calculate (k.val + 1)) s =
            .next (s.failed .nonFinite ⟨BitVec.ofNat 16 j, channelNumber k, .pass, .none, 0x02⟩))) ∧
      ((∀ i, i < s.batch → s.accumulatesAt k s.vrec i) →
        ∀ (before after : List FinalCheck) (c : FinalCheck),
          s.finalChecks k s.vrec = before ++ c :: after → (∀ x ∈ before, x.passes = true) → c.passes = false →
            exec (.calculate (k.val + 1)) s =
              .next (s.failed c.code ⟨0, channelNumber k, .final, c.seq, 0x02⟩))

/-- R91 to R98, R100: the calculation answers a reading exactly when none of its checks fails, and the reading is
that of the formulas, each operation in the order written; the sums run over increasing `i` from +0.0. -/
def Obligations.ReadingFollowsTheFormulas : Prop :=
  (∀ (s : State) (k : Channel) (W : Nat → Word) (r : Reading) (d : Debug),
    s.calculate k ((List.range s.batch).map W) = .ok (r, d) ↔ s.calculable k W ∧ s.readingOf k W = (r, d)) ∧
  ∀ (s : State) (k : Channel) (ws : List Word) (r : Reading) (d : Debug),
      ws.length = s.batch → s.calculate k ws = .ok (r, d) →
        let vref := fdiv s.boardRef (f64 s.adcRes.toNat)
        let cs := fmul (fmul vref 0x4059000000000000) s.curAcc[k]
        let vs := fmul (fmul vref (fmul (fdiv s.gridV s.xfmrV) 0x4026000000000000)) s.acAcc
        let codes := (s.iramSeq k).map fun x => f64 x.toNat
        let nf := f64 s.batch
        let mI := fdiv d.si nf
        let mV := fdiv d.sv nf
        d.si = codes.foldl fadd 0 ∧ d.sv = ws.foldl fadd 0 ∧
          d.sp = (List.zipWith fmul codes ws).foldl fadd 0 ∧
          d.sii = (codes.map fun a => fmul a a).foldl fadd 0 ∧
          d.svv = (ws.map fun b => fmul b b).foldl fadd 0 ∧
          d.core = fsub (fdiv d.sp nf) (fmul mI mV) ∧
          r.realPower = fmul (fmul d.core cs) vs ∧
          r.rmsCurrent = fmul (fsqrt (fsub (fdiv d.sii nf) (fmul mI mI))) cs ∧
          r.rmsVoltage = fmul (fsqrt (fsub (fdiv d.svv nf) (fmul mV mV))) vs ∧
          d.app = fmul r.rmsVoltage r.rmsCurrent ∧
          r.powerFactor = if isZero d.app then 0 else fdiv r.realPower d.app

/-- R98, R101, R122 ("constant (flat) current and voltage sequences yield `apparent_power = 0` and
`power_factor = 0`, never a division fault"): CALC k on flat sequences completes with power factor +0.0. With one
flat sequence alone ("Flat current, or flat voltage", R101) it does so too when no check before the one on the power
factor fails. -/
def Obligations.FlatSignalsGiveZeroPowerFactor : Prop :=
  (∀ (s : State) (k : Channel) (a b : Code) (sf : Word × Word),
    s.legalBatch → s.vrecTagged k → s.scaleFactors k = .ok sf → a.toNat < s.adcRes.toNat →
      (∀ i, i < s.batch → s.iram k i = a) → (∀ i, i < s.batch → s.vrec i = f64 b.toNat) →
        ∃ t, exec (.calculate (k.val + 1)) s = .next t ∧ t.done = true ∧ t.err = s.err ∧
          t.results[k].powerFactor = 0 ∧ isZero t.results[k].rmsCurrent = true ∧
          isZero t.results[k].rmsVoltage = true ∧ isZero t.dbg.app = true ∧ t.dbg.core = 0) ∧
    ∀ (s : State) (k : Channel),
      s.legalBatch → s.vrecTagged k → s.configLegal k → (∀ i, i < s.batch → s.accumulatesAt k s.vrec i) →
        (∀ c ∈ (s.finalChecks k s.vrec).dropLast, c.passes = true) →
          (∀ a : Code, (∀ i, i < s.batch → s.iram k i = a) →
            ∃ t, exec (.calculate (k.val + 1)) s = .next t ∧ t.done = true ∧ t.err = s.err ∧
              t.results[k].powerFactor = 0 ∧ isZero t.results[k].rmsCurrent = true ∧ isZero t.dbg.app = true) ∧
            ∀ b : Code, (∀ i, i < s.batch → s.vrec i = f64 b.toNat) →
              ∃ t, exec (.calculate (k.val + 1)) s = .next t ∧ t.done = true ∧ t.err = s.err ∧
                t.results[k].powerFactor = 0 ∧ isZero t.results[k].rmsVoltage = true ∧ isZero t.dbg.app = true

/-- R99: `rms_current < 0.0` only where the current scale is negative, `rms_voltage < 0.0` only where the voltage
scale is. -/
def Obligations.RmsSignsComeFromTheScales : Prop :=
  ∀ (s : State) (k : Channel) (ws : List Word) (r : Reading) (d : Debug) (cs vs : Word),
    s.scaleFactors k = .ok (cs, vs) → s.calculate k ws = .ok (r, d) →
      (isNegative r.rmsCurrent = true → isNegative cs = true) ∧
        (isNegative r.rmsVoltage = true → isNegative vs = true)

/-- R102, R103: MEASURE of a non-empty mask in whose channels no check fails, those of the reconstruction `W k` and
those of the calculation over it, completes: RESULT[k] of every selected channel holds the reading of the formulas
and the others are kept, RES_VALID is the mask, REP_VRMS is the RMS voltage of the lowest selected channel, DBG holds
the values of the highest, RES_TS is BATCH_TS; every other register, VREC and VREC_STATUS among them, and every byte
of memory is unchanged. -/
def Obligations.MeasureCommitsAllReadings : Prop :=
  ∀ (s : State) (mask : BitVec 6) (W : Channel → Nat → Word) (kmin kmax : Channel),
    s.legalBatch →
      (∀ k : Channel, mask.getLsbD k.val = true → s.reconstructible k (W k) ∧ s.calculable k (W k)) →
      mask.getLsbD kmin.val = true → (∀ k : Channel, mask.getLsbD k.val = true → kmin ≤ k) →
        mask.getLsbD kmax.val = true → (∀ k : Channel, mask.getLsbD k.val = true → k ≤ kmax) →
          ∃ t, exec (.measure mask) s = .next t ∧
            (∀ k : Channel, t.results[k] =
              if mask.getLsbD k.val then (s.readingOf k (W k)).1 else s.results[k]) ∧
            t.resValid = mask ∧ t.repVrms = (s.readingOf kmin (W kmin)).1.rmsVoltage ∧
            t.dbg = (s.readingOf kmax (W kmax)).2 ∧
            t.dbg.ch = BitVec.ofNat 3 (kmax.val + 1) ∧ t.resTs = s.batchTs ∧ t.done = true ∧ t.busy = false ∧
            (∀ a, t.byteAt a = s.byteAt a) ∧
            t = { s with results := t.results, resValid := mask, repVrms := t.repVrms, dbg := t.dbg,
                         resTs := s.batchTs, done := true, busy := false }

/-- R106: the RESULT[k] that a MEASURE commits for a selected channel is the one that MEASURE of that channel
alone commits: no channel's computation reads another's. -/
def Obligations.MeasuredChannelsAreIndependent : Prop :=
  ∀ (s t : State) (mask : BitVec 6) (k : Channel),
    s.err = false → mask.getLsbD k.val = true → exec (.measure mask) s = .next t → t.err = false →
      ∃ u, exec (.measure (1#6 <<< k.val)) s = .next u ∧ u.err = false ∧ u.results[k] = t.results[k]

/-- R82, R102: MEASURE k and RECON k followed by CALC k. Where RECON k fails, MEASURE k fails with the same code,
STAGE, CHANNEL, SEQ and INDEX. Where it succeeds, CALC k after it and MEASURE k fail with the same code, STAGE,
CHANNEL, SEQ and INDEX, or commit the same RESULT[k], the same DBG and the same RES_TS. -/
def Obligations.MeasureIsReconThenCalc : Prop :=
  ∀ (s t : State) (k : Channel),
    s.err = false → exec (.recon (k.val + 1)) s = .next t →
      ∃ v, exec (.measure (1#6 <<< k.val)) s = .next v ∧
        (t.err = true →
          v.err = true ∧ v.errCode = t.errCode ∧ v.errInfo = { t.errInfo with opcode := 0x03 }) ∧
        (t.err = false →
          ∃ u, exec (.calculate (k.val + 1)) t = .next u ∧
            u.err = v.err ∧ u.errCode = v.errCode ∧ u.results[k] = v.results[k] ∧ u.dbg = v.dbg ∧ u.resTs = v.resTs ∧
            (u.err = true → v.errInfo = { u.errInfo with opcode := 0x03 }))

/-- R105: the current radicand of R96 is not negative for any legal batch of any codes, and so E_DOMAIN with
SEQ = 2 cannot occur. -/
def Obligations.CurrentRadicandIsNeverNegative : Prop :=
  ∀ (s : State) (k : Channel), s.legalBatch →
    (let codes := (s.iramSeq k).map fun x => f64 x.toNat
     let mI := fdiv (codes.foldl fadd 0) (f64 s.batch)
     let mII := fdiv ((codes.map fun a => fmul a a).foldl fadd 0) (f64 s.batch)
     isNegative (fsub mII (fmul mI mI)) = false) ∧
      ∀ (ws : List Word) (e : CmdError),
        ws.length = s.batch → s.calculate k ws = .error e → e.code = .domain → e.seq = .voltage

/-- R70, R90, R138: a queued command reads nothing of VRAM, IRAM and VREC at index `N` and above: two states
that agree below `N` (and may differ in every other stored byte) leave the same state but for memory, and the
same VREC[0..N). -/
def Obligations.SamplesBeyondTheBatchAreNeverRead : Prop :=
  ∀ (s t : State) (i : Instr) (m : Memory) (e : Nat),
    i.immediate = false →
      (∀ j, j < s.batch → ({ s with mem := m, epoch := e } : State).vram j = s.vram j ∧
        ({ s with mem := m, epoch := e } : State).vrec j = s.vrec j ∧
        ∀ k, ({ s with mem := m, epoch := e } : State).iram k j = s.iram k j) →
      exec i s = .next t →
        ∃ u, exec i { s with mem := m, epoch := e } = .next u ∧ u = { t with mem := u.mem, epoch := e } ∧
          ∀ j, j < s.batch → u.vrec j = t.vrec j

/-! ## Binary64 arithmetic: the definitions are IEEE 754-2008's, which R10 names "from general knowledge, not in
source" (log 8) -/

/-- R10 with IEEE 754-2008's definitions (log 8): `fadd` and `fsub` of finite operands round the exact sum and
difference once, to nearest with ties to even; a sum that is exactly zero is +0.0 unless both operands are
negative, a difference that is exactly zero is +0.0 unless the first operand is -0.0 and the second +0.0. -/
def Obligations.AdditionRoundsOnceToNearestEven : Prop :=
  ∀ x y : Word, isFinite x = true → isFinite y = true →
    roundsTo ((fVal x : ℝ) + fVal y) (fadd x y) ∧ roundsTo ((fVal x : ℝ) - fVal y) (fsub x y) ∧
      (fVal x + fVal y = 0 → fadd x y = if fSign x && fSign y then 0x8000000000000000 else 0) ∧
      (fVal x - fVal y = 0 → fsub x y = if fSign x && !fSign y then 0x8000000000000000 else 0)

/-- R10 with IEEE 754-2008's definitions (log 8): `fmul` of finite operands rounds the exact product once, to
nearest with ties to even. -/
def Obligations.MultiplicationRoundsOnceToNearestEven : Prop :=
  ∀ x y : Word, isFinite x = true → isFinite y = true →
    roundsTo ((fVal x : ℝ) * fVal y / 2 ^ 1074) (fmul x y) ∧
      (isFinite (fmul x y) = true → fSign (fmul x y) = (fSign x != fSign y))

/-- R10 with IEEE 754-2008's definitions (log 8): `fdiv` of finite operands with a divisor other than zero rounds
the exact quotient once, to nearest with ties to even. -/
def Obligations.DivisionRoundsOnceToNearestEven : Prop :=
  ∀ x y : Word, isFinite x = true → isFinite y = true → isZero y = false →
    roundsTo ((fVal x : ℝ) * 2 ^ 1074 / fVal y) (fdiv x y) ∧
      (isFinite (fdiv x y) = true → fSign (fdiv x y) = (fSign x != fSign y))

/-- R10 and D32 with IEEE 754-2008's definitions (log 8): `fsqrt` of a finite operand that is not negative is the
correctly rounded square root. -/
def Obligations.SquareRootIsCorrectlyRounded : Prop :=
  ∀ x : Word, isFinite x = true → isNegative x = false →
    roundsTo (Real.sqrt ((fVal x : ℝ) * 2 ^ 1074)) (fsqrt x) ∧ isFinite (fsqrt x) = true

/-- R104: every `f64(n)` conversion WRPC makes is exact. -/
def Obligations.IntegerConversionIsExact : Prop :=
  ∀ n : Nat, n < 2 ^ 53 → isFinite (f64 n) = true ∧ fVal (f64 n) = (n : Int) * 2 ^ 1074

/-- R104: the sums of the codes and of their squares equal the mathematical integer sums. -/
def Obligations.CodeSumsAreExact : Prop :=
  ∀ (s : State) (k : Channel) (ws : List Word) (t : Sums),
    s.legalBatch → ws.length = s.batch → s.pass k ws = .ok t →
      t.si = f64 ((s.iramSeq k).map fun x => x.toNat).sum ∧
        t.sii = f64 ((s.iramSeq k).map fun x => x.toNat * x.toNat).sum

/-! ## The host's window -/

/-- R53, R55, R58: an access gets ERROR exactly when it is misaligned, reserved, or a write to a read-only
location, whether BUSY is 0 or 1, and then nothing of the block's state changes. -/
def Obligations.BusErrorsAreTheListedOnes : Prop :=
  ∀ (s t : State) (a : Addr) (v : Word) (rest : List Input),
    s.rst = false →
      let n := a.toNat
      let refused := n % 8 ≠ 0 ∨ (0x90 ≤ n ∧ n < 0x100) ∨ (0x130 ≤ n ∧ n < 0x140) ∨ (0x170 ≤ n ∧ n < 0x200) ∨
        (0x2C0 ≤ n ∧ n < 0x300) ∨ (0x340 ≤ n ∧ n < 0x10000) ∨ (0x1E000 ≤ n ∧ n < 0x20000) ∨ 0x28000 ≤ n
      let readOnly := n ∈ [0x000, 0x008, 0x018, 0x028, 0x030, 0x070, 0x078, 0x080, 0x088] ∨
        (0x200 ≤ n ∧ n < 0x2C0) ∨ (0x300 ≤ n ∧ n < 0x340) ∨ 0x20000 ≤ n
      (s.inputs = .read a :: rest → step s = .next t →
        (refused ↔ ∃ x, t.bus = some (.read true x)) ∧
          t = { s with inputs := rest, bus := t.bus, draws := t.draws }) ∧
        (s.inputs = .write a v :: rest → step s = .next t →
          ((refused ∨ readOnly) ↔ t.bus = some (.write true)) ∧
            (t.bus = some (.write true) → t = { s with inputs := rest, bus := t.bus }) ∧
            (t.bus = some (.write true) ∨ t.bus = some (.write false)))

/-- R19, R20 to R41, R59: a read of a register answers its value and changes nothing; CMD reads 0. -/
def Obligations.RegisterReadsAnswerTheirValues : Prop :=
  ∀ (s : State) (r : Reg) (rest : List Input),
    s.rst = false → s.inputs = .read (BitVec.ofNat 18 r.offset) :: rest →
      step s = .next { s with inputs := rest, bus := some (.read false (s.readReg r)) } ∧
        s.readReg .id = 0x0000000157525043 ∧ s.readReg .cap = 0x0000001010000006 ∧ s.readReg .cmd = 0

/-- R56, R57, R59: a read of a sample word answers its four codes, the first in the low bits, and a read of VREC
the entry's bits; neither changes anything. -/
def Obligations.SampleReadsAnswerFourCodes : Prop :=
  ∀ (s : State) (a : Addr) (rest : List Input),
    s.rst = false → s.inputs = .read a :: rest → a.toNat % 8 = 0 →
      (0x10000 ≤ a.toNat → a.toNat < 0x1E000 →
        step s = .next { s with inputs := rest, bus := some (.read false
          (s.codeAt (a.toNat + 6) ++ s.codeAt (a.toNat + 4) ++ s.codeAt (a.toNat + 2) ++ s.codeAt a.toNat)) }) ∧
        (0x20000 ≤ a.toNat → a.toNat < 0x28000 →
          step s = .next { s with inputs := rest, bus := some (.read false (s.vrec ((a.toNat - 0x20000) / 8))) })

/-- R57, R60, R61: while idle, a write of a sample word stores its four codes and changes no other byte; it clears
VREC_STATUS.VALID exactly for a VRAM word, and nothing else changes. -/
def Obligations.SampleWritesStoreFourCodes : Prop :=
  ∀ (s : State) (a : Addr) (v : Word) (rest : List Input),
    s.rst = false → s.busy = false → s.inputs = .write a v :: rest → a.toNat % 8 = 0 → 0x10000 ≤ a.toNat →
      a.toNat < 0x1E000 →
        ∃ t, step s = .next t ∧
          t.codeAt a.toNat = v.extractLsb' 0 16 ∧ t.codeAt (a.toNat + 2) = v.extractLsb' 16 16 ∧
          t.codeAt (a.toNat + 4) = v.extractLsb' 32 16 ∧ t.codeAt (a.toNat + 6) = v.extractLsb' 48 16 ∧
          (∀ x, ¬ (a.toNat ≤ x ∧ x < a.toNat + 8) → t.byteAt x = s.byteAt x) ∧
          t.vrecStatus = ⟨s.vrecStatus.len, s.vrecStatus.ch, s.vrecStatus.valid && decide (0x12000 ≤ a.toNat)⟩ ∧
          t = { s with inputs := rest, bus := some (.write false), mem := t.mem, vrecStatus := t.vrecStatus }

/-- R19, R22, R27 to R33, R38, R39, R60, R61: while idle, a write of a RW register stores its stored bits (the
others read as 0; bits 0 and 1 of CTRL are the enables IE_DONE and IE_ERR), clears VREC_STATUS.VALID exactly for `N`
and for PHASE[VREC_STATUS.CH], and changes no other register and no byte of memory. -/
def Obligations.RegisterWritesStoreTheirBits : Prop :=
  ∀ (s : State) (r : Reg) (v : Word) (rest : List Input),
    s.rst = false → s.busy = false → r.writable = true →
      s.inputs = .write (BitVec.ofNat 18 r.offset) v :: rest →
        ∃ t, step s = .next t ∧
          (t.readReg r = match r with
            | .ctrl => v &&& 0x3
            | .n => v &&& 0xFFFF
            | .adcRes => v &&& 0xFFFFFFFF
            | _ => v) ∧
          t.vrecStatus.len = s.vrecStatus.len ∧ t.vrecStatus.ch = s.vrecStatus.ch ∧
          (t.vrecStatus.valid = true ↔ s.vrecStatus.valid = true ∧ r ≠ .n ∧
            ∀ k, r = .phase k → BitVec.ofNat 3 (k.val + 1) ≠ s.vrecStatus.ch) ∧
          (∀ q : Reg, q ≠ r → q ≠ .vrecStatus → q ≠ .status → t.readReg q = s.readReg q) ∧
          t.ieDone = (if r = .ctrl then v.getLsbD 0 else s.ieDone) ∧
          t.ieErr = (if r = .ctrl then v.getLsbD 1 else s.ieErr) ∧ (∀ a, t.byteAt a = s.byteAt a) ∧
          t.busy = s.busy ∧ t.done = s.done ∧ t.err = s.err ∧ t.drop = s.drop ∧ t.pending = s.pending ∧
          t.mem = s.mem ∧ t.bus = some (.write false)

/-- R46: the output `irq` is DONE with IE_DONE, or ERR with IE_ERR, it is low after reset, and STATUS.IRQ as the
host reads it mirrors it; the other bits are BUSY, DONE, ERR and DROP, and bits 63:5 read 0. -/
def Obligations.StatusReadsMirrorTheInterrupt : Prop :=
  State.reset.irq = false ∧ ∀ (s : State) (rest : List Input), s.rst = false → s.inputs = .read 0x018 :: rest →
    ∃ w, step s = .next { s with inputs := rest, bus := some (.read false w) } ∧
      w.getLsbD 0 = s.busy ∧ w.getLsbD 1 = s.done ∧ w.getLsbD 2 = s.err ∧ w.getLsbD 3 = s.drop ∧
      w.getLsbD 4 = s.irq ∧ s.irq = ((s.done && s.ieDone) || (s.err && s.ieErr)) ∧ w.extractLsb' 5 59 = 0

/-! ## Reset and invariants -/

/-- R50: what a hardware reset leaves in every register to which the table gives a value. (PENDING is the model's
choice, log 6, and is not stated.) -/
def Obligations.ResetValuesAreTheListedOnes : Prop :=
  (∀ r : Reg, State.reset.readReg r = match r with
    | .id => 0x0000000157525043
    | .cap => 0x0000001010000006
    | .adcRes => 1024
    | .acAcc => 0x3FF0000000000000
    | .phase _ => 0x3FF0000000000000
    | .curAcc _ => 0x3FF0000000000000
    | _ => 0) ∧ State.reset.irq = false

/-- R132, R133: `rst` asserted, and its release, set every register to its reset value whatever the state, discard
the pending command without a commit, and make every sample unspecified anew: a free draw of that reset (log 4). -/
def Obligations.HardwareResetSetsEveryRegister : Prop :=
  ∀ (s : State) (level : Bool) (rest : List Input),
    s.inputs = .rst level :: rest → level = true ∨ s.rst = true →
      ∃ t, step s = .next t ∧ (∀ r : Reg, t.readReg r = State.reset.readReg r) ∧ t.irq = false ∧ t.rst = level ∧
        t.busy = false ∧ t.inputs = rest ∧ ∀ a, t.byteAt a = Config.unwrittenByte (s.epoch + 1) a

/-- R134: an access while `rst` is asserted is a fault. -/
def Obligations.AccessDuringResetFaults : Prop :=
  ∀ (s : State) (a : Addr) (v : Word) (rest : List Input), s.rst = true →
    (s.inputs = .read a :: rest → step s = .fault .accessDuringReset) ∧
      (s.inputs = .write a v :: rest → step s = .fault .accessDuringReset)

/-- R47, R48, R123, R132 and the rules they follow from: every step keeps the invariants of the block. -/
def Obligations.EveryStepKeepsTheInvariants : Prop :=
  ∀ s t : State, s.Inv → step s = .next t → t.Inv

/-- The state after a hardware reset has the invariants. -/
def Obligations.ResetHasTheInvariants : Prop := State.reset.Inv

/-- R48: what the invariants say of a valid VREC: `2 <= LEN <= SAMPLE_DEPTH`, CH in 1..6, `LEN = N`, and every
`VREC[i]` with `i < LEN` finite. -/
def Obligations.ValidVrecIsFiniteAndCurrent : Prop :=
  ∀ s : State, s.Inv → s.vrecStatus.valid = true →
    2 ≤ s.vrecStatus.len.toNat ∧ s.vrecStatus.len.toNat ≤ 4096 ∧ 1 ≤ s.vrecStatus.ch.toNat ∧
      s.vrecStatus.ch.toNat ≤ 6 ∧ s.vrecStatus.len = s.n ∧
      ∀ i, i < s.vrecStatus.len.toNat → isFinite (s.vrec i) = true
end

