-- ==== Sys2Proof/Laws/Decode.lean ====
section
/-! SUPPORT. Laws/Decode.lean: the fields of a packed command word, and the word packed from a legal word's
fields (30_encoding.md R73). -/

namespace Sys2Proof

/-- Which field each bit of a packed command is. -/
theorem getLsbD_packCommand (op : BitVec 8) (ch : BitVec 3) (mask : BitVec 6) (i : Nat) :
    (packCommand op ch mask).getLsbD i =
      if i < 8 then op.getLsbD i else if i < 11 then ch.getLsbD (i - 8)
      else if i < 16 then false else mask.getLsbD (i - 16) := by
  unfold packCommand
  rcases Nat.lt_or_ge i 64 with h | h
  · simp only [BitVec.getLsbD_or, BitVec.getLsbD_setWidth, BitVec.getLsbD_shiftLeft]
    rcases Nat.lt_or_ge i 8 with h8 | h8
    · simp [h, h8]; omega
    rcases Nat.lt_or_ge i 11 with h11 | h11
    · have h16 : i < 16 := by omega
      have h64 : i - 8 < 64 := by omega
      simp [h, h11, h16, h64, Nat.not_lt.2 h8, BitVec.getLsbD_of_ge op i h8]
    · have e1 := BitVec.getLsbD_of_ge op i h8
      have e2 := BitVec.getLsbD_of_ge ch (i - 8) (by omega)
      have e3 : i - 16 < 64 := by omega
      simp [h, e1, e2, e3, Nat.not_lt.2 h8, Nat.not_lt.2 h11]
  · rw [BitVec.getLsbD_of_ge _ _ h]
    have : ¬ i < 8 := by omega
    have : ¬ i < 11 := by omega
    have : ¬ i < 16 := by omega
    simp [*, BitVec.getLsbD_of_ge mask (i - 16) (by omega)]

@[simp] theorem opField_packCommand (op : BitVec 8) (ch : BitVec 3) (mask : BitVec 6) :
    opField (packCommand op ch mask) = op := by
  apply BitVec.eq_of_getLsbD_eq; intro i hi
  simp [opField, getLsbD_packCommand, hi]

@[simp] theorem chField_packCommand (op : BitVec 8) (ch : BitVec 3) (mask : BitVec 6) :
    chField (packCommand op ch mask) = ch := by
  apply BitVec.eq_of_getLsbD_eq; intro i hi
  have : 8 + i < 11 := by omega
  simp [chField, getLsbD_packCommand, hi, this]

@[simp] theorem rsvAField_packCommand (op : BitVec 8) (ch : BitVec 3) (mask : BitVec 6) :
    rsvAField (packCommand op ch mask) = 0 := by
  apply BitVec.eq_of_getLsbD_eq; intro i hi
  have h1 : ¬ 11 + i < 8 := by omega
  have h2 : 11 + i < 16 := by omega
  simp [rsvAField, getLsbD_packCommand, h1, h2]

@[simp] theorem maskField_packCommand (op : BitVec 8) (ch : BitVec 3) (mask : BitVec 6) :
    maskField (packCommand op ch mask) = mask := by
  apply BitVec.eq_of_getLsbD_eq; intro i hi
  have h1 : ¬ 16 + i < 8 := by omega
  have h2 : ¬ 16 + i < 11 := by omega
  simp [maskField, getLsbD_packCommand, hi, h1, h2]

@[simp] theorem rsvBField_packCommand (op : BitVec 8) (ch : BitVec 3) (mask : BitVec 6) :
    rsvBField (packCommand op ch mask) = 0 := by
  apply BitVec.eq_of_getLsbD_eq; intro i hi
  have h1 : ¬ 22 + i < 8 := by omega
  have h2 : ¬ 22 + i < 11 := by omega
  have h3 : ¬ 22 + i < 16 := by omega
  simp [rsvBField, getLsbD_packCommand, h1, h2, h3]
  intro _; exact BitVec.getLsbD_of_ge _ _ (by omega)

/-- A word whose reserved bits are 0 is packed from its fields. -/
theorem packCommand_fields (w : Word) (ha : rsvAField w = 0) (hb : rsvBField w = 0) :
    packCommand (opField w) (chField w) (maskField w) = w := by
  have ha' : ∀ j, j < 5 → w.getLsbD (11 + j) = false := fun j hj => by
    have := congrArg (fun x : BitVec 5 => x.getLsbD j) ha
    simpa [rsvAField, hj] using this
  have hb' : ∀ j, j < 42 → w.getLsbD (22 + j) = false := fun j hj => by
    have := congrArg (fun x : BitVec 42 => x.getLsbD j) hb
    simpa [rsvBField, hj] using this
  apply BitVec.eq_of_getLsbD_eq; intro i hi
  rw [getLsbD_packCommand]
  simp only [opField, chField, maskField, BitVec.getLsbD_extractLsb']
  split
  · simp [*]
  · split
    · have h1 : i - 8 < 3 := by omega
      have h2 : 8 + (i - 8) = i := by omega
      simp [h1, h2]
    · split
      · have := ha' (i - 11) (by omega)
        rw [← this]; congr 1; omega
      · rcases Nat.lt_or_ge i 22 with h | h
        · have h1 : i - 16 < 6 := by omega
          have h2 : 16 + (i - 16) = i := by omega
          simp [h1, h2]
        · have := hb' (i - 22) (by omega)
          have h1 : ¬ i - 16 < 6 := by omega
          have h2 : 22 + (i - 22) = i := by omega
          rw [h2] at this
          simp [h1, this]

end Sys2Proof
end

