-- ==== Sys2Proof/Laws/State.lean ====
section
/-! SUPPORT. Laws/State.lean: one lemma for each field of each named update of the state, true by
unfolding, so that no later proof unfolds an update. -/

namespace Sys2Proof.Machine

/-! ## `dropWrite` -/

@[simp] theorem dropWrite_ieDone (s : State) : (dropWrite s).ieDone = s.ieDone := rfl
@[simp] theorem dropWrite_ieErr (s : State) : (dropWrite s).ieErr = s.ieErr := rfl
@[simp] theorem dropWrite_busy (s : State) : (dropWrite s).busy = s.busy := rfl
@[simp] theorem dropWrite_done (s : State) : (dropWrite s).done = s.done := rfl
@[simp] theorem dropWrite_err (s : State) : (dropWrite s).err = s.err := rfl
@[simp] theorem dropWrite_drop (s : State) : (dropWrite s).drop = true := rfl
@[simp] theorem dropWrite_errCode (s : State) : (dropWrite s).errCode = s.errCode := rfl
@[simp] theorem dropWrite_errInfo (s : State) : (dropWrite s).errInfo = s.errInfo := rfl
@[simp] theorem dropWrite_n (s : State) : (dropWrite s).n = s.n := rfl
@[simp] theorem dropWrite_adcRes (s : State) : (dropWrite s).adcRes = s.adcRes := rfl
@[simp] theorem dropWrite_boardRef (s : State) : (dropWrite s).boardRef = s.boardRef := rfl
@[simp] theorem dropWrite_gridV (s : State) : (dropWrite s).gridV = s.gridV := rfl
@[simp] theorem dropWrite_xfmrV (s : State) : (dropWrite s).xfmrV = s.xfmrV := rfl
@[simp] theorem dropWrite_acAcc (s : State) : (dropWrite s).acAcc = s.acAcc := rfl
@[simp] theorem dropWrite_batchTs (s : State) : (dropWrite s).batchTs = s.batchTs := rfl
@[simp] theorem dropWrite_resTs (s : State) : (dropWrite s).resTs = s.resTs := rfl
@[simp] theorem dropWrite_resValid (s : State) : (dropWrite s).resValid = s.resValid := rfl
@[simp] theorem dropWrite_repVrms (s : State) : (dropWrite s).repVrms = s.repVrms := rfl
@[simp] theorem dropWrite_vrecStatus (s : State) : (dropWrite s).vrecStatus = s.vrecStatus := rfl
@[simp] theorem dropWrite_phase (s : State) : (dropWrite s).phase = s.phase := rfl
@[simp] theorem dropWrite_curAcc (s : State) : (dropWrite s).curAcc = s.curAcc := rfl
@[simp] theorem dropWrite_results (s : State) : (dropWrite s).results = s.results := rfl
@[simp] theorem dropWrite_dbg (s : State) : (dropWrite s).dbg = s.dbg := rfl
@[simp] theorem dropWrite_pending (s : State) : (dropWrite s).pending = s.pending := rfl
@[simp] theorem dropWrite_mem (s : State) : (dropWrite s).mem = s.mem := rfl
@[simp] theorem dropWrite_rst (s : State) : (dropWrite s).rst = s.rst := rfl
@[simp] theorem dropWrite_bus (s : State) : (dropWrite s).bus = s.bus := rfl
@[simp] theorem dropWrite_inputs (s : State) : (dropWrite s).inputs = s.inputs := rfl
@[simp] theorem dropWrite_epoch (s : State) : (dropWrite s).epoch = s.epoch := rfl
@[simp] theorem dropWrite_draws (s : State) : (dropWrite s).draws = s.draws := rfl

/-! ## `clearErrors` -/

@[simp] theorem clearErrors_ieDone (s : State) : (clearErrors s).ieDone = s.ieDone := rfl
@[simp] theorem clearErrors_ieErr (s : State) : (clearErrors s).ieErr = s.ieErr := rfl
@[simp] theorem clearErrors_busy (s : State) : (clearErrors s).busy = s.busy := rfl
@[simp] theorem clearErrors_done (s : State) : (clearErrors s).done = false := rfl
@[simp] theorem clearErrors_err (s : State) : (clearErrors s).err = false := rfl
@[simp] theorem clearErrors_drop (s : State) : (clearErrors s).drop = false := rfl
@[simp] theorem clearErrors_errCode (s : State) : (clearErrors s).errCode = .none := rfl
@[simp] theorem clearErrors_errInfo (s : State) : (clearErrors s).errInfo = .zero := rfl
@[simp] theorem clearErrors_n (s : State) : (clearErrors s).n = s.n := rfl
@[simp] theorem clearErrors_adcRes (s : State) : (clearErrors s).adcRes = s.adcRes := rfl
@[simp] theorem clearErrors_boardRef (s : State) : (clearErrors s).boardRef = s.boardRef := rfl
@[simp] theorem clearErrors_gridV (s : State) : (clearErrors s).gridV = s.gridV := rfl
@[simp] theorem clearErrors_xfmrV (s : State) : (clearErrors s).xfmrV = s.xfmrV := rfl
@[simp] theorem clearErrors_acAcc (s : State) : (clearErrors s).acAcc = s.acAcc := rfl
@[simp] theorem clearErrors_batchTs (s : State) : (clearErrors s).batchTs = s.batchTs := rfl
@[simp] theorem clearErrors_resTs (s : State) : (clearErrors s).resTs = s.resTs := rfl
@[simp] theorem clearErrors_resValid (s : State) : (clearErrors s).resValid = s.resValid := rfl
@[simp] theorem clearErrors_repVrms (s : State) : (clearErrors s).repVrms = s.repVrms := rfl
@[simp] theorem clearErrors_vrecStatus (s : State) : (clearErrors s).vrecStatus = s.vrecStatus := rfl
@[simp] theorem clearErrors_phase (s : State) : (clearErrors s).phase = s.phase := rfl
@[simp] theorem clearErrors_curAcc (s : State) : (clearErrors s).curAcc = s.curAcc := rfl
@[simp] theorem clearErrors_results (s : State) : (clearErrors s).results = s.results := rfl
@[simp] theorem clearErrors_dbg (s : State) : (clearErrors s).dbg = s.dbg := rfl
@[simp] theorem clearErrors_pending (s : State) : (clearErrors s).pending = s.pending := rfl
@[simp] theorem clearErrors_mem (s : State) : (clearErrors s).mem = s.mem := rfl
@[simp] theorem clearErrors_rst (s : State) : (clearErrors s).rst = s.rst := rfl
@[simp] theorem clearErrors_bus (s : State) : (clearErrors s).bus = s.bus := rfl
@[simp] theorem clearErrors_inputs (s : State) : (clearErrors s).inputs = s.inputs := rfl
@[simp] theorem clearErrors_epoch (s : State) : (clearErrors s).epoch = s.epoch := rfl
@[simp] theorem clearErrors_draws (s : State) : (clearErrors s).draws = s.draws := rfl

/-! ## `softReset` -/

@[simp] theorem softReset_ieDone (s : State) : (softReset s).ieDone = s.ieDone := rfl
@[simp] theorem softReset_ieErr (s : State) : (softReset s).ieErr = s.ieErr := rfl
@[simp] theorem softReset_busy (s : State) : (softReset s).busy = false := rfl
@[simp] theorem softReset_done (s : State) : (softReset s).done = false := rfl
@[simp] theorem softReset_err (s : State) : (softReset s).err = false := rfl
@[simp] theorem softReset_drop (s : State) : (softReset s).drop = false := rfl
@[simp] theorem softReset_errCode (s : State) : (softReset s).errCode = .none := rfl
@[simp] theorem softReset_errInfo (s : State) : (softReset s).errInfo = .zero := rfl
@[simp] theorem softReset_n (s : State) : (softReset s).n = s.n := rfl
@[simp] theorem softReset_adcRes (s : State) : (softReset s).adcRes = s.adcRes := rfl
@[simp] theorem softReset_boardRef (s : State) : (softReset s).boardRef = s.boardRef := rfl
@[simp] theorem softReset_gridV (s : State) : (softReset s).gridV = s.gridV := rfl
@[simp] theorem softReset_xfmrV (s : State) : (softReset s).xfmrV = s.xfmrV := rfl
@[simp] theorem softReset_acAcc (s : State) : (softReset s).acAcc = s.acAcc := rfl
@[simp] theorem softReset_batchTs (s : State) : (softReset s).batchTs = s.batchTs := rfl
@[simp] theorem softReset_resTs (s : State) : (softReset s).resTs = 0 := rfl
@[simp] theorem softReset_resValid (s : State) : (softReset s).resValid = 0 := rfl
@[simp] theorem softReset_repVrms (s : State) : (softReset s).repVrms = 0 := rfl
@[simp] theorem softReset_vrecStatus (s : State) : (softReset s).vrecStatus = .zero := rfl
@[simp] theorem softReset_phase (s : State) : (softReset s).phase = s.phase := rfl
@[simp] theorem softReset_curAcc (s : State) : (softReset s).curAcc = s.curAcc := rfl
@[simp] theorem softReset_results (s : State) : (softReset s).results = Vector.replicate 6 .zero := rfl
@[simp] theorem softReset_dbg (s : State) : (softReset s).dbg = .zero := rfl
@[simp] theorem softReset_pending (s : State) : (softReset s).pending = s.pending := rfl
@[simp] theorem softReset_mem (s : State) : (softReset s).mem = s.mem := rfl
@[simp] theorem softReset_rst (s : State) : (softReset s).rst = s.rst := rfl
@[simp] theorem softReset_bus (s : State) : (softReset s).bus = s.bus := rfl
@[simp] theorem softReset_inputs (s : State) : (softReset s).inputs = s.inputs := rfl
@[simp] theorem softReset_epoch (s : State) : (softReset s).epoch = s.epoch := rfl
@[simp] theorem softReset_draws (s : State) : (softReset s).draws = s.draws := rfl

/-! ## `errorEntry` -/

@[simp] theorem errorEntry_ieDone (w : Word) (e : CmdError) (s : State) : (errorEntry w e s).ieDone = s.ieDone := rfl
@[simp] theorem errorEntry_ieErr (w : Word) (e : CmdError) (s : State) : (errorEntry w e s).ieErr = s.ieErr := rfl
@[simp] theorem errorEntry_busy (w : Word) (e : CmdError) (s : State) : (errorEntry w e s).busy = s.busy := rfl
@[simp] theorem errorEntry_done (w : Word) (e : CmdError) (s : State) : (errorEntry w e s).done = s.done := rfl
@[simp] theorem errorEntry_err (w : Word) (e : CmdError) (s : State) : (errorEntry w e s).err = true := rfl
@[simp] theorem errorEntry_drop (w : Word) (e : CmdError) (s : State) : (errorEntry w e s).drop = s.drop := rfl
@[simp] theorem errorEntry_errCode (w : Word) (e : CmdError) (s : State) : (errorEntry w e s).errCode = e.code := rfl
@[simp] theorem errorEntry_errInfo (w : Word) (e : CmdError) (s : State) : (errorEntry w e s).errInfo = ⟨BitVec.ofNat 16 e.index, e.channel, e.stage, e.seq, opField w⟩ := rfl
@[simp] theorem errorEntry_n (w : Word) (e : CmdError) (s : State) : (errorEntry w e s).n = s.n := rfl
@[simp] theorem errorEntry_adcRes (w : Word) (e : CmdError) (s : State) : (errorEntry w e s).adcRes = s.adcRes := rfl
@[simp] theorem errorEntry_boardRef (w : Word) (e : CmdError) (s : State) : (errorEntry w e s).boardRef = s.boardRef := rfl
@[simp] theorem errorEntry_gridV (w : Word) (e : CmdError) (s : State) : (errorEntry w e s).gridV = s.gridV := rfl
@[simp] theorem errorEntry_xfmrV (w : Word) (e : CmdError) (s : State) : (errorEntry w e s).xfmrV = s.xfmrV := rfl
@[simp] theorem errorEntry_acAcc (w : Word) (e : CmdError) (s : State) : (errorEntry w e s).acAcc = s.acAcc := rfl
@[simp] theorem errorEntry_batchTs (w : Word) (e : CmdError) (s : State) : (errorEntry w e s).batchTs = s.batchTs := rfl
@[simp] theorem errorEntry_resTs (w : Word) (e : CmdError) (s : State) : (errorEntry w e s).resTs = s.resTs := rfl
@[simp] theorem errorEntry_resValid (w : Word) (e : CmdError) (s : State) : (errorEntry w e s).resValid = s.resValid := rfl
@[simp] theorem errorEntry_repVrms (w : Word) (e : CmdError) (s : State) : (errorEntry w e s).repVrms = s.repVrms := rfl
@[simp] theorem errorEntry_vrecStatus (w : Word) (e : CmdError) (s : State) : (errorEntry w e s).vrecStatus = s.vrecStatus := rfl
@[simp] theorem errorEntry_phase (w : Word) (e : CmdError) (s : State) : (errorEntry w e s).phase = s.phase := rfl
@[simp] theorem errorEntry_curAcc (w : Word) (e : CmdError) (s : State) : (errorEntry w e s).curAcc = s.curAcc := rfl
@[simp] theorem errorEntry_results (w : Word) (e : CmdError) (s : State) : (errorEntry w e s).results = s.results := rfl
@[simp] theorem errorEntry_dbg (w : Word) (e : CmdError) (s : State) : (errorEntry w e s).dbg = s.dbg := rfl
@[simp] theorem errorEntry_pending (w : Word) (e : CmdError) (s : State) : (errorEntry w e s).pending = s.pending := rfl
@[simp] theorem errorEntry_mem (w : Word) (e : CmdError) (s : State) : (errorEntry w e s).mem = s.mem := rfl
@[simp] theorem errorEntry_rst (w : Word) (e : CmdError) (s : State) : (errorEntry w e s).rst = s.rst := rfl
@[simp] theorem errorEntry_bus (w : Word) (e : CmdError) (s : State) : (errorEntry w e s).bus = s.bus := rfl
@[simp] theorem errorEntry_inputs (w : Word) (e : CmdError) (s : State) : (errorEntry w e s).inputs = s.inputs := rfl
@[simp] theorem errorEntry_epoch (w : Word) (e : CmdError) (s : State) : (errorEntry w e s).epoch = s.epoch := rfl
@[simp] theorem errorEntry_draws (w : Word) (e : CmdError) (s : State) : (errorEntry w e s).draws = s.draws := rfl

/-! ## `hardwareReset` -/

@[simp] theorem hardwareReset_ieDone (b : Bool) (s : State) : (hardwareReset b s).ieDone = State.reset.ieDone := rfl
@[simp] theorem hardwareReset_ieErr (b : Bool) (s : State) : (hardwareReset b s).ieErr = State.reset.ieErr := rfl
@[simp] theorem hardwareReset_busy (b : Bool) (s : State) : (hardwareReset b s).busy = State.reset.busy := rfl
@[simp] theorem hardwareReset_done (b : Bool) (s : State) : (hardwareReset b s).done = State.reset.done := rfl
@[simp] theorem hardwareReset_err (b : Bool) (s : State) : (hardwareReset b s).err = State.reset.err := rfl
@[simp] theorem hardwareReset_drop (b : Bool) (s : State) : (hardwareReset b s).drop = State.reset.drop := rfl
@[simp] theorem hardwareReset_errCode (b : Bool) (s : State) : (hardwareReset b s).errCode = State.reset.errCode := rfl
@[simp] theorem hardwareReset_errInfo (b : Bool) (s : State) : (hardwareReset b s).errInfo = State.reset.errInfo := rfl
@[simp] theorem hardwareReset_n (b : Bool) (s : State) : (hardwareReset b s).n = State.reset.n := rfl
@[simp] theorem hardwareReset_adcRes (b : Bool) (s : State) : (hardwareReset b s).adcRes = State.reset.adcRes := rfl
@[simp] theorem hardwareReset_boardRef (b : Bool) (s : State) : (hardwareReset b s).boardRef = State.reset.boardRef := rfl
@[simp] theorem hardwareReset_gridV (b : Bool) (s : State) : (hardwareReset b s).gridV = State.reset.gridV := rfl
@[simp] theorem hardwareReset_xfmrV (b : Bool) (s : State) : (hardwareReset b s).xfmrV = State.reset.xfmrV := rfl
@[simp] theorem hardwareReset_acAcc (b : Bool) (s : State) : (hardwareReset b s).acAcc = State.reset.acAcc := rfl
@[simp] theorem hardwareReset_batchTs (b : Bool) (s : State) : (hardwareReset b s).batchTs = State.reset.batchTs := rfl
@[simp] theorem hardwareReset_resTs (b : Bool) (s : State) : (hardwareReset b s).resTs = State.reset.resTs := rfl
@[simp] theorem hardwareReset_resValid (b : Bool) (s : State) : (hardwareReset b s).resValid = State.reset.resValid := rfl
@[simp] theorem hardwareReset_repVrms (b : Bool) (s : State) : (hardwareReset b s).repVrms = State.reset.repVrms := rfl
@[simp] theorem hardwareReset_vrecStatus (b : Bool) (s : State) : (hardwareReset b s).vrecStatus = State.reset.vrecStatus := rfl
@[simp] theorem hardwareReset_phase (b : Bool) (s : State) : (hardwareReset b s).phase = State.reset.phase := rfl
@[simp] theorem hardwareReset_curAcc (b : Bool) (s : State) : (hardwareReset b s).curAcc = State.reset.curAcc := rfl
@[simp] theorem hardwareReset_results (b : Bool) (s : State) : (hardwareReset b s).results = State.reset.results := rfl
@[simp] theorem hardwareReset_dbg (b : Bool) (s : State) : (hardwareReset b s).dbg = State.reset.dbg := rfl
@[simp] theorem hardwareReset_pending (b : Bool) (s : State) : (hardwareReset b s).pending = State.reset.pending := rfl
@[simp] theorem hardwareReset_mem (b : Bool) (s : State) : (hardwareReset b s).mem = State.reset.mem := rfl
@[simp] theorem hardwareReset_rst (b : Bool) (s : State) : (hardwareReset b s).rst = b := rfl
@[simp] theorem hardwareReset_bus (b : Bool) (s : State) : (hardwareReset b s).bus = s.bus := rfl
@[simp] theorem hardwareReset_inputs (b : Bool) (s : State) : (hardwareReset b s).inputs = s.inputs := rfl
@[simp] theorem hardwareReset_epoch (b : Bool) (s : State) : (hardwareReset b s).epoch = s.epoch + 1 := rfl
@[simp] theorem hardwareReset_draws (b : Bool) (s : State) : (hardwareReset b s).draws = s.draws := rfl

/-! ## `acceptWord` -/

@[simp] theorem acceptWord_ieDone (w : Word) (s : State) : (acceptWord w s).ieDone = s.ieDone := rfl
@[simp] theorem acceptWord_ieErr (w : Word) (s : State) : (acceptWord w s).ieErr = s.ieErr := rfl
@[simp] theorem acceptWord_busy (w : Word) (s : State) : (acceptWord w s).busy = true := rfl
@[simp] theorem acceptWord_done (w : Word) (s : State) : (acceptWord w s).done = false := rfl
@[simp] theorem acceptWord_err (w : Word) (s : State) : (acceptWord w s).err = s.err := rfl
@[simp] theorem acceptWord_drop (w : Word) (s : State) : (acceptWord w s).drop = s.drop := rfl
@[simp] theorem acceptWord_errCode (w : Word) (s : State) : (acceptWord w s).errCode = s.errCode := rfl
@[simp] theorem acceptWord_errInfo (w : Word) (s : State) : (acceptWord w s).errInfo = s.errInfo := rfl
@[simp] theorem acceptWord_n (w : Word) (s : State) : (acceptWord w s).n = s.n := rfl
@[simp] theorem acceptWord_adcRes (w : Word) (s : State) : (acceptWord w s).adcRes = s.adcRes := rfl
@[simp] theorem acceptWord_boardRef (w : Word) (s : State) : (acceptWord w s).boardRef = s.boardRef := rfl
@[simp] theorem acceptWord_gridV (w : Word) (s : State) : (acceptWord w s).gridV = s.gridV := rfl
@[simp] theorem acceptWord_xfmrV (w : Word) (s : State) : (acceptWord w s).xfmrV = s.xfmrV := rfl
@[simp] theorem acceptWord_acAcc (w : Word) (s : State) : (acceptWord w s).acAcc = s.acAcc := rfl
@[simp] theorem acceptWord_batchTs (w : Word) (s : State) : (acceptWord w s).batchTs = s.batchTs := rfl
@[simp] theorem acceptWord_resTs (w : Word) (s : State) : (acceptWord w s).resTs = s.resTs := rfl
@[simp] theorem acceptWord_resValid (w : Word) (s : State) : (acceptWord w s).resValid = s.resValid := rfl
@[simp] theorem acceptWord_repVrms (w : Word) (s : State) : (acceptWord w s).repVrms = s.repVrms := rfl
@[simp] theorem acceptWord_vrecStatus (w : Word) (s : State) : (acceptWord w s).vrecStatus = s.vrecStatus := rfl
@[simp] theorem acceptWord_phase (w : Word) (s : State) : (acceptWord w s).phase = s.phase := rfl
@[simp] theorem acceptWord_curAcc (w : Word) (s : State) : (acceptWord w s).curAcc = s.curAcc := rfl
@[simp] theorem acceptWord_results (w : Word) (s : State) : (acceptWord w s).results = s.results := rfl
@[simp] theorem acceptWord_dbg (w : Word) (s : State) : (acceptWord w s).dbg = s.dbg := rfl
@[simp] theorem acceptWord_pending (w : Word) (s : State) : (acceptWord w s).pending = w := rfl
@[simp] theorem acceptWord_mem (w : Word) (s : State) : (acceptWord w s).mem = s.mem := rfl
@[simp] theorem acceptWord_rst (w : Word) (s : State) : (acceptWord w s).rst = s.rst := rfl
@[simp] theorem acceptWord_bus (w : Word) (s : State) : (acceptWord w s).bus = s.bus := rfl
@[simp] theorem acceptWord_inputs (w : Word) (s : State) : (acceptWord w s).inputs = s.inputs := rfl
@[simp] theorem acceptWord_epoch (w : Word) (s : State) : (acceptWord w s).epoch = s.epoch := rfl
@[simp] theorem acceptWord_draws (w : Word) (s : State) : (acceptWord w s).draws = s.draws := rfl

/-! ## `invalidateVrec` -/

@[simp] theorem invalidateVrec_ieDone (s : State) : (invalidateVrec s).ieDone = s.ieDone := rfl
@[simp] theorem invalidateVrec_ieErr (s : State) : (invalidateVrec s).ieErr = s.ieErr := rfl
@[simp] theorem invalidateVrec_busy (s : State) : (invalidateVrec s).busy = s.busy := rfl
@[simp] theorem invalidateVrec_done (s : State) : (invalidateVrec s).done = s.done := rfl
@[simp] theorem invalidateVrec_err (s : State) : (invalidateVrec s).err = s.err := rfl
@[simp] theorem invalidateVrec_drop (s : State) : (invalidateVrec s).drop = s.drop := rfl
@[simp] theorem invalidateVrec_errCode (s : State) : (invalidateVrec s).errCode = s.errCode := rfl
@[simp] theorem invalidateVrec_errInfo (s : State) : (invalidateVrec s).errInfo = s.errInfo := rfl
@[simp] theorem invalidateVrec_n (s : State) : (invalidateVrec s).n = s.n := rfl
@[simp] theorem invalidateVrec_adcRes (s : State) : (invalidateVrec s).adcRes = s.adcRes := rfl
@[simp] theorem invalidateVrec_boardRef (s : State) : (invalidateVrec s).boardRef = s.boardRef := rfl
@[simp] theorem invalidateVrec_gridV (s : State) : (invalidateVrec s).gridV = s.gridV := rfl
@[simp] theorem invalidateVrec_xfmrV (s : State) : (invalidateVrec s).xfmrV = s.xfmrV := rfl
@[simp] theorem invalidateVrec_acAcc (s : State) : (invalidateVrec s).acAcc = s.acAcc := rfl
@[simp] theorem invalidateVrec_batchTs (s : State) : (invalidateVrec s).batchTs = s.batchTs := rfl
@[simp] theorem invalidateVrec_resTs (s : State) : (invalidateVrec s).resTs = s.resTs := rfl
@[simp] theorem invalidateVrec_resValid (s : State) : (invalidateVrec s).resValid = s.resValid := rfl
@[simp] theorem invalidateVrec_repVrms (s : State) : (invalidateVrec s).repVrms = s.repVrms := rfl
@[simp] theorem invalidateVrec_vrecStatus (s : State) : (invalidateVrec s).vrecStatus = ⟨s.vrecStatus.len, s.vrecStatus.ch, false⟩ := rfl
@[simp] theorem invalidateVrec_phase (s : State) : (invalidateVrec s).phase = s.phase := rfl
@[simp] theorem invalidateVrec_curAcc (s : State) : (invalidateVrec s).curAcc = s.curAcc := rfl
@[simp] theorem invalidateVrec_results (s : State) : (invalidateVrec s).results = s.results := rfl
@[simp] theorem invalidateVrec_dbg (s : State) : (invalidateVrec s).dbg = s.dbg := rfl
@[simp] theorem invalidateVrec_pending (s : State) : (invalidateVrec s).pending = s.pending := rfl
@[simp] theorem invalidateVrec_mem (s : State) : (invalidateVrec s).mem = s.mem := rfl
@[simp] theorem invalidateVrec_rst (s : State) : (invalidateVrec s).rst = s.rst := rfl
@[simp] theorem invalidateVrec_bus (s : State) : (invalidateVrec s).bus = s.bus := rfl
@[simp] theorem invalidateVrec_inputs (s : State) : (invalidateVrec s).inputs = s.inputs := rfl
@[simp] theorem invalidateVrec_epoch (s : State) : (invalidateVrec s).epoch = s.epoch := rfl
@[simp] theorem invalidateVrec_draws (s : State) : (invalidateVrec s).draws = s.draws := rfl

/-! ## `respond` -/

@[simp] theorem respond_ieDone (r : BusResponse) (s : State) : (respond r s).ieDone = s.ieDone := rfl
@[simp] theorem respond_ieErr (r : BusResponse) (s : State) : (respond r s).ieErr = s.ieErr := rfl
@[simp] theorem respond_busy (r : BusResponse) (s : State) : (respond r s).busy = s.busy := rfl
@[simp] theorem respond_done (r : BusResponse) (s : State) : (respond r s).done = s.done := rfl
@[simp] theorem respond_err (r : BusResponse) (s : State) : (respond r s).err = s.err := rfl
@[simp] theorem respond_drop (r : BusResponse) (s : State) : (respond r s).drop = s.drop := rfl
@[simp] theorem respond_errCode (r : BusResponse) (s : State) : (respond r s).errCode = s.errCode := rfl
@[simp] theorem respond_errInfo (r : BusResponse) (s : State) : (respond r s).errInfo = s.errInfo := rfl
@[simp] theorem respond_n (r : BusResponse) (s : State) : (respond r s).n = s.n := rfl
@[simp] theorem respond_adcRes (r : BusResponse) (s : State) : (respond r s).adcRes = s.adcRes := rfl
@[simp] theorem respond_boardRef (r : BusResponse) (s : State) : (respond r s).boardRef = s.boardRef := rfl
@[simp] theorem respond_gridV (r : BusResponse) (s : State) : (respond r s).gridV = s.gridV := rfl
@[simp] theorem respond_xfmrV (r : BusResponse) (s : State) : (respond r s).xfmrV = s.xfmrV := rfl
@[simp] theorem respond_acAcc (r : BusResponse) (s : State) : (respond r s).acAcc = s.acAcc := rfl
@[simp] theorem respond_batchTs (r : BusResponse) (s : State) : (respond r s).batchTs = s.batchTs := rfl
@[simp] theorem respond_resTs (r : BusResponse) (s : State) : (respond r s).resTs = s.resTs := rfl
@[simp] theorem respond_resValid (r : BusResponse) (s : State) : (respond r s).resValid = s.resValid := rfl
@[simp] theorem respond_repVrms (r : BusResponse) (s : State) : (respond r s).repVrms = s.repVrms := rfl
@[simp] theorem respond_vrecStatus (r : BusResponse) (s : State) : (respond r s).vrecStatus = s.vrecStatus := rfl
@[simp] theorem respond_phase (r : BusResponse) (s : State) : (respond r s).phase = s.phase := rfl
@[simp] theorem respond_curAcc (r : BusResponse) (s : State) : (respond r s).curAcc = s.curAcc := rfl
@[simp] theorem respond_results (r : BusResponse) (s : State) : (respond r s).results = s.results := rfl
@[simp] theorem respond_dbg (r : BusResponse) (s : State) : (respond r s).dbg = s.dbg := rfl
@[simp] theorem respond_pending (r : BusResponse) (s : State) : (respond r s).pending = s.pending := rfl
@[simp] theorem respond_mem (r : BusResponse) (s : State) : (respond r s).mem = s.mem := rfl
@[simp] theorem respond_rst (r : BusResponse) (s : State) : (respond r s).rst = s.rst := rfl
@[simp] theorem respond_bus (r : BusResponse) (s : State) : (respond r s).bus = some r := rfl
@[simp] theorem respond_inputs (r : BusResponse) (s : State) : (respond r s).inputs = s.inputs := rfl
@[simp] theorem respond_epoch (r : BusResponse) (s : State) : (respond r s).epoch = s.epoch := rfl
@[simp] theorem respond_draws (r : BusResponse) (s : State) : (respond r s).draws = s.draws := rfl

/-! ## `readError` -/

@[simp] theorem readError_ieDone (s : State) : (readError s).ieDone = s.ieDone := rfl
@[simp] theorem readError_ieErr (s : State) : (readError s).ieErr = s.ieErr := rfl
@[simp] theorem readError_busy (s : State) : (readError s).busy = s.busy := rfl
@[simp] theorem readError_done (s : State) : (readError s).done = s.done := rfl
@[simp] theorem readError_err (s : State) : (readError s).err = s.err := rfl
@[simp] theorem readError_drop (s : State) : (readError s).drop = s.drop := rfl
@[simp] theorem readError_errCode (s : State) : (readError s).errCode = s.errCode := rfl
@[simp] theorem readError_errInfo (s : State) : (readError s).errInfo = s.errInfo := rfl
@[simp] theorem readError_n (s : State) : (readError s).n = s.n := rfl
@[simp] theorem readError_adcRes (s : State) : (readError s).adcRes = s.adcRes := rfl
@[simp] theorem readError_boardRef (s : State) : (readError s).boardRef = s.boardRef := rfl
@[simp] theorem readError_gridV (s : State) : (readError s).gridV = s.gridV := rfl
@[simp] theorem readError_xfmrV (s : State) : (readError s).xfmrV = s.xfmrV := rfl
@[simp] theorem readError_acAcc (s : State) : (readError s).acAcc = s.acAcc := rfl
@[simp] theorem readError_batchTs (s : State) : (readError s).batchTs = s.batchTs := rfl
@[simp] theorem readError_resTs (s : State) : (readError s).resTs = s.resTs := rfl
@[simp] theorem readError_resValid (s : State) : (readError s).resValid = s.resValid := rfl
@[simp] theorem readError_repVrms (s : State) : (readError s).repVrms = s.repVrms := rfl
@[simp] theorem readError_vrecStatus (s : State) : (readError s).vrecStatus = s.vrecStatus := rfl
@[simp] theorem readError_phase (s : State) : (readError s).phase = s.phase := rfl
@[simp] theorem readError_curAcc (s : State) : (readError s).curAcc = s.curAcc := rfl
@[simp] theorem readError_results (s : State) : (readError s).results = s.results := rfl
@[simp] theorem readError_dbg (s : State) : (readError s).dbg = s.dbg := rfl
@[simp] theorem readError_pending (s : State) : (readError s).pending = s.pending := rfl
@[simp] theorem readError_mem (s : State) : (readError s).mem = s.mem := rfl
@[simp] theorem readError_rst (s : State) : (readError s).rst = s.rst := rfl
@[simp] theorem readError_bus (s : State) : (readError s).bus = some (.read true (Config.errorReadData s.draws)) := rfl
@[simp] theorem readError_inputs (s : State) : (readError s).inputs = s.inputs := rfl
@[simp] theorem readError_epoch (s : State) : (readError s).epoch = s.epoch := rfl
@[simp] theorem readError_draws (s : State) : (readError s).draws = s.draws + 1 := rfl

/-! ## `commitRecon` -/

@[simp] theorem commitRecon_ieDone (k : Channel) (ws : List Word) (s : State) : (commitRecon k ws s).ieDone = s.ieDone := rfl
@[simp] theorem commitRecon_ieErr (k : Channel) (ws : List Word) (s : State) : (commitRecon k ws s).ieErr = s.ieErr := rfl
@[simp] theorem commitRecon_busy (k : Channel) (ws : List Word) (s : State) : (commitRecon k ws s).busy = s.busy := rfl
@[simp] theorem commitRecon_done (k : Channel) (ws : List Word) (s : State) : (commitRecon k ws s).done = true := rfl
@[simp] theorem commitRecon_err (k : Channel) (ws : List Word) (s : State) : (commitRecon k ws s).err = s.err := rfl
@[simp] theorem commitRecon_drop (k : Channel) (ws : List Word) (s : State) : (commitRecon k ws s).drop = s.drop := rfl
@[simp] theorem commitRecon_errCode (k : Channel) (ws : List Word) (s : State) : (commitRecon k ws s).errCode = s.errCode := rfl
@[simp] theorem commitRecon_errInfo (k : Channel) (ws : List Word) (s : State) : (commitRecon k ws s).errInfo = s.errInfo := rfl
@[simp] theorem commitRecon_n (k : Channel) (ws : List Word) (s : State) : (commitRecon k ws s).n = s.n := rfl
@[simp] theorem commitRecon_adcRes (k : Channel) (ws : List Word) (s : State) : (commitRecon k ws s).adcRes = s.adcRes := rfl
@[simp] theorem commitRecon_boardRef (k : Channel) (ws : List Word) (s : State) : (commitRecon k ws s).boardRef = s.boardRef := rfl
@[simp] theorem commitRecon_gridV (k : Channel) (ws : List Word) (s : State) : (commitRecon k ws s).gridV = s.gridV := rfl
@[simp] theorem commitRecon_xfmrV (k : Channel) (ws : List Word) (s : State) : (commitRecon k ws s).xfmrV = s.xfmrV := rfl
@[simp] theorem commitRecon_acAcc (k : Channel) (ws : List Word) (s : State) : (commitRecon k ws s).acAcc = s.acAcc := rfl
@[simp] theorem commitRecon_batchTs (k : Channel) (ws : List Word) (s : State) : (commitRecon k ws s).batchTs = s.batchTs := rfl
@[simp] theorem commitRecon_resTs (k : Channel) (ws : List Word) (s : State) : (commitRecon k ws s).resTs = s.resTs := rfl
@[simp] theorem commitRecon_resValid (k : Channel) (ws : List Word) (s : State) : (commitRecon k ws s).resValid = s.resValid := rfl
@[simp] theorem commitRecon_repVrms (k : Channel) (ws : List Word) (s : State) : (commitRecon k ws s).repVrms = s.repVrms := rfl
@[simp] theorem commitRecon_vrecStatus (k : Channel) (ws : List Word) (s : State) : (commitRecon k ws s).vrecStatus = ⟨s.n, channelNumber k, true⟩ := rfl
@[simp] theorem commitRecon_phase (k : Channel) (ws : List Word) (s : State) : (commitRecon k ws s).phase = s.phase := rfl
@[simp] theorem commitRecon_curAcc (k : Channel) (ws : List Word) (s : State) : (commitRecon k ws s).curAcc = s.curAcc := rfl
@[simp] theorem commitRecon_results (k : Channel) (ws : List Word) (s : State) : (commitRecon k ws s).results = s.results := rfl
@[simp] theorem commitRecon_dbg (k : Channel) (ws : List Word) (s : State) : (commitRecon k ws s).dbg = s.dbg := rfl
@[simp] theorem commitRecon_pending (k : Channel) (ws : List Word) (s : State) : (commitRecon k ws s).pending = s.pending := rfl
@[simp] theorem commitRecon_mem (k : Channel) (ws : List Word) (s : State) : (commitRecon k ws s).mem = s.mem.storeVrec 0 ws := rfl
@[simp] theorem commitRecon_rst (k : Channel) (ws : List Word) (s : State) : (commitRecon k ws s).rst = s.rst := rfl
@[simp] theorem commitRecon_bus (k : Channel) (ws : List Word) (s : State) : (commitRecon k ws s).bus = s.bus := rfl
@[simp] theorem commitRecon_inputs (k : Channel) (ws : List Word) (s : State) : (commitRecon k ws s).inputs = s.inputs := rfl
@[simp] theorem commitRecon_epoch (k : Channel) (ws : List Word) (s : State) : (commitRecon k ws s).epoch = s.epoch := rfl
@[simp] theorem commitRecon_draws (k : Channel) (ws : List Word) (s : State) : (commitRecon k ws s).draws = s.draws := rfl

/-! ## `commitCalc` -/

@[simp] theorem commitCalc_ieDone (k : Channel) (r : Reading × Debug) (s : State) : (commitCalc k r s).ieDone = s.ieDone := rfl
@[simp] theorem commitCalc_ieErr (k : Channel) (r : Reading × Debug) (s : State) : (commitCalc k r s).ieErr = s.ieErr := rfl
@[simp] theorem commitCalc_busy (k : Channel) (r : Reading × Debug) (s : State) : (commitCalc k r s).busy = s.busy := rfl
@[simp] theorem commitCalc_done (k : Channel) (r : Reading × Debug) (s : State) : (commitCalc k r s).done = true := rfl
@[simp] theorem commitCalc_err (k : Channel) (r : Reading × Debug) (s : State) : (commitCalc k r s).err = s.err := rfl
@[simp] theorem commitCalc_drop (k : Channel) (r : Reading × Debug) (s : State) : (commitCalc k r s).drop = s.drop := rfl
@[simp] theorem commitCalc_errCode (k : Channel) (r : Reading × Debug) (s : State) : (commitCalc k r s).errCode = s.errCode := rfl
@[simp] theorem commitCalc_errInfo (k : Channel) (r : Reading × Debug) (s : State) : (commitCalc k r s).errInfo = s.errInfo := rfl
@[simp] theorem commitCalc_n (k : Channel) (r : Reading × Debug) (s : State) : (commitCalc k r s).n = s.n := rfl
@[simp] theorem commitCalc_adcRes (k : Channel) (r : Reading × Debug) (s : State) : (commitCalc k r s).adcRes = s.adcRes := rfl
@[simp] theorem commitCalc_boardRef (k : Channel) (r : Reading × Debug) (s : State) : (commitCalc k r s).boardRef = s.boardRef := rfl
@[simp] theorem commitCalc_gridV (k : Channel) (r : Reading × Debug) (s : State) : (commitCalc k r s).gridV = s.gridV := rfl
@[simp] theorem commitCalc_xfmrV (k : Channel) (r : Reading × Debug) (s : State) : (commitCalc k r s).xfmrV = s.xfmrV := rfl
@[simp] theorem commitCalc_acAcc (k : Channel) (r : Reading × Debug) (s : State) : (commitCalc k r s).acAcc = s.acAcc := rfl
@[simp] theorem commitCalc_batchTs (k : Channel) (r : Reading × Debug) (s : State) : (commitCalc k r s).batchTs = s.batchTs := rfl
@[simp] theorem commitCalc_resTs (k : Channel) (r : Reading × Debug) (s : State) : (commitCalc k r s).resTs = s.batchTs := rfl
@[simp] theorem commitCalc_resValid (k : Channel) (r : Reading × Debug) (s : State) : (commitCalc k r s).resValid = setValid s.resValid k := rfl
@[simp] theorem commitCalc_repVrms (k : Channel) (r : Reading × Debug) (s : State) : (commitCalc k r s).repVrms = s.repVrms := rfl
@[simp] theorem commitCalc_vrecStatus (k : Channel) (r : Reading × Debug) (s : State) : (commitCalc k r s).vrecStatus = s.vrecStatus := rfl
@[simp] theorem commitCalc_phase (k : Channel) (r : Reading × Debug) (s : State) : (commitCalc k r s).phase = s.phase := rfl
@[simp] theorem commitCalc_curAcc (k : Channel) (r : Reading × Debug) (s : State) : (commitCalc k r s).curAcc = s.curAcc := rfl
@[simp] theorem commitCalc_results (k : Channel) (r : Reading × Debug) (s : State) : (commitCalc k r s).results = s.results.set k r.1 := rfl
@[simp] theorem commitCalc_dbg (k : Channel) (r : Reading × Debug) (s : State) : (commitCalc k r s).dbg = r.2 := rfl
@[simp] theorem commitCalc_pending (k : Channel) (r : Reading × Debug) (s : State) : (commitCalc k r s).pending = s.pending := rfl
@[simp] theorem commitCalc_mem (k : Channel) (r : Reading × Debug) (s : State) : (commitCalc k r s).mem = s.mem := rfl
@[simp] theorem commitCalc_rst (k : Channel) (r : Reading × Debug) (s : State) : (commitCalc k r s).rst = s.rst := rfl
@[simp] theorem commitCalc_bus (k : Channel) (r : Reading × Debug) (s : State) : (commitCalc k r s).bus = s.bus := rfl
@[simp] theorem commitCalc_inputs (k : Channel) (r : Reading × Debug) (s : State) : (commitCalc k r s).inputs = s.inputs := rfl
@[simp] theorem commitCalc_epoch (k : Channel) (r : Reading × Debug) (s : State) : (commitCalc k r s).epoch = s.epoch := rfl
@[simp] theorem commitCalc_draws (k : Channel) (r : Reading × Debug) (s : State) : (commitCalc k r s).draws = s.draws := rfl

/-! ## `commitMeasure` -/

@[simp] theorem commitMeasure_ieDone (m : BitVec 6) (rs : List (Channel × Reading × Debug)) (s : State) : (commitMeasure m rs s).ieDone = s.ieDone := rfl
@[simp] theorem commitMeasure_ieErr (m : BitVec 6) (rs : List (Channel × Reading × Debug)) (s : State) : (commitMeasure m rs s).ieErr = s.ieErr := rfl
@[simp] theorem commitMeasure_busy (m : BitVec 6) (rs : List (Channel × Reading × Debug)) (s : State) : (commitMeasure m rs s).busy = s.busy := rfl
@[simp] theorem commitMeasure_done (m : BitVec 6) (rs : List (Channel × Reading × Debug)) (s : State) : (commitMeasure m rs s).done = true := rfl
@[simp] theorem commitMeasure_err (m : BitVec 6) (rs : List (Channel × Reading × Debug)) (s : State) : (commitMeasure m rs s).err = s.err := rfl
@[simp] theorem commitMeasure_drop (m : BitVec 6) (rs : List (Channel × Reading × Debug)) (s : State) : (commitMeasure m rs s).drop = s.drop := rfl
@[simp] theorem commitMeasure_errCode (m : BitVec 6) (rs : List (Channel × Reading × Debug)) (s : State) : (commitMeasure m rs s).errCode = s.errCode := rfl
@[simp] theorem commitMeasure_errInfo (m : BitVec 6) (rs : List (Channel × Reading × Debug)) (s : State) : (commitMeasure m rs s).errInfo = s.errInfo := rfl
@[simp] theorem commitMeasure_n (m : BitVec 6) (rs : List (Channel × Reading × Debug)) (s : State) : (commitMeasure m rs s).n = s.n := rfl
@[simp] theorem commitMeasure_adcRes (m : BitVec 6) (rs : List (Channel × Reading × Debug)) (s : State) : (commitMeasure m rs s).adcRes = s.adcRes := rfl
@[simp] theorem commitMeasure_boardRef (m : BitVec 6) (rs : List (Channel × Reading × Debug)) (s : State) : (commitMeasure m rs s).boardRef = s.boardRef := rfl
@[simp] theorem commitMeasure_gridV (m : BitVec 6) (rs : List (Channel × Reading × Debug)) (s : State) : (commitMeasure m rs s).gridV = s.gridV := rfl
@[simp] theorem commitMeasure_xfmrV (m : BitVec 6) (rs : List (Channel × Reading × Debug)) (s : State) : (commitMeasure m rs s).xfmrV = s.xfmrV := rfl
@[simp] theorem commitMeasure_acAcc (m : BitVec 6) (rs : List (Channel × Reading × Debug)) (s : State) : (commitMeasure m rs s).acAcc = s.acAcc := rfl
@[simp] theorem commitMeasure_batchTs (m : BitVec 6) (rs : List (Channel × Reading × Debug)) (s : State) : (commitMeasure m rs s).batchTs = s.batchTs := rfl
@[simp] theorem commitMeasure_resTs (m : BitVec 6) (rs : List (Channel × Reading × Debug)) (s : State) : (commitMeasure m rs s).resTs = s.batchTs := rfl
@[simp] theorem commitMeasure_resValid (m : BitVec 6) (rs : List (Channel × Reading × Debug)) (s : State) : (commitMeasure m rs s).resValid = m := rfl
@[simp] theorem commitMeasure_repVrms (m : BitVec 6) (rs : List (Channel × Reading × Debug)) (s : State) : (commitMeasure m rs s).repVrms = (rs.head?.map fun r => r.2.1.rmsVoltage).getD s.repVrms := rfl
@[simp] theorem commitMeasure_vrecStatus (m : BitVec 6) (rs : List (Channel × Reading × Debug)) (s : State) : (commitMeasure m rs s).vrecStatus = s.vrecStatus := rfl
@[simp] theorem commitMeasure_phase (m : BitVec 6) (rs : List (Channel × Reading × Debug)) (s : State) : (commitMeasure m rs s).phase = s.phase := rfl
@[simp] theorem commitMeasure_curAcc (m : BitVec 6) (rs : List (Channel × Reading × Debug)) (s : State) : (commitMeasure m rs s).curAcc = s.curAcc := rfl
@[simp] theorem commitMeasure_results (m : BitVec 6) (rs : List (Channel × Reading × Debug)) (s : State) : (commitMeasure m rs s).results = storeReadings rs s.results := rfl
@[simp] theorem commitMeasure_dbg (m : BitVec 6) (rs : List (Channel × Reading × Debug)) (s : State) : (commitMeasure m rs s).dbg = (rs.getLast?.map fun r => r.2.2).getD s.dbg := rfl
@[simp] theorem commitMeasure_pending (m : BitVec 6) (rs : List (Channel × Reading × Debug)) (s : State) : (commitMeasure m rs s).pending = s.pending := rfl
@[simp] theorem commitMeasure_mem (m : BitVec 6) (rs : List (Channel × Reading × Debug)) (s : State) : (commitMeasure m rs s).mem = s.mem := rfl
@[simp] theorem commitMeasure_rst (m : BitVec 6) (rs : List (Channel × Reading × Debug)) (s : State) : (commitMeasure m rs s).rst = s.rst := rfl
@[simp] theorem commitMeasure_bus (m : BitVec 6) (rs : List (Channel × Reading × Debug)) (s : State) : (commitMeasure m rs s).bus = s.bus := rfl
@[simp] theorem commitMeasure_inputs (m : BitVec 6) (rs : List (Channel × Reading × Debug)) (s : State) : (commitMeasure m rs s).inputs = s.inputs := rfl
@[simp] theorem commitMeasure_epoch (m : BitVec 6) (rs : List (Channel × Reading × Debug)) (s : State) : (commitMeasure m rs s).epoch = s.epoch := rfl
@[simp] theorem commitMeasure_draws (m : BitVec 6) (rs : List (Channel × Reading × Debug)) (s : State) : (commitMeasure m rs s).draws = s.draws := rfl

/-! ## `failed` -/

@[simp] theorem failed_ieDone (s : State) (c : ErrCode) (i : ErrInfo) : (s.failed c i).ieDone = s.ieDone := rfl
@[simp] theorem failed_ieErr (s : State) (c : ErrCode) (i : ErrInfo) : (s.failed c i).ieErr = s.ieErr := rfl
@[simp] theorem failed_busy (s : State) (c : ErrCode) (i : ErrInfo) : (s.failed c i).busy = false := rfl
@[simp] theorem failed_done (s : State) (c : ErrCode) (i : ErrInfo) : (s.failed c i).done = s.done := rfl
@[simp] theorem failed_err (s : State) (c : ErrCode) (i : ErrInfo) : (s.failed c i).err = true := rfl
@[simp] theorem failed_drop (s : State) (c : ErrCode) (i : ErrInfo) : (s.failed c i).drop = s.drop := rfl
@[simp] theorem failed_errCode (s : State) (c : ErrCode) (i : ErrInfo) : (s.failed c i).errCode = c := rfl
@[simp] theorem failed_errInfo (s : State) (c : ErrCode) (i : ErrInfo) : (s.failed c i).errInfo = i := rfl
@[simp] theorem failed_n (s : State) (c : ErrCode) (i : ErrInfo) : (s.failed c i).n = s.n := rfl
@[simp] theorem failed_adcRes (s : State) (c : ErrCode) (i : ErrInfo) : (s.failed c i).adcRes = s.adcRes := rfl
@[simp] theorem failed_boardRef (s : State) (c : ErrCode) (i : ErrInfo) : (s.failed c i).boardRef = s.boardRef := rfl
@[simp] theorem failed_gridV (s : State) (c : ErrCode) (i : ErrInfo) : (s.failed c i).gridV = s.gridV := rfl
@[simp] theorem failed_xfmrV (s : State) (c : ErrCode) (i : ErrInfo) : (s.failed c i).xfmrV = s.xfmrV := rfl
@[simp] theorem failed_acAcc (s : State) (c : ErrCode) (i : ErrInfo) : (s.failed c i).acAcc = s.acAcc := rfl
@[simp] theorem failed_batchTs (s : State) (c : ErrCode) (i : ErrInfo) : (s.failed c i).batchTs = s.batchTs := rfl
@[simp] theorem failed_resTs (s : State) (c : ErrCode) (i : ErrInfo) : (s.failed c i).resTs = s.resTs := rfl
@[simp] theorem failed_resValid (s : State) (c : ErrCode) (i : ErrInfo) : (s.failed c i).resValid = s.resValid := rfl
@[simp] theorem failed_repVrms (s : State) (c : ErrCode) (i : ErrInfo) : (s.failed c i).repVrms = s.repVrms := rfl
@[simp] theorem failed_vrecStatus (s : State) (c : ErrCode) (i : ErrInfo) : (s.failed c i).vrecStatus = s.vrecStatus := rfl
@[simp] theorem failed_phase (s : State) (c : ErrCode) (i : ErrInfo) : (s.failed c i).phase = s.phase := rfl
@[simp] theorem failed_curAcc (s : State) (c : ErrCode) (i : ErrInfo) : (s.failed c i).curAcc = s.curAcc := rfl
@[simp] theorem failed_results (s : State) (c : ErrCode) (i : ErrInfo) : (s.failed c i).results = s.results := rfl
@[simp] theorem failed_dbg (s : State) (c : ErrCode) (i : ErrInfo) : (s.failed c i).dbg = s.dbg := rfl
@[simp] theorem failed_pending (s : State) (c : ErrCode) (i : ErrInfo) : (s.failed c i).pending = s.pending := rfl
@[simp] theorem failed_mem (s : State) (c : ErrCode) (i : ErrInfo) : (s.failed c i).mem = s.mem := rfl
@[simp] theorem failed_rst (s : State) (c : ErrCode) (i : ErrInfo) : (s.failed c i).rst = s.rst := rfl
@[simp] theorem failed_bus (s : State) (c : ErrCode) (i : ErrInfo) : (s.failed c i).bus = s.bus := rfl
@[simp] theorem failed_inputs (s : State) (c : ErrCode) (i : ErrInfo) : (s.failed c i).inputs = s.inputs := rfl
@[simp] theorem failed_epoch (s : State) (c : ErrCode) (i : ErrInfo) : (s.failed c i).epoch = s.epoch := rfl
@[simp] theorem failed_draws (s : State) (c : ErrCode) (i : ErrInfo) : (s.failed c i).draws = s.draws := rfl

/-! ## `State.reset` -/

@[simp] theorem reset_ieDone : State.reset.ieDone = false := rfl
@[simp] theorem reset_ieErr : State.reset.ieErr = false := rfl
@[simp] theorem reset_busy : State.reset.busy = false := rfl
@[simp] theorem reset_done : State.reset.done = false := rfl
@[simp] theorem reset_err : State.reset.err = false := rfl
@[simp] theorem reset_drop : State.reset.drop = false := rfl
@[simp] theorem reset_errCode : State.reset.errCode = .none := rfl
@[simp] theorem reset_errInfo : State.reset.errInfo = .zero := rfl
@[simp] theorem reset_n : State.reset.n = 0 := rfl
@[simp] theorem reset_adcRes : State.reset.adcRes = Config.resetAdcRes := rfl
@[simp] theorem reset_boardRef : State.reset.boardRef = 0 := rfl
@[simp] theorem reset_gridV : State.reset.gridV = 0 := rfl
@[simp] theorem reset_xfmrV : State.reset.xfmrV = 0 := rfl
@[simp] theorem reset_acAcc : State.reset.acAcc = Config.one := rfl
@[simp] theorem reset_batchTs : State.reset.batchTs = 0 := rfl
@[simp] theorem reset_resTs : State.reset.resTs = 0 := rfl
@[simp] theorem reset_resValid : State.reset.resValid = 0 := rfl
@[simp] theorem reset_repVrms : State.reset.repVrms = 0 := rfl
@[simp] theorem reset_vrecStatus : State.reset.vrecStatus = .zero := rfl
@[simp] theorem reset_phase : State.reset.phase = Vector.replicate 6 Config.one := rfl
@[simp] theorem reset_curAcc : State.reset.curAcc = Vector.replicate 6 Config.one := rfl
@[simp] theorem reset_results : State.reset.results = Vector.replicate 6 .zero := rfl
@[simp] theorem reset_dbg : State.reset.dbg = .zero := rfl
@[simp] theorem reset_mem : State.reset.mem = [] := rfl
@[simp] theorem reset_rst : State.reset.rst = false := rfl
@[simp] theorem reset_bus : State.reset.bus = none := rfl
@[simp] theorem reset_inputs : State.reset.inputs = [] := rfl
@[simp] theorem reset_epoch : State.reset.epoch = 0 := rfl
@[simp] theorem reset_draws : State.reset.draws = 0 := rfl
@[simp] theorem reset_pending : State.reset.pending = 0 := rfl

end Sys2Proof.Machine
end

