-- ==== Sys2Proof/Laws/Memory.lean ====
section
/-! SUPPORT. Laws/Memory.lean: what the memory operations do: a read after a write, every other byte left
alone, and the canonical form kept (20_memory.md R56, R64 item 1). -/

namespace Sys2Proof.Machine

/-! ## One byte -/

theorem Memory.lookup_store (m : Memory) (x y : Nat) (v : Byte) :
    (m.store x v).lookup y = if y = x then some v else m.lookup y := by
  induction m with
  | nil => simp [Memory.store, Memory.lookup]
  | cons c m ih =>
    obtain ⟨a, b⟩ := c
    simp only [Memory.store]
    split_ifs with h1 h2 h3 h4 <;> simp_all [Memory.lookup]

theorem Memory.mem_store {m : Memory} {x : Nat} {v : Byte} {c : Host.Cell} (h : c ∈ m.store x v) :
    c = (x, v) ∨ c ∈ m := by
  induction m with
  | nil => simpa [Memory.store] using h
  | cons d m ih =>
    obtain ⟨a, b⟩ := d
    simp only [Memory.store] at h
    split_ifs at h
    · simpa using h
    · rcases List.mem_cons.1 h with h | h
      · exact .inl h
      · exact .inr (List.mem_cons_of_mem _ h)
    · rcases List.mem_cons.1 h with h | h
      · exact .inr (by simp [h])
      · rcases ih h with h | h
        · exact .inl h
        · exact .inr (List.mem_cons_of_mem _ h)

/-- A byte store keeps the canonical form. -/
theorem Memory.wf_store {m : Memory} (h : m.wf) (x : Nat) (v : Byte) : (m.store x v).wf := by
  induction m with
  | nil => simp [Memory.store, Memory.wf]
  | cons c m ih =>
    obtain ⟨a, b⟩ := c
    have h' := List.pairwise_cons.1 h
    simp only [Memory.store]
    split_ifs with h1 h2
    · refine List.pairwise_cons.2 ⟨fun d hd => ?_, h⟩
      rcases List.mem_cons.1 hd with hd | hd
      · subst hd; exact h1
      · exact h1.trans (h'.1 d hd)
    · subst h2; exact List.pairwise_cons.2 ⟨h'.1, h'.2⟩
    · refine List.pairwise_cons.2 ⟨fun d hd => ?_, ih h'.2⟩
      rcases Memory.mem_store hd with hd | hd
      · subst hd; change a < x; omega
      · exact h'.1 d hd

/-! ## Several bytes -/

theorem Memory.wf_storeBytes {m : Memory} (h : m.wf) (a : Nat) (bs : List Byte) : (m.storeBytes a bs).wf := by
  induction bs generalizing m a with
  | nil => exact h
  | cons b bs ih => exact ih (Memory.wf_store h a b) (a + 1)

theorem Memory.mem_storeBytes {m : Memory} {a : Nat} {bs : List Byte} {c : Host.Cell}
    (h : c ∈ m.storeBytes a bs) : (a ≤ c.1 ∧ c.1 < a + bs.length) ∨ c ∈ m := by
  induction bs generalizing m a with
  | nil => exact .inr h
  | cons b bs ih =>
    rcases ih h with h | h
    · left; simp only [List.length_cons]; omega
    · rcases Memory.mem_store h with h | h
      · left; subst h; simp
      · exact .inr h

theorem Memory.lookup_storeBytes (m : Memory) (a : Nat) (bs : List Byte) (y : Nat) :
    (m.storeBytes a bs).lookup y = if a ≤ y ∧ y < a + bs.length then bs[y - a]? else m.lookup y := by
  induction bs generalizing m a with
  | nil =>
    have : ¬ (a ≤ y ∧ y < a) := by omega
    simp [Memory.storeBytes, this]
  | cons b bs ih =>
    simp only [Memory.storeBytes, ih, Memory.lookup_store, List.length_cons]
    rcases Nat.lt_trichotomy y a with h | h | h
    · have h1 : ¬ (a + 1 ≤ y ∧ y < a + 1 + bs.length) := by omega
      have h2 : ¬ (a ≤ y ∧ y < a + (bs.length + 1)) := by omega
      have h3 : y ≠ a := by omega
      rw [if_neg h1, if_neg h2, if_neg h3]
    · subst h
      simp
    · have h3 : y ≠ a := by omega
      have h4 : y - a = y - (a + 1) + 1 := by omega
      rw [if_neg h3, h4, List.getElem?_cons_succ]
      by_cases h1 : a + 1 ≤ y ∧ y < a + 1 + bs.length
      · rw [if_pos h1, if_pos (by omega)]
      · rw [if_neg h1, if_neg (by omega)]

/-! ## Words -/

@[simp] theorem length_bytesOfWord (k : Nat) (w : Word) : (bytesOfWord k w).length = k := by
  induction k generalizing w with
  | zero => rfl
  | succ k ih => simp [bytesOfWord, ih]

theorem getElem?_bytesOfWord (k : Nat) (w : Word) (j : Nat) (h : j < k) :
    (bytesOfWord k w)[j]? = some (w.extractLsb' (8 * j) 8) := by
  induction k generalizing w j with
  | zero => omega
  | succ k ih =>
    cases j with
    | zero =>
      simp only [bytesOfWord, List.getElem?_cons_zero, Option.some.injEq]
      apply BitVec.eq_of_getLsbD_eq; intro i hi; simp [hi]
    | succ j =>
      rw [bytesOfWord, List.getElem?_cons_succ, ih _ _ (by omega)]
      congr 1
      apply BitVec.eq_of_getLsbD_eq; intro i hi
      simp [hi]; congr 1; omega

theorem getLsbD_wordOfBytes (bs : List Byte) (i : Nat) :
    (wordOfBytes bs).getLsbD i = (decide (i < 64) && ((bs[i / 8]?).getD 0).getLsbD (i % 8)) := by
  induction bs generalizing i with
  | nil => simp [wordOfBytes]
  | cons b bs ih =>
    simp only [wordOfBytes, BitVec.getLsbD_or, BitVec.getLsbD_setWidth, BitVec.getLsbD_shiftLeft, ih]
    rcases Nat.lt_or_ge i 8 with h | h
    · simp [h, Nat.div_eq_of_lt h, Nat.mod_eq_of_lt h]
    · have e : i / 8 = (i - 8) / 8 + 1 := by omega
      have e2 : (i - 8) % 8 = i % 8 := by omega
      have e3 : (decide (i < 64) && decide (i - 8 < 64)) = decide (i < 64) := by
        by_cases h64 : i < 64
        · have : i - 8 < 64 := by omega
          simp [h64, this]
        · simp [h64]
      rw [e, List.getElem?_cons_succ, BitVec.getLsbD_of_ge b i h, e2, ← e3]
      simp [Nat.not_lt.2 h, Bool.and_assoc]

/-- Laying a word out in eight bytes and reading it back is the identity (R56). -/
theorem wordOfBytes_bytesOfWord (w : Word) : wordOfBytes (bytesOfWord 8 w) = w := by
  apply BitVec.eq_of_getLsbD_eq; intro i hi
  rw [getLsbD_wordOfBytes, getElem?_bytesOfWord _ _ _ (by omega)]
  have h1 : i % 8 < 8 := by omega
  have h2 : 8 * (i / 8) + i % 8 = i := by omega
  simp [hi, h1, h2]

theorem Memory.wf_storeWord {m : Memory} (h : m.wf) (a : Nat) (w : Word) : (m.storeWord a w).wf :=
  Memory.wf_storeBytes h a _

theorem Memory.mem_storeWord {m : Memory} {a : Nat} {w : Word} {c : Host.Cell} (h : c ∈ m.storeWord a w) :
    (a ≤ c.1 ∧ c.1 < a + 8) ∨ c ∈ m := by
  simpa using Memory.mem_storeBytes h

/-- What each byte is after a word store: byte `j` of the word, or as before. -/
theorem Memory.lookup_storeWord (m : Memory) (a : Nat) (w : Word) (y : Nat) :
    (m.storeWord a w).lookup y =
      if a ≤ y ∧ y < a + 8 then some (w.extractLsb' (8 * (y - a)) 8) else m.lookup y := by
  rw [Memory.storeWord, Memory.lookup_storeBytes, length_bytesOfWord]
  split_ifs with h
  · exact getElem?_bytesOfWord _ _ _ (by omega)
  · rfl

/-! ## VREC -/

theorem Memory.wf_storeVrec {m : Memory} (h : m.wf) (i : Nat) (ws : List Word) : (m.storeVrec i ws).wf := by
  induction ws generalizing m i with
  | nil => exact h
  | cons w ws ih => exact ih (Memory.wf_storeWord h _ w) (i + 1)

theorem Memory.mem_storeVrec {m : Memory} {i : Nat} {ws : List Word} {c : Host.Cell}
    (h : c ∈ m.storeVrec i ws) :
    (vrecBase + 8 * i ≤ c.1 ∧ c.1 < vrecBase + 8 * (i + ws.length)) ∨ c ∈ m := by
  induction ws generalizing m i with
  | nil => exact .inr h
  | cons w ws ih =>
    rcases ih h with h | h
    · left; simp only [List.length_cons]; omega
    · rcases Memory.mem_storeWord h with h | h
      · left; simp only [List.length_cons]; omega
      · exact .inr h

/-- Storing VREC entries leaves every other byte alone. -/
theorem Memory.lookup_storeVrec_of_not (m : Memory) (i : Nat) (ws : List Word) (y : Nat)
    (h : ¬ (vrecBase + 8 * i ≤ y ∧ y < vrecBase + 8 * (i + ws.length))) :
    (m.storeVrec i ws).lookup y = m.lookup y := by
  induction ws generalizing m i with
  | nil => rfl
  | cons w ws ih =>
    simp only [List.length_cons] at h
    rw [Memory.storeVrec, ih _ _ (by omega), Memory.lookup_storeWord, if_neg (by omega)]

/-- Entry `i + j` holds the `j`-th word stored. -/
theorem Memory.lookup_storeVrec (m : Memory) (i : Nat) (ws : List Word) (j b : Nat) (hj : j < ws.length)
    (hb : b < 8) :
    (m.storeVrec i ws).lookup (vrecBase + 8 * (i + j) + b) = some ((ws[j]).extractLsb' (8 * b) 8) := by
  induction ws generalizing m i j with
  | nil => simp at hj
  | cons w ws ih =>
    cases j with
    | zero =>
      rw [Memory.storeVrec, Memory.lookup_storeVrec_of_not _ _ _ _ (by omega), Memory.lookup_storeWord,
        if_pos (by omega)]
      simp
    | succ j =>
      have := ih (m.storeWord (vrecBase + 8 * i) w) (i + 1) j (by simpa using hj)
      rw [Memory.storeVrec, show i + (j + 1) = i + 1 + j by omega, this]
      simp

/-! ## Reads of the state -/

/-- A word whose eight stored bytes are those of `w` reads as `w`. -/
theorem State.wordAt_eq (s : State) (a : Nat) (w : Word)
    (h : ∀ j, j < 8 → s.byteAt (a + j) = w.extractLsb' (8 * j) 8) : s.wordAt a = w := by
  have e : ((List.range 8).map fun j => s.byteAt (a + j)) = bytesOfWord 8 w := by
    apply List.ext_getElem?
    intro j
    by_cases hj : j < 8
    · rw [getElem?_bytesOfWord _ _ _ hj, List.getElem?_map, List.getElem?_range hj]
      simp [h j hj]
    · rw [List.getElem?_eq_none (by simp; omega), List.getElem?_eq_none (by simp; omega)]
  rw [State.wordAt, e, wordOfBytes_bytesOfWord]

/-- Two states with the same eight bytes read the same word there. -/
theorem State.wordAt_congr (s t : State) (a : Nat) (h : ∀ j, j < 8 → t.byteAt (a + j) = s.byteAt (a + j)) :
    t.wordAt a = s.wordAt a := by
  unfold State.wordAt
  congr 1
  apply List.map_congr_left
  intro j hj
  exact h j (List.mem_range.1 hj)

theorem State.codeAt_congr (s t : State) (a : Nat) (h0 : t.byteAt a = s.byteAt a)
    (h1 : t.byteAt (a + 1) = s.byteAt (a + 1)) : t.codeAt a = s.codeAt a := by
  simp [State.codeAt, h0, h1]

/-- A word is its four codes, the first in the low bits (R57). -/
theorem State.wordAt_codes (s : State) (a : Nat) :
    s.wordAt a = s.codeAt (a + 6) ++ s.codeAt (a + 4) ++ s.codeAt (a + 2) ++ s.codeAt a := by
  apply State.wordAt_eq
  intro j hj
  apply BitVec.eq_of_getLsbD_eq
  intro i hi
  simp only [State.codeAt, BitVec.getLsbD_extractLsb', hi, decide_true, Bool.true_and]
  interval_cases j <;> simp only [BitVec.getLsbD_append] <;> split_ifs <;> first | omega | (congr 1; omega)

/-- The bytes after RECON's commit outside VREC[0..N). -/
theorem byteAt_commitRecon_of_not (k : Channel) (ws : List Word) (s : State) (a : Nat)
    (h : ¬ (vrecBase ≤ a ∧ a < vrecBase + 8 * ws.length)) :
    (commitRecon k ws s).byteAt a = s.byteAt a := by
  simp only [State.byteAt, commitRecon_mem, commitRecon_epoch]
  rw [Memory.lookup_storeVrec_of_not _ _ _ _ (by omega)]

/-- VREC after RECON's commit (R88). -/
theorem vrec_commitRecon (k : Channel) (ws : List Word) (s : State) (j : Nat) (hj : j < ws.length) :
    (commitRecon k ws s).vrec j = ws[j] := by
  apply State.wordAt_eq
  intro b hb
  have := Memory.lookup_storeVrec s.mem 0 ws j b hj hb
  rw [Nat.zero_add] at this
  simp [State.byteAt, this]

/-- The memory of the reset state has the canonical form. -/
theorem reset_mem_wf : State.reset.mem.wf := List.Pairwise.nil

end Sys2Proof.Machine
end

