-- ==== Sys2Proof/Laws/Exec.lean ====
section
/-! SUPPORT. Laws/Exec.lean: one lemma for each shared operation of the queued commands that says once what it
can answer, so that later proofs cite it and unfold nothing. -/

namespace Sys2Proof.Machine

/-! ## Sequencing of checks -/

@[simp] theorem except_ok_bind {ε α β : Type} (a : α) (f : α → Except ε β) : (Except.ok a >>= f) = f a := rfl

@[simp] theorem except_error_bind {ε α β : Type} (e : ε) (f : α → Except ε β) :
    (Except.error e >>= f) = .error e := rfl

@[simp] theorem except_pure {ε α : Type} (a : α) : (pure a : Except ε α) = .ok a := rfl

/-- A sequence of checks answers a value exactly when its first check does and the rest does. -/
theorem except_bind_eq_ok {ε α β : Type} {x : Except ε α} {f : α → Except ε β} {b : β} :
    (x >>= f) = .ok b ↔ ∃ a, x = .ok a ∧ f a = .ok b := by
  cases x <;> simp

/-- A sequence of checks raises what its first failing check raises. -/
theorem except_bind_eq_error {ε α β : Type} {x : Except ε α} {f : α → Except ε β} {e : ε} :
    (x >>= f) = .error e ↔ x = .error e ∨ ∃ a, x = .ok a ∧ f a = .error e := by
  cases x <;> simp

/-! ## Operands -/

@[simp] theorem channelOf_number (k : Channel) : channelOf (k.val + 1) = some k := by
  have : 1 ≤ k.val + 1 ∧ k.val + 1 ≤ 6 := by omega
  simp [channelOf]

theorem channelOf_eq_some {ch : Nat} {k : Channel} : channelOf ch = some k ↔ ch = k.val + 1 := by
  constructor
  · intro h
    unfold channelOf at h
    split at h
    · rename_i h'
      have := Option.some.inj h
      subst this
      simp only
      omega
    · simp at h
  · rintro rfl; simp

theorem channelOf_eq_none {ch : Nat} : channelOf ch = none ↔ ¬ (1 ≤ ch ∧ ch ≤ 6) := by
  unfold channelOf; split <;> simp_all

@[simp] theorem needChannel_number (k : Channel) : needChannel (k.val + 1) = .ok k := by
  simp [needChannel]

theorem needChannel_of_not {ch : Nat} (h : ¬ (1 ≤ ch ∧ ch ≤ 6)) :
    needChannel ch = .error ⟨.badChan, .validation, BitVec.ofNat 3 ch, .none, 0⟩ := by
  simp [needChannel, channelOf_eq_none.2 h]

theorem needLength_ok {s : State} (h : s.legalBatch) : needLength s = .ok () := if_pos h

theorem needLength_error {s : State} (h : ¬ s.legalBatch) :
    needLength s = .error ⟨.len, .validation, 0, .none, 0⟩ := if_neg h

theorem needMatch_ok {s : State} {k : Channel} (h : s.vrecTagged k) : needMatch s k = .ok () := if_pos h

theorem needMatch_error {s : State} {k : Channel} (h : ¬ s.vrecTagged k) :
    needMatch s k = .error ⟨.mismatch, .validation, channelNumber k, .voltage, 0⟩ := if_neg h

theorem needMask_of_ne {m : BitVec 6} (h : m ≠ 0) : needMask m = .ok (maskChannels m) := if_neg h

/-- A channel is listed exactly when its mask bit is set (R76). -/
theorem mem_maskChannels {m : BitVec 6} {k : Channel} : k ∈ maskChannels m ↔ m.getLsbD k.val = true := by
  simp only [maskChannels, List.mem_filter, and_iff_right_iff_imp]
  intro _
  fin_cases k <;> simp

/-- The channels are listed in increasing order (R76, R102). -/
theorem maskChannels_sorted (m : BitVec 6) : (maskChannels m).Pairwise (· < ·) :=
  List.Pairwise.filter _ (by decide)

theorem maskChannels_single (k : Channel) : maskChannels (1#6 <<< k.val) = [k] := by
  fin_cases k <;> decide

theorem single_ne_zero (k : Channel) : (1#6 <<< k.val) ≠ 0 := by
  fin_cases k <;> decide

/-- The number of a channel is in 1..6. -/
theorem channelNumber_toNat (k : Channel) : (channelNumber k).toNat = k.val + 1 := by
  fin_cases k <;> rfl

theorem channelNumber_inj {j k : Channel} : channelNumber j = channelNumber k ↔ j = k := by
  constructor
  · intro h
    have := congrArg BitVec.toNat h
    rw [channelNumber_toNat, channelNumber_toNat] at this
    exact Fin.ext (by omega)
  · rintro rfl; rfl

/-! ## The end of an engine step -/

@[simp] theorem opField_encode (i : Instr) : opField (encode i) = i.opcode := by
  cases i <;> simp [encode]

/-- A command that raises leaves the error entry on the state before it (R108, R116). -/
theorem finishQueued_error (w : Word) (s : State) (e : CmdError) :
    finishQueued w s (.error e) =
      s.failed e.code ⟨BitVec.ofNat 16 e.index, e.channel, e.stage, e.seq, opField w⟩ := rfl

theorem finishQueued_ok (w : Word) (s t : State) : finishQueued w s (.ok t) = { t with busy := false } := rfl

/-! ## RECON -/

theorem reconCommand_number (k : Channel) {s : State} (h : s.legalBatch) :
    reconCommand (k.val + 1) s =
      match s.reconstruct k with
      | .ok ws => .ok (commitRecon k ws s)
      | .error e => .error e := by
  cases hr : s.reconstruct k <;> simp [reconCommand, needLength_ok h, hr]

/-- Everything a successful RECON can be (R88). -/
theorem reconCommand_eq_ok {ch : Nat} {s t : State} :
    reconCommand ch s = .ok t ↔
      ∃ k ws, ch = k.val + 1 ∧ s.legalBatch ∧ s.reconstruct k = .ok ws ∧ t = commitRecon k ws s := by
  constructor
  · intro h
    by_cases hc : 1 ≤ ch ∧ ch ≤ 6
    · obtain ⟨k, hk⟩ : ∃ k, channelOf ch = some k := Option.ne_none_iff_exists'.1 fun e => (channelOf_eq_none.1 e) hc
      obtain rfl := channelOf_eq_some.1 hk
      by_cases hl : s.legalBatch
      · rw [reconCommand_number k hl] at h
        split at h
        · exact ⟨k, _, rfl, hl, by assumption, (Except.ok.inj h).symm⟩
        · cases h
      · simp [reconCommand, needLength_error hl] at h
    · simp [reconCommand, needChannel_of_not hc] at h
  · rintro ⟨k, ws, rfl, hl, hr, rfl⟩
    rw [reconCommand_number k hl, hr]

/-! ## CALC -/

theorem calcCommand_number (k : Channel) {s : State} (h : s.legalBatch) (hm : s.vrecTagged k) :
    calcCommand (k.val + 1) s =
      match s.calculate k s.vrecSeq with
      | .ok r => .ok (commitCalc k r s)
      | .error e => .error e := by
  cases hr : s.calculate k s.vrecSeq <;> simp [calcCommand, needLength_ok h, needMatch_ok hm, hr]

/-- Everything a successful CALC can be (R101). -/
theorem calcCommand_eq_ok {ch : Nat} {s t : State} :
    calcCommand ch s = .ok t ↔
      ∃ k r, ch = k.val + 1 ∧ s.legalBatch ∧ s.vrecTagged k ∧ s.calculate k s.vrecSeq = .ok r ∧
        t = commitCalc k r s := by
  constructor
  · intro h
    by_cases hc : 1 ≤ ch ∧ ch ≤ 6
    · obtain ⟨k, hk⟩ : ∃ k, channelOf ch = some k := Option.ne_none_iff_exists'.1 fun e => (channelOf_eq_none.1 e) hc
      obtain rfl := channelOf_eq_some.1 hk
      by_cases hl : s.legalBatch
      · by_cases hm : s.vrecTagged k
        · rw [calcCommand_number k hl hm] at h
          split at h
          · exact ⟨k, _, rfl, hl, hm, by assumption, (Except.ok.inj h).symm⟩
          · cases h
        · simp [calcCommand, needLength_ok hl, needMatch_error hm] at h
      · simp [calcCommand, needLength_error hl] at h
    · simp [calcCommand, needChannel_of_not hc] at h
  · rintro ⟨k, r, rfl, hl, hm, hr, rfl⟩
    rw [calcCommand_number k hl hm, hr]

/-! ## MEASURE -/

theorem measureCommand_legal {m : BitVec 6} {s : State} (hm : m ≠ 0) (h : s.legalBatch) :
    measureCommand m s =
      match s.measureAll (maskChannels m) with
      | .ok rs => .ok (commitMeasure m rs s)
      | .error e => .error e := by
  cases hr : s.measureAll (maskChannels m) <;>
    simp [measureCommand, needMask_of_ne hm, needLength_ok h, hr]

/-- Everything a successful MEASURE can be (R102). -/
theorem measureCommand_eq_ok {m : BitVec 6} {s t : State} :
    measureCommand m s = .ok t ↔
      ∃ rs, m ≠ 0 ∧ s.legalBatch ∧ s.measureAll (maskChannels m) = .ok rs ∧ t = commitMeasure m rs s := by
  constructor
  · intro h
    by_cases hm : m = 0
    · subst hm; cases h
    · by_cases hl : s.legalBatch
      · rw [measureCommand_legal hm hl] at h
        split at h
        · exact ⟨_, hm, hl, by assumption, (Except.ok.inj h).symm⟩
        · cases h
      · simp [measureCommand, needMask_of_ne hm, needLength_error hl] at h
  · rintro ⟨rs, hm, hl, hr, rfl⟩
    rw [measureCommand_legal hm hl, hr]

theorem measureAll_cons (s : State) (k : Channel) (ks : List Channel) :
    s.measureAll (k :: ks) =
      match s.measureChannel k with
      | .error e => .error e
      | .ok r =>
        match s.measureAll ks with
        | .ok rest => .ok ((k, r) :: rest)
        | .error e => .error e := by
  cases hk : s.measureChannel k with
  | error e => simp [State.measureAll, hk]
  | ok r => cases hr : s.measureAll ks <;> simp [State.measureAll, hk, hr]

/-- MEASURE's channels all answer readings exactly when each does (R102, R106). -/
theorem measureAll_ok {s : State} {ks : List Channel} {F : Channel → Reading × Debug}
    (h : ∀ k ∈ ks, s.measureChannel k = .ok (F k)) : s.measureAll ks = .ok (ks.map fun k => (k, F k)) := by
  induction ks with
  | nil => rfl
  | cons k ks ih =>
    rw [measureAll_cons, h k List.mem_cons_self, ih fun j hj => h j (List.mem_cons_of_mem _ hj)]
    rfl

theorem measureAll_eq_ok {s : State} {ks : List Channel} {rs : List (Channel × Reading × Debug)}
    (h : s.measureAll ks = .ok rs) :
    rs.map (fun r => r.1) = ks ∧ ∀ r ∈ rs, s.measureChannel r.1 = .ok r.2 := by
  induction ks generalizing rs with
  | nil => cases h; simp
  | cons k ks ih =>
    rw [measureAll_cons] at h
    split at h
    · cases h
    · rename_i r hr
      split at h
      · rename_i rest hrest
        cases h
        obtain ⟨h1, h2⟩ := ih hrest
        refine ⟨by simp [h1], fun q hq => ?_⟩
        rcases List.mem_cons.1 hq with hq | hq
        · subst hq; exact hr
        · exact h2 q hq
      · cases h

/-- The first channel that fails ends MEASURE with its error (R118). -/
theorem measureAll_error {s : State} {js ks : List Channel} {k : Channel} {e : CmdError}
    (hj : ∀ j ∈ js, ∃ r, s.measureChannel j = .ok r) (hk : s.measureChannel k = .error e) :
    s.measureAll (js ++ k :: ks) = .error e := by
  induction js with
  | nil => rw [List.nil_append, measureAll_cons, hk]
  | cons j js ih =>
    obtain ⟨r, hr⟩ := hj j List.mem_cons_self
    rw [List.cons_append, measureAll_cons, hr, ih fun i hi => hj i (List.mem_cons_of_mem _ hi)]

/-- RESULT after the commit: the reading of a channel listed once, the old value of one not listed. -/
theorem getElem_storeReadings (rs : List (Channel × Reading × Debug)) (v : Vector Reading 6) (k : Channel)
    (h : (rs.map fun r => r.1).Nodup) :
    (storeReadings rs v)[k] = ((rs.find? fun r => r.1 = k).map fun r => r.2.1).getD v[k] := by
  induction rs generalizing v with
  | nil => rfl
  | cons r rs ih =>
    obtain ⟨j, q, d⟩ := r
    have h' := List.nodup_cons.1 (by simpa using h : (j :: rs.map fun r => r.1).Nodup)
    rw [storeReadings, ih _ h'.2]
    by_cases hjk : j = k
    · subst hjk
      have : rs.find? (fun r => decide (r.1 = j)) = none := by
        rw [List.find?_eq_none]
        intro r hr
        have := fun e : r.1 = j => h'.1 (List.mem_map.2 ⟨r, hr, e⟩)
        simpa using this
      simp [this]
    · have hne : j.val ≠ k.val := fun e => hjk (Fin.ext e)
      simp [hjk, Vector.getElem_set_ne _ _ hne]

/-! ## What each stage can raise -/

/-- The recurrence raises E_CODE or E_NONFINITE at one of its indices (R84, R115). -/
theorem reconstructFrom_error {adc : BitVec 32} {c : Word} {ch : BitVec 3} {vs : List Code} {i : Nat} {prev : Word}
    {e : CmdError} (h : reconstructFrom adc c ch i prev vs = .error e) :
    ∃ j, i ≤ j ∧ j < i + vs.length ∧
      (e = ⟨.code, .reconstruction, ch, .voltage, j⟩ ∨ e = ⟨.nonFinite, .reconstruction, ch, .voltage, j⟩) := by
  induction vs generalizing i prev with
  | nil => cases h
  | cons v vs ih =>
    simp only [reconstructFrom] at h
    simp only [List.length_cons]
    split_ifs at h
    · cases h; exact ⟨i, by omega, by omega, .inl rfl⟩
    · split at h
      · cases h
      · rename_i e' he
        cases h
        obtain ⟨j, h1, h2, h3⟩ := ih he
        exact ⟨j, by omega, by omega, h3⟩
    · cases h; exact ⟨i, by omega, by omega, .inr rfl⟩

/-- Everything `Reconstruct(k)` can raise (R84, R115). -/
theorem reconstruct_error {s : State} {k : Channel} {e : CmdError} (h : s.reconstruct k = .error e) :
    e = ⟨.config, .reconstruction, channelNumber k, .none, 0⟩ ∨
      ∃ j, j < s.batch ∧ (e = ⟨.code, .reconstruction, channelNumber k, .voltage, j⟩ ∨
        e = ⟨.nonFinite, .reconstruction, channelNumber k, .voltage, j⟩) := by
  unfold State.reconstruct at h
  split_ifs at h
  · cases h; exact .inl rfl
  · cases h; exact .inl rfl
  · right
    have hlen : s.vramSeq.length = s.batch := by simp [State.vramSeq]
    cases hv : s.vramSeq with
    | nil => rw [hv] at h; cases h
    | cons v vs =>
      rw [hv] at h hlen
      rw [List.length_cons] at hlen
      simp only [reconstructSeq] at h
      split_ifs at h
      · cases h; exact ⟨0, by omega, .inl rfl⟩
      · split at h
        · cases h
        · rename_i e' he
          cases h
          obtain ⟨j, h1, h2, h3⟩ := reconstructFrom_error he
          exact ⟨j, by omega, h3⟩

/-- Everything `ScaleFactors(k)` can raise (R92). -/
theorem scaleFactors_error {s : State} {k : Channel} {e : CmdError} (h : s.scaleFactors k = .error e) :
    e = configError k := by
  unfold State.scaleFactors at h
  dsimp only at h
  split_ifs at h <;> exact (Except.error.inj h).symm

/-- The accumulation raises E_CODE or E_NONFINITE at one of its indices (R93, R115). -/
theorem passFrom_error {adc : BitVec 32} {ch : BitVec 3} {xs : List (Code × Word)} {i : Nat} {t : Sums}
    {e : CmdError} (h : passFrom adc ch i t xs = .error e) :
    ∃ j, i ≤ j ∧ j < i + xs.length ∧
      (e = ⟨.code, .pass, ch, .current, j⟩ ∨ e = ⟨.nonFinite, .pass, ch, .none, j⟩) := by
  induction xs generalizing i t with
  | nil => cases h
  | cons x xs ih =>
    obtain ⟨a, b⟩ := x
    simp only [passFrom] at h
    simp only [List.length_cons]
    split_ifs at h
    · cases h; exact ⟨i, by omega, by omega, .inl rfl⟩
    · obtain ⟨j, h1, h2, h3⟩ := ih h
      exact ⟨j, by omega, by omega, h3⟩
    · cases h; exact ⟨i, by omega, by omega, .inr rfl⟩

/-- Everything `Pass(k, W)` can raise (R93, R115). -/
theorem pass_error {s : State} {k : Channel} {ws : List Word} {e : CmdError} (h : s.pass k ws = .error e) :
    ∃ j, j < s.batch ∧ (e = ⟨.code, .pass, channelNumber k, .current, j⟩ ∨
      e = ⟨.nonFinite, .pass, channelNumber k, .none, j⟩) := by
  obtain ⟨j, -, h2, h3⟩ := passFrom_error h
  have : ((s.iramSeq k).zip ws).length ≤ s.batch := by
    rw [List.length_zip]; simp [State.iramSeq]
  exact ⟨j, by omega, h3⟩

theorem needFinite_eq_ok {ch : BitVec 3} {x y : Word} : needFinite ch x = .ok y ↔ isFinite x = true ∧ x = y := by
  unfold needFinite; split <;> simp_all

theorem needFinite_eq_error {ch : BitVec 3} {x : Word} {e : CmdError} :
    needFinite ch x = .error e ↔ isFinite x = false ∧ e = ⟨.nonFinite, .final, ch, .none, 0⟩ := by
  unfold needFinite
  cases isFinite x with
  | true => simp
  | false => exact ⟨fun h => ⟨rfl, (Except.error.inj h).symm⟩, fun h => h.2 ▸ rfl⟩

theorem needRadicand_eq_ok {ch : BitVec 3} {q : Seq} {x : Word} {u : Unit} :
    needRadicand ch q x = .ok u ↔ isNegative x = false := by
  unfold needRadicand; split <;> simp_all

theorem needRadicand_eq_error {ch : BitVec 3} {q : Seq} {x : Word} {e : CmdError} :
    needRadicand ch q x = .error e ↔ isNegative x = true ∧ e = ⟨.domain, .final, ch, q, 0⟩ := by
  unfold needRadicand
  cases isNegative x with
  | true => exact ⟨fun h => ⟨rfl, (Except.error.inj h).symm⟩, fun h => h.2 ▸ rfl⟩
  | false => simp

/-- A check that raises only errors of a list, before a rest that does. -/
theorem except_bind_error_mem {ε α β : Type} {L : List ε} {x : Except ε α} {f : α → Except ε β} {e : ε}
    (h : (x >>= f) = .error e) (hx : ∀ e, x = .error e → e ∈ L) (hf : ∀ a, f a = .error e → e ∈ L) : e ∈ L := by
  rcases except_bind_eq_error.1 h with h | ⟨a, -, h⟩
  · exact hx e h
  · exact hf a h

/-- The errors of the final stage (R115). -/
def finalErrors (ch : BitVec 3) : List CmdError :=
  [⟨.nonFinite, .final, ch, .none, 0⟩, ⟨.domain, .final, ch, .current, 0⟩, ⟨.domain, .final, ch, .voltage, 0⟩]

/-- Everything the final stage can raise (R94 to R100, R115). -/
theorem finalStage_error {ch : BitVec 3} {n : Nat} {cs vs : Word} {t : Sums} {e : CmdError}
    (h : finalStage ch n cs vs t = .error e) : e ∈ finalErrors ch := by
  have hn : ∀ x e, needFinite ch x = .error e → e ∈ finalErrors ch := fun x e h => by
    simp [finalErrors, (needFinite_eq_error.1 h).2]
  have hc : ∀ x e, needRadicand ch .current x = .error e → e ∈ finalErrors ch := fun x e h => by
    simp [finalErrors, (needRadicand_eq_error.1 h).2]
  have hv : ∀ x e, needRadicand ch .voltage x = .error e → e ∈ finalErrors ch := fun x e h => by
    simp [finalErrors, (needRadicand_eq_error.1 h).2]
  unfold finalStage at h
  dsimp only at h
  repeat' first
    | (refine except_bind_error_mem h (hn _) ?_; clear h; intro _ h)
    | (refine except_bind_error_mem h (hc _) ?_; clear h; intro _ h)
    | (refine except_bind_error_mem h (hv _) ?_; clear h; intro _ h)
  cases h

/-- Everything `Calc(k, W)` can raise (R100, R115). -/
theorem calculate_error {s : State} {k : Channel} {ws : List Word} {e : CmdError}
    (h : s.calculate k ws = .error e) :
    e = configError k ∨
      (∃ j, j < s.batch ∧ (e = ⟨.code, .pass, channelNumber k, .current, j⟩ ∨
        e = ⟨.nonFinite, .pass, channelNumber k, .none, j⟩)) ∨
      e ∈ finalErrors (channelNumber k) := by
  unfold State.calculate at h
  rcases except_bind_eq_error.1 h with h | ⟨⟨cs, vs⟩, -, h⟩
  · exact .inl (scaleFactors_error h)
  rcases except_bind_eq_error.1 h with h | ⟨t, -, h⟩
  · exact .inr (.inl (pass_error h))
  · exact .inr (.inr (finalStage_error h))

/-- MEASURE raises what some selected channel raises (R102, R118). -/
theorem measureAll_eq_error {s : State} {ks : List Channel} {e : CmdError} (h : s.measureAll ks = .error e) :
    ∃ k ∈ ks, s.measureChannel k = .error e := by
  induction ks with
  | nil => cases h
  | cons k ks ih =>
    rw [measureAll_cons] at h
    split at h
    · rename_i e' he
      cases h
      exact ⟨k, List.mem_cons_self, he⟩
    · split at h
      · cases h
      · rename_i e' he
        cases h
        obtain ⟨j, h1, h2⟩ := ih he
        exact ⟨j, List.mem_cons_of_mem _ h1, h2⟩

/-- `Calc(k, W)` never raises the code 0 (R114, I18). -/
theorem calculate_error_code {s : State} {k : Channel} {ws : List Word} {e : CmdError}
    (h : s.calculate k ws = .error e) : e.code ≠ .none := by
  rcases calculate_error h with rfl | ⟨j, -, rfl | rfl⟩ | h
  · simp [configError]
  · simp
  · simp
  · simp only [finalErrors, List.mem_cons, List.not_mem_nil, or_false] at h
    rcases h with rfl | rfl | rfl <;> simp

/-- One channel of MEASURE never raises the code 0 (R114, I18). -/
theorem measureChannel_error_code {s : State} {k : Channel} {e : CmdError} (h : s.measureChannel k = .error e) :
    e.code ≠ .none := by
  unfold State.measureChannel at h
  rcases except_bind_eq_error.1 h with h | ⟨ws, -, h⟩
  · rcases reconstruct_error h with rfl | ⟨j, -, rfl | rfl⟩ <;> simp
  · exact calculate_error_code h

/-! ## What each stage answers -/

/-- The recurrence answers one sample for each code (R84). -/
theorem reconstructFrom_length {adc : BitVec 32} {c : Word} {ch : BitVec 3} {vs : List Code} {i : Nat} {prev : Word}
    {ws : List Word} (h : reconstructFrom adc c ch i prev vs = .ok ws) : ws.length = vs.length := by
  induction vs generalizing i prev ws with
  | nil => cases h; rfl
  | cons v vs ih =>
    simp only [reconstructFrom] at h
    split_ifs at h
    split at h
    · rename_i ws' hw
      cases h
      simp [ih hw]
    · cases h

/-- A reconstruction has `N` samples (R84). -/
theorem reconstruct_length {s : State} {k : Channel} {ws : List Word} (h : s.reconstruct k = .ok ws) :
    ws.length = s.batch := by
  have hlen : s.vramSeq.length = s.batch := by simp [State.vramSeq]
  unfold State.reconstruct at h
  split_ifs at h
  cases hv : s.vramSeq with
  | nil => rw [hv] at h hlen; cases h; exact hlen
  | cons v vs =>
    rw [hv] at h hlen
    simp only [reconstructSeq] at h
    split_ifs at h
    split at h
    · rename_i ws' hw
      cases h
      simpa [reconstructFrom_length hw] using hlen
    · cases h

/-- A reconstruction is the recurrence on VRAM with a legal configuration (R84). -/
theorem reconstruct_eq_ok {s : State} {k : Channel} {ws : List Word} :
    s.reconstruct k = .ok ws ↔
      s.adcRes ≠ 0 ∧ isFinite s.phase[k] = true ∧
        reconstructSeq s.adcRes s.phase[k] (channelNumber k) s.vramSeq = .ok ws := by
  unfold State.reconstruct
  split_ifs <;> simp_all

/-- The scale factors are the last two of the seven products, all finite (R91, R92). -/
theorem scaleFactors_eq_ok {s : State} {k : Channel} {f : Word × Word} (h : s.scaleFactors k = .ok f) :
    s.adcRes ≠ 0 ∧ isZero s.xfmrV = false ∧ (scaleProducts s k).1.all isFinite = true ∧ f = (scaleProducts s k).2 := by
  unfold State.scaleFactors at h
  dsimp only at h
  split_ifs at h with h1 h2 h3 h4
  exact ⟨h1, by simpa using h3, h4, (Except.ok.inj h).symm⟩

/-- The accumulators stay finite (R93). -/
def Sums.finite (t : Sums) : Prop :=
  isFinite t.si = true ∧ isFinite t.sv = true ∧ isFinite t.sp = true ∧ isFinite t.sii = true ∧ isFinite t.svv = true

theorem passFrom_finite {adc : BitVec 32} {ch : BitVec 3} {xs : List (Code × Word)} {i : Nat} {t u : Sums}
    (ht : t.finite) (h : passFrom adc ch i t xs = .ok u) : u.finite := by
  induction xs generalizing i t with
  | nil => cases h; exact ht
  | cons x xs ih =>
    obtain ⟨a, b⟩ := x
    simp only [passFrom] at h
    split_ifs at h with h1 h2
    refine ih ?_ h
    simp only [List.all_cons, List.all_nil, Bool.and_true, Bool.and_eq_true] at h2
    exact ⟨h2.1, h2.2.1, h2.2.2.2.1, h2.2.2.2.2.2.1, h2.2.2.2.2.2.2.2⟩

theorem pass_finite {s : State} {k : Channel} {ws : List Word} {t : Sums} (h : s.pass k ws = .ok t) : t.finite :=
  passFrom_finite ⟨by decide, by decide, by decide, by decide, by decide⟩ h

/-- A calculation is its three stages (R100). -/
theorem calculate_eq_ok {s : State} {k : Channel} {ws : List Word} {r : Reading × Debug} :
    s.calculate k ws = .ok r ↔
      ∃ f t, s.scaleFactors k = .ok f ∧ s.pass k ws = .ok t ∧
        finalStage (channelNumber k) s.batch f.1 f.2 t = .ok r := by
  unfold State.calculate
  constructor
  · intro h
    obtain ⟨f, hf, h⟩ := except_bind_eq_ok.1 h
    obtain ⟨t, ht, h⟩ := except_bind_eq_ok.1 h
    exact ⟨f, t, hf, ht, h⟩
  · rintro ⟨f, t, hf, ht, h⟩
    simpa [hf, ht] using h

/-- Everything the final stage answers: each value that of its formula, and every one finite (R94 to R100). -/
theorem finalStage_eq_ok {ch : BitVec 3} {n : Nat} {cs vs : Word} {t : Sums} {r : Reading} {d : Debug}
    (h : finalStage ch n cs vs t = .ok (r, d)) :
    (isFinite r.realPower = true ∧ isFinite r.rmsCurrent = true ∧ isFinite r.rmsVoltage = true ∧
        isFinite r.powerFactor = true ∧ isFinite d.core = true ∧ isFinite d.app = true) ∧
      (let nf := f64 n
       let mI := fdiv t.si nf
       let mV := fdiv t.sv nf
       let radI := fsub (fdiv t.sii nf) (fmul mI mI)
       let radV := fsub (fdiv t.svv nf) (fmul mV mV)
       isNegative radI = false ∧ isNegative radV = false ∧
        d = ⟨ch, t.si, t.sv, t.sp, t.sii, t.svv, fsub (fdiv t.sp nf) (fmul mI mV), fmul r.rmsVoltage r.rmsCurrent⟩ ∧
        r.realPower = fmul (fmul d.core cs) vs ∧ r.rmsCurrent = fmul (fsqrt radI) cs ∧
        r.rmsVoltage = fmul (fsqrt radV) vs ∧ r.powerFactor = powerFactor r.realPower d.app) := by
  unfold finalStage at h
  dsimp only at h
  simp only [except_bind_eq_ok, needFinite_eq_ok, needRadicand_eq_ok] at h
  obtain ⟨_, ⟨-, rfl⟩, _, ⟨-, rfl⟩, _, ⟨-, rfl⟩, _, ⟨-, rfl⟩, _, ⟨-, rfl⟩, _, ⟨-, rfl⟩, _, ⟨h7, rfl⟩, _, ⟨-, rfl⟩,
    _, ⟨h9, rfl⟩, _, ⟨-, rfl⟩, _, ⟨-, rfl⟩, _, h12, _, ⟨-, rfl⟩, _, ⟨h14, rfl⟩, _, ⟨-, rfl⟩, _, ⟨-, rfl⟩, _, h17,
    _, ⟨-, rfl⟩, _, ⟨h19, rfl⟩, _, ⟨h20, rfl⟩, _, ⟨h21, rfl⟩, h⟩ := h
  cases h
  exact ⟨⟨h9, h14, h19, h21, h7, h20⟩, h12, h17, rfl, rfl, rfl, rfl, rfl⟩

end Sys2Proof.Machine
end

