-- ==== Sys2Proof/Laws/Calculator.lean ====
section
/-! SUPPORT. Laws/Calculator.lean: each stage of `Calc(k, W)` in the terms of Safety.lean: the scale factors, the
accumulation pass at each index, and the final stage as its list of checks (41_calculator.md R91 to R100). -/

namespace Sys2Proof.Machine

@[simp] theorem FinalCheck.passes_finite (x : Word) : (FinalCheck.finite x).passes = isFinite x := rfl

@[simp] theorem FinalCheck.passes_radicand (q : Seq) (x : Word) :
    (FinalCheck.radicand q x).passes = !isNegative x := rfl

@[simp] theorem FinalCheck.code_finite (x : Word) : (FinalCheck.finite x).code = .nonFinite := rfl

@[simp] theorem FinalCheck.code_radicand (q : Seq) (x : Word) : (FinalCheck.radicand q x).code = .domain := rfl

@[simp] theorem FinalCheck.seq_finite (x : Word) : (FinalCheck.finite x).seq = .none := rfl

@[simp] theorem FinalCheck.seq_radicand (q : Seq) (x : Word) : (FinalCheck.radicand q x).seq = q := rfl

@[simp] theorem State.sumsTo_zero (s : State) (k : Channel) (W : Nat → Word) : s.sumsTo k W 0 = .zero := rfl

/-- `ScaleFactors(k)` answers exactly where no check of R92 fails, and then the two scales of R91. -/
theorem scaleFactors_iff {s : State} {k : Channel} {f : Word × Word} :
    s.scaleFactors k = .ok f ↔ s.configLegal k ∧ f = (s.currentScale k, s.voltageScale) := by
  have hok : s.configLegal k → s.scaleFactors k = .ok (s.currentScale k, s.voltageScale) := by
    rintro ⟨h1, h2, h3, h4⟩
    unfold State.scaleFactors
    rw [if_neg h1, h2, h3]
    simp only [Bool.not_true, Bool.false_eq_true, if_false]
    exact if_pos h4
  constructor
  · intro h
    have hl : s.configLegal k := by
      unfold State.scaleFactors at h
      dsimp only at h
      split_ifs at h with h1 h2 h3 h4
      exact ⟨h1, by simpa only [Bool.not_eq_true, Bool.not_eq_false'] using h2, by simpa using h3, h4⟩
    rw [hok hl] at h
    exact ⟨hl, (Except.ok.inj h).symm⟩
  · rintro ⟨h, rfl⟩; exact hok h

/-- What the pass sees of `n` samples from index `i` on: the current code and the voltage. -/
def State.samplesFrom (s : State) (k : Channel) (W : Nat → Word) (i n : Nat) : List (Code × Word) :=
  (List.range' i n).map fun j => (s.iram k j, W j)

theorem pass_samples (s : State) (k : Channel) (W : Nat → Word) :
    s.pass k ((List.range s.batch).map W) =
      passFrom s.adcRes (channelNumber k) 0 .zero (s.samplesFrom k W 0 s.batch) := by
  unfold State.pass State.samplesFrom State.iramSeq
  rw [List.zip_map', List.range_eq_range']

/-- One index of the pass (R93). -/
theorem passFrom_samples (s : State) (k : Channel) (W : Nat → Word) (i n : Nat) :
    passFrom s.adcRes (channelNumber k) i (s.sumsTo k W i) (s.samplesFrom k W i (n + 1)) =
      if s.adcRes.toNat ≤ (s.iram k i).toNat then .error ⟨.code, .pass, channelNumber k, .current, i⟩
      else if (s.passResults k W i).all isFinite then
        passFrom s.adcRes (channelNumber k) (i + 1) (s.sumsTo k W (i + 1)) (s.samplesFrom k W (i + 1) n)
      else .error ⟨.nonFinite, .pass, channelNumber k, .none, i⟩ := rfl

/-- The pass up to an index below which no check fails (R93). -/
theorem passFrom_skip {s : State} {k : Channel} {W : Nat → Word} {j : Nat} (n : Nat)
    (h : ∀ i, i < j → s.accumulatesAt k W i) :
    passFrom s.adcRes (channelNumber k) 0 .zero (s.samplesFrom k W 0 (j + n)) =
      passFrom s.adcRes (channelNumber k) j (s.sumsTo k W j) (s.samplesFrom k W j n) := by
  induction j generalizing n with
  | zero => rw [Nat.zero_add]; rfl
  | succ j ih =>
    have hj := h j (Nat.lt_succ_self j)
    rw [Nat.add_right_comm, Nat.add_assoc, ih _ fun i hi => h i (Nat.lt_succ_of_lt hi), passFrom_samples,
      if_neg (Nat.not_le.2 hj.1), if_pos hj.2]

/-- The pass in which no check fails answers the sums (R93). -/
theorem pass_ok {s : State} {k : Channel} {W : Nat → Word} (h : ∀ i, i < s.batch → s.accumulatesAt k W i) :
    s.pass k ((List.range s.batch).map W) = .ok (s.sumsTo k W s.batch) := by
  have h0 := passFrom_skip 0 h
  rw [Nat.add_zero] at h0
  rw [pass_samples, h0]; rfl

/-- The pass stops at the first index at which a check fails (R93, R118). -/
theorem pass_stop {s : State} {k : Channel} {W : Nat → Word} {j : Nat} (hj : j < s.batch)
    (h : ∀ i, i < j → s.accumulatesAt k W i) :
    (s.adcRes.toNat ≤ (s.iram k j).toNat →
      s.pass k ((List.range s.batch).map W) = .error ⟨.code, .pass, channelNumber k, .current, j⟩) ∧
      ((s.iram k j).toNat < s.adcRes.toNat → (s.passResults k W j).all isFinite = false →
        s.pass k ((List.range s.batch).map W) = .error ⟨.nonFinite, .pass, channelNumber k, .none, j⟩) := by
  obtain ⟨n, hn⟩ : ∃ n, s.batch = j + (n + 1) := ⟨s.batch - j - 1, by omega⟩
  rw [pass_samples, hn, passFrom_skip _ h, passFrom_samples]
  refine ⟨fun hc => if_pos hc, fun hc hf => ?_⟩
  rw [if_neg (Nat.not_le.2 hc), if_neg (by rw [hf]; exact Bool.false_ne_true)]

/-- The first failing check of a list gives its error; with none, the answer is `r` (R100). -/
def runChecks {α : Type} (ch : BitVec 3) (r : α) : List FinalCheck → Except CmdError α
  | [] => .ok r
  | c :: cs => if c.passes then runChecks ch r cs else .error ⟨c.code, .final, ch, c.seq, 0⟩

theorem runChecks_eq_ok {α : Type} {ch : BitVec 3} {r x : α} {cs : List FinalCheck} :
    runChecks ch r cs = .ok x ↔ (∀ c ∈ cs, c.passes = true) ∧ r = x := by
  induction cs with
  | nil => simp [runChecks]
  | cons c cs ih =>
    rw [runChecks]
    split
    · rw [ih]; simp_all
    · simp_all

theorem runChecks_error {α : Type} {ch : BitVec 3} {r : α} {before after : List FinalCheck} {c : FinalCheck}
    (hb : ∀ x ∈ before, x.passes = true) (hc : c.passes = false) :
    runChecks ch r (before ++ c :: after) = .error ⟨c.code, .final, ch, c.seq, 0⟩ := by
  induction before with
  | nil => simp [runChecks, hc]
  | cons x before ih =>
    rw [List.cons_append, runChecks, if_pos (hb x List.mem_cons_self)]
    exact ih fun y hy => hb y (List.mem_cons_of_mem _ hy)

theorem needFinite_bind {α : Type} {ch : BitVec 3} {x : Word} {f : Word → Except CmdError α} {r : α}
    {cs : List FinalCheck} (h : f x = runChecks ch r cs) :
    (needFinite ch x >>= f) = runChecks ch r (.finite x :: cs) := by
  change _ = if isFinite x then runChecks ch r cs else .error ⟨.nonFinite, .final, ch, .none, 0⟩
  unfold needFinite
  cases isFinite x
  · rfl
  · exact h

theorem needRadicand_bind {α : Type} {ch : BitVec 3} {q : Seq} {x : Word} {f : Unit → Except CmdError α} {r : α}
    {cs : List FinalCheck} (h : f () = runChecks ch r cs) :
    (needRadicand ch q x >>= f) = runChecks ch r (.radicand q x :: cs) := by
  change _ = if !isNegative x then runChecks ch r cs else .error ⟨.domain, .final, ch, q, 0⟩
  unfold needRadicand
  cases isNegative x
  · exact h
  · rfl

/-- The final stage makes the checks of `finalChecks` in their order and answers the reading of the formulas (R94
to R98, R100). -/
theorem finalStage_checks (s : State) (k : Channel) (W : Nat → Word) :
    finalStage (channelNumber k) s.batch (s.currentScale k) s.voltageScale (s.sumsTo k W s.batch) =
      runChecks (channelNumber k) (s.readingOf k W) (s.finalChecks k W) := by
  unfold finalStage State.finalChecks
  dsimp only
  iterate 11 refine needFinite_bind ?_
  refine needRadicand_bind ?_
  iterate 4 refine needFinite_bind ?_
  refine needRadicand_bind ?_
  iterate 4 refine needFinite_bind ?_
  rfl

end Sys2Proof.Machine
end

