-- ==== Sys2Proof/Laws/Float.lean ====
section
/-! SUPPORT. Laws/Float.lean: what the parts of the binary64 operations are: the fields of a packed pattern, the
magnitude it stands for, the rounded quotient and the integer square root (00_scope.md R9, R10). -/

namespace Sys2Proof.Machine

/-! ## Patterns -/

theorem toNat_packSign (neg : Bool) {m : Nat} (h : m < 2 ^ 63) :
    (packSign neg m).toNat = m + if neg then 2 ^ 63 else 0 := by
  unfold packSign
  rw [BitVec.toNat_ofNat, Nat.mod_eq_of_lt]
  split <;> omega

theorem fSign_packSign (neg : Bool) {m : Nat} (h : m < 2 ^ 63) : fSign (packSign neg m) = neg := by
  have e : fSign (packSign neg m) = decide ((packSign neg m).toNat / 2 ^ 63 % 2 = 1) := by
    rw [fSign, BitVec.getLsbD, Nat.testBit_eq_decide_div_mod_eq]
  rw [e, toNat_packSign neg h]
  cases neg
  · simp; omega
  · simp; omega

theorem fExp_packSign (neg : Bool) {m : Nat} (h : m < 2 ^ 63) : fExp (packSign neg m) = m / 2 ^ 52 := by
  rw [fExp, BitVec.extractLsb'_toNat, toNat_packSign neg h, Nat.shiftRight_eq_div_pow]
  cases neg <;> simp <;> omega

theorem fFrac_packSign (neg : Bool) {m : Nat} (h : m < 2 ^ 63) : fFrac (packSign neg m) = m % 2 ^ 52 := by
  rw [fFrac, BitVec.extractLsb'_toNat, toNat_packSign neg h, Nat.shiftRight_eq_div_pow]
  cases neg <;> simp <;> omega

/-- A pattern is packed from its sign and its low 63 bits. -/
theorem packSign_fields (x : Word) : packSign (fSign x) (fExp x * 2 ^ 52 + fFrac x) = x := by
  have hx := x.isLt
  have e1 : fExp x = x.toNat / 2 ^ 52 % 2 ^ 11 := by
    rw [fExp, BitVec.extractLsb'_toNat, Nat.shiftRight_eq_div_pow]
  have e2 : fFrac x = x.toNat % 2 ^ 52 := by
    rw [fFrac, BitVec.extractLsb'_toNat, Nat.shiftRight_eq_div_pow]; simp
  have e3 : fSign x = decide (x.toNat / 2 ^ 63 % 2 = 1) := by
    rw [fSign, BitVec.getLsbD, Nat.testBit_eq_decide_div_mod_eq]
  apply BitVec.eq_of_toNat_eq
  rw [toNat_packSign _ (by rw [e1, e2]; omega), e1, e2, e3]
  split
  · simp_all
    omega
  · simp_all
    omega

theorem fExp_lt (x : Word) : fExp x < 2048 := BitVec.isLt _

theorem fFrac_lt (x : Word) : fFrac x < 2 ^ 52 := BitVec.isLt _

/-- The pattern of a magnitude in the binade of the unit `2^sh` (R9). -/
theorem fMag_packSign (neg : Bool) {sh f : Nat} (hs : sh < 2046) (hf : f < 2 ^ 52) :
    fMag (packSign neg (sh * 2 ^ 52 + (2 ^ 52 + f))) = (2 ^ 52 + f) * 2 ^ sh := by
  have h : sh * 2 ^ 52 + (2 ^ 52 + f) < 2 ^ 63 := by omega
  have e1 : (sh * 2 ^ 52 + (2 ^ 52 + f)) / 2 ^ 52 = sh + 1 := by omega
  have e2 : (sh * 2 ^ 52 + (2 ^ 52 + f)) % 2 ^ 52 = f := by omega
  rw [fMag, fExp_packSign neg h, fFrac_packSign neg h, e1, e2]
  simp

/-- A magnitude below `2^53` is its own pattern (R9). -/
theorem fMag_packSign_small (neg : Bool) {m : Nat} (hm : m < 2 ^ 53) : fMag (packSign neg m) = m := by
  have h : m < 2 ^ 63 := by omega
  rw [fMag, fExp_packSign neg h, fFrac_packSign neg h]
  rcases Nat.lt_or_ge m (2 ^ 52) with h52 | h52
  · have e : m / 2 ^ 52 = 0 := by omega
    rw [e]; simp; omega
  · have e : m / 2 ^ 52 = 1 := by omega
    rw [e]; simp; omega

theorem isFinite_packSign (neg : Bool) {m : Nat} (h : m < infMagnitude) : isFinite (packSign neg m) = true := by
  unfold infMagnitude at h
  have e := fExp_packSign neg (m := m) (by omega)
  simp only [isFinite, e, bne_iff_ne, ne_eq]
  omega

theorem isFinite_infinity (neg : Bool) : isFinite (infinity neg) = false := by cases neg <;> decide

@[simp] theorem isFinite_quietNaN : isFinite quietNaN = false := by decide

theorem isNaN_of_isFinite {x : Word} (h : isFinite x = true) : isNaN x = false := by
  simp only [isFinite, bne_iff_ne, ne_eq] at h
  simp [isNaN, h]

theorem isInf_of_isFinite {x : Word} (h : isFinite x = true) : isInf x = false := by
  simp only [isFinite, bne_iff_ne, ne_eq] at h
  simp [isInf, h]

/-- A finite value is zero exactly when its magnitude is. -/
theorem isZero_iff_fMag (x : Word) : isZero x = true ↔ fMag x = 0 := by
  simp only [isZero, Bool.and_eq_true, beq_iff_eq, fMag]
  split
  · simp [*]
  · rename_i h
    simp [h]

/-! ## Operations on finite operands -/

theorem fSign_fneg (x : Word) : fSign (fneg x) = !fSign x := by
  simp [fSign, fneg]

theorem fExp_fneg (x : Word) : fExp (fneg x) = fExp x := by
  have : (fneg x).extractLsb' 52 11 = x.extractLsb' 52 11 := by
    apply BitVec.eq_of_getLsbD_eq
    intro i hi
    have e : BitVec.getLsbD (0x8000000000000000 : Word) (52 + i) = false := by interval_cases i <;> decide
    simp only [BitVec.getLsbD_extractLsb', fneg, BitVec.getLsbD_xor, e, Bool.xor_false]
  simp only [fExp, this]

theorem fFrac_fneg (x : Word) : fFrac (fneg x) = fFrac x := by
  have : (fneg x).extractLsb' 0 52 = x.extractLsb' 0 52 := by
    apply BitVec.eq_of_getLsbD_eq
    intro i hi
    have e : BitVec.getLsbD (0x8000000000000000 : Word) (0 + i) = false := by interval_cases i <;> decide
    simp only [BitVec.getLsbD_extractLsb', fneg, BitVec.getLsbD_xor, e, Bool.xor_false]
  simp only [fFrac, this]

theorem isFinite_fneg (x : Word) : isFinite (fneg x) = isFinite x := by simp [isFinite, fExp_fneg]

theorem fVal_fneg (x : Word) : fVal (fneg x) = -fVal x := by
  simp only [fVal, fMag, fSign_fneg, fExp_fneg, fFrac_fneg]
  cases fSign x <;> simp

/-- The sum of finite operands (R10). -/
theorem fadd_finite {x y : Word} (hx : isFinite x = true) (hy : isFinite y = true) :
    fadd x y =
      if fVal x + fVal y = 0 then packSign (fSign x && fSign y) 0
      else roundNearest (decide (fVal x + fVal y < 0)) (fVal x + fVal y).natAbs 1 := by
  simp [fadd, isNaN_of_isFinite hx, isNaN_of_isFinite hy, isInf_of_isFinite hx, isInf_of_isFinite hy]

/-- The product of finite operands (R10). -/
theorem fmul_finite {x y : Word} (hx : isFinite x = true) (hy : isFinite y = true) :
    fmul x y = roundNearest (fSign x != fSign y) (fMag x * fMag y) fUnit := by
  simp [fmul, isNaN_of_isFinite hx, isNaN_of_isFinite hy, isInf_of_isFinite hx, isInf_of_isFinite hy]

/-- The quotient of finite operands by one that is not zero (R10). -/
theorem fdiv_finite {x y : Word} (hx : isFinite x = true) (hy : isFinite y = true) (h0 : isZero y = false) :
    fdiv x y = roundNearest (fSign x != fSign y) (fMag x * fUnit) (fMag y) := by
  simp [fdiv, isNaN_of_isFinite hx, isNaN_of_isFinite hy, isInf_of_isFinite hx, isInf_of_isFinite hy, h0]

/-! ## Rounding -/

/-- The rounded quotient is within half a unit of the exact one, and even on a tie. -/
theorem divNearestEven_spec (a : Nat) {b : Nat} (hb : 0 < b) :
    2 * a ≤ (2 * divNearestEven a b + 1) * b ∧ 2 * divNearestEven a b * b ≤ 2 * a + b ∧
      (2 * a = (2 * divNearestEven a b + 1) * b → divNearestEven a b % 2 = 0) ∧
      (2 * divNearestEven a b * b = 2 * a + b → divNearestEven a b % 2 = 0) := by
  have h1 := Nat.div_add_mod a b
  have h2 := Nat.mod_lt a hb
  unfold divNearestEven
  simp only
  generalize a / b = m at h1 ⊢
  generalize a % b = r at h1 h2 ⊢
  subst h1
  have e1 : (2 * m + 1) * b = 2 * (b * m) + b := by ring
  have e2 : (2 * (m + 1) + 1) * b = 2 * (b * m) + 3 * b := by ring
  have e3 : 2 * m * b = 2 * (b * m) := by ring
  have e4 : 2 * (m + 1) * b = 2 * (b * m) + 2 * b := by ring
  split <;> rename_i h <;> simp only [e1, e2, e3, e4] <;> refine ⟨by omega, by omega, ?_, ?_⟩ <;> omega

/-- An exact quotient is rounded to itself. -/
theorem divNearestEven_mul (m : Nat) {b : Nat} (hb : 0 < b) : divNearestEven (m * b) b = m := by
  have e : m * b / b = m := Nat.mul_div_cancel m hb
  simp only [divNearestEven, e, Nat.mul_mod_left]
  rw [if_neg (by omega)]

theorem roundMagnitude_le (a b : Nat) : roundMagnitude a b ≤ infMagnitude := Nat.min_le_right _ _

theorem isqrtLoop_spec {fuel n r : Nat} (hf : r ≤ fuel) (hr : n < (r + 1) * (r + 1)) :
    isqrtLoop fuel n r * isqrtLoop fuel n r ≤ n ∧
      n < (isqrtLoop fuel n r + 1) * (isqrtLoop fuel n r + 1) := by
  induction fuel generalizing r with
  | zero =>
    obtain rfl : r = 0 := by omega
    simpa [isqrtLoop] using hr
  | succ fuel ih =>
    rw [isqrtLoop]
    rcases Nat.eq_zero_or_pos r with rfl | hr0
    · rw [if_neg (by omega)]; simpa using hr
    have key : r * (n / r) + n % r = n := Nat.div_add_mod n r
    have hm := Nat.mod_lt n hr0
    have hle : r ≤ n / r ↔ r * r ≤ n := Nat.le_div_iff_mul_le hr0
    generalize n / r = q at key hle ⊢
    split
    · rename_i h
      refine ih (by omega) ?_
      have h2 : r + q + 1 ≤ 2 * ((r + q) / 2 + 1) := by omega
      generalize (r + q) / 2 + 1 = g at h2 ⊢
      have h3 : (r + q + 1) * (r + q + 1) ≤ (2 * g) * (2 * g) := Nat.mul_le_mul h2 h2
      have h4 : 4 * (r * q) + 4 * r ≤ (r + q + 1) * (r + q + 1) := by
        zify; nlinarith [sq_nonneg ((r : Int) - q - 1)]
      have h5 : (2 * g) * (2 * g) = 4 * (g * g) := by ring
      omega
    · exact ⟨hle.1 (by omega), hr⟩

/-- `isqrt` is the integer square root. -/
theorem isqrt_spec (n : Nat) : isqrt n * isqrt n ≤ n ∧ n < (isqrt n + 1) * (isqrt n + 1) := by
  refine isqrtLoop_spec (Nat.le_refl _) ?_
  have h1 : n < 2 ^ (n.log2 + 1) := Nat.lt_log2_self
  have h2 : n.log2 + 1 ≤ (n.log2 / 2 + 1) + (n.log2 / 2 + 1) := by omega
  have h3 : 2 ^ (n.log2 + 1) ≤ 2 ^ (n.log2 / 2 + 1) * 2 ^ (n.log2 / 2 + 1) := by
    rw [← Nat.pow_add]; exact Nat.pow_le_pow_right (by omega) h2
  generalize 2 ^ (n.log2 / 2 + 1) = r at h3 ⊢
  have h4 : r * r ≤ (r + 1) * (r + 1) := Nat.mul_le_mul (by omega) (by omega)
  omega

end Sys2Proof.Machine
end

