-- ==== Sys2Proof/Laws/PerInstr.lean ====
section
/-! SUPPORT. Laws/PerInstr.lean: the statement made of each command as syntax: its word has its opcode in OP and
every reserved bit 0, and its operands in CH and MASK (30_encoding.md R73, R74). -/

namespace Sys2Proof.Laws.CommandWord

/-- The fields of the word of a command: OP is its opcode, RSV_A and RSV_B are 0, and a command without a channel
or mask operand has that field 0. -/
def Statement (i : Instr) : Prop :=
  opField (encode i) = i.opcode ∧ rsvAField (encode i) = 0 ∧ rsvBField (encode i) = 0 ∧
    match i with
    | .nop => chField (encode i) = 0 ∧ maskField (encode i) = 0
    | .recon ch => chField (encode i) = BitVec.ofNat 3 ch ∧ maskField (encode i) = 0
    | .calculate ch => chField (encode i) = BitVec.ofNat 3 ch ∧ maskField (encode i) = 0
    | .measure m => chField (encode i) = 0 ∧ maskField (encode i) = m
    | .clear => chField (encode i) = 0 ∧ maskField (encode i) = 0
    | .sreset => chField (encode i) = 0 ∧ maskField (encode i) = 0

theorem nop : Statement .nop := by simp [Statement, encode]

theorem recon (ch : Nat) : Statement (.recon ch) := by simp [Statement, encode]

theorem calculate (ch : Nat) : Statement (.calculate ch) := by simp [Statement, encode]

theorem measure (mask : BitVec 6) : Statement (.measure mask) := by simp [Statement, encode]

theorem clear : Statement .clear := by simp [Statement, encode]

theorem sreset : Statement .sreset := by simp [Statement, encode]

end Sys2Proof.Laws.CommandWord
end

