-- ==== Sys2Proof/Laws/Registers.lean ====
section
/-! SUPPORT. Laws/Registers.lean: the address map as facts about offsets (20_memory.md R53, R58) and the values
of the registers (10_state.md R19 to R41). -/

namespace Sys2Proof.Machine

/-! ## The address map -/

/-- Every register lies at its offset, a multiple of 8 in the window. -/
theorem locate_offset (r : Reg) : locate r.offset = some (.reg r) ∧ r.offset % 8 = 0 ∧ r.offset < 2 ^ 18 := by
  cases r with
  | phase k => fin_cases k <;> decide
  | curAcc k => fin_cases k <;> decide
  | result k f => fin_cases k <;> cases f <;> decide
  | dbg f => cases f <;> decide
  | _ => decide

/-- An access at a register's offset reaches that register. -/
theorem target_offset (r : Reg) : target (BitVec.ofNat 18 r.offset) = some (.reg r) := by
  obtain ⟨h1, h2, h3⟩ := locate_offset r
  have h4 : (BitVec.ofNat 18 r.offset).toNat = r.offset := by rw [BitVec.toNat_ofNat, Nat.mod_eq_of_lt h3]
  simp [target, h4, h1, h2]

/-- The reserved offsets (R53). -/
theorem locate_eq_none {a : Nat} (h8 : a % 8 = 0) :
    locate a = none ↔
      (0x90 ≤ a ∧ a < 0x100) ∨ (0x130 ≤ a ∧ a < 0x140) ∨ (0x170 ≤ a ∧ a < 0x200) ∨ (0x2C0 ≤ a ∧ a < 0x300) ∨
        (0x340 ≤ a ∧ a < 0x10000) ∨ (0x1E000 ≤ a ∧ a < 0x20000) ∨ 0x28000 ≤ a := by
  unfold locate vramBase vrecBase
  split_ifs <;> simp [controlRegs, resultFields, debugFields] <;> omega

/-- The locations the host may not write, CMD apart (R19, R58). -/
theorem writable_eq_false {a : Nat} {l : Loc} (h8 : a % 8 = 0) (h : locate a = some l) (hc : l ≠ .reg .cmd) :
    l.writable = false ↔
      a ∈ [0x000, 0x008, 0x018, 0x028, 0x030, 0x070, 0x078, 0x080, 0x088] ∨ (0x200 ≤ a ∧ a < 0x2C0) ∨
        (0x300 ≤ a ∧ a < 0x340) ∨ 0x20000 ≤ a := by
  unfold locate vramBase vrecBase at h
  split_ifs at h
  · have hq : a / 8 < 18 := by omega
    have ha : a = 8 * (a / 8) := by omega
    generalize a / 8 = q at h hq ha
    subst ha
    clear h8
    interval_cases q <;>
      simp only [controlRegs, List.getElem?_cons_succ, List.getElem?_cons_zero, Option.map_some,
        Option.some.injEq] at h <;>
      subst h <;> first | exact absurd rfl hc | decide
  · cases h; simp [Loc.writable, Reg.writable]; omega
  · cases h; simp [Loc.writable, Reg.writable]; omega
  · obtain ⟨f, -, rfl⟩ := Option.map_eq_some_iff.1 h
    simp [Loc.writable, Reg.writable]; omega
  · obtain ⟨f, -, rfl⟩ := Option.map_eq_some_iff.1 h
    simp [Loc.writable, Reg.writable]; omega
  · cases h; simp [Loc.writable]; omega
  · cases h; simp [Loc.writable]; omega
  · cases h; simp [Loc.writable]; omega

/-- A location of sample memory or VREC is known by its own offset (R53, R57). -/
theorem locate_stored {a : Nat} (h : (0x10000 ≤ a ∧ a < 0x1E000) ∨ (0x20000 ≤ a ∧ a < 0x28000)) :
    locate a = some (if a < 0x12000 then .vramWord a else if a < 0x1E000 then .iramWord a else .vrecWord a) := by
  unfold locate vramBase vrecBase
  split_ifs <;> first | omega | rfl

/-! ## Values of registers -/

@[simp] theorem readReg_id (s : State) : s.readReg .id = Config.idValue := rfl
@[simp] theorem readReg_cap (s : State) : s.readReg .cap = Config.capValue := rfl
@[simp] theorem readReg_ctrl (s : State) : s.readReg .ctrl = s.ctrlWord := rfl
@[simp] theorem readReg_status (s : State) : s.readReg .status = s.statusWord := rfl
@[simp] theorem readReg_cmd (s : State) : s.readReg .cmd = 0 := rfl
@[simp] theorem readReg_errCode (s : State) : s.readReg .errCode = s.errCode.number.setWidth 64 := rfl
@[simp] theorem readReg_errInfo (s : State) : s.readReg .errInfo = s.errInfo.word := rfl
@[simp] theorem readReg_n (s : State) : s.readReg .n = s.n.setWidth 64 := rfl
@[simp] theorem readReg_adcRes (s : State) : s.readReg .adcRes = s.adcRes.setWidth 64 := rfl
@[simp] theorem readReg_boardRef (s : State) : s.readReg .boardRef = s.boardRef := rfl
@[simp] theorem readReg_gridV (s : State) : s.readReg .gridV = s.gridV := rfl
@[simp] theorem readReg_xfmrV (s : State) : s.readReg .xfmrV = s.xfmrV := rfl
@[simp] theorem readReg_acAcc (s : State) : s.readReg .acAcc = s.acAcc := rfl
@[simp] theorem readReg_batchTs (s : State) : s.readReg .batchTs = s.batchTs := rfl
@[simp] theorem readReg_resTs (s : State) : s.readReg .resTs = s.resTs := rfl
@[simp] theorem readReg_resValid (s : State) : s.readReg .resValid = s.resValid.setWidth 64 := rfl
@[simp] theorem readReg_repVrms (s : State) : s.readReg .repVrms = s.repVrms := rfl
@[simp] theorem readReg_vrecStatus (s : State) : s.readReg .vrecStatus = s.vrecStatus.word := rfl
@[simp] theorem readReg_phase (s : State) (k : Channel) : s.readReg (.phase k) = s.phase[k] := rfl
@[simp] theorem readReg_curAcc (s : State) (k : Channel) : s.readReg (.curAcc k) = s.curAcc[k] := rfl
@[simp] theorem readReg_result (s : State) (k : Channel) (f : ResultField) :
    s.readReg (.result k f) = s.results[k].get f := rfl
@[simp] theorem readReg_dbg (s : State) (f : DebugField) : s.readReg (.dbg f) = s.dbg.get f := rfl

/-- A CTRL value keeps bits 0 and 1 only (R22). -/
theorem ctrl_bits (v : Word) : flagAt (v.getLsbD 0) 0 ||| flagAt (v.getLsbD 1) 1 = v &&& 0x3 := by
  apply BitVec.eq_of_getLsbD_eq
  intro i hi
  rw [BitVec.getLsbD_and]
  have f : ∀ (b c : Bool) (i : Fin 64), 2 ≤ i.val → (flagAt b 0 ||| flagAt c 1).getLsbD i.val = false := by decide
  have e : ∀ i : Fin 64, 2 ≤ i.val → BitVec.getLsbD (w := 64) 0x3 i.val = false := by decide
  rcases Nat.lt_or_ge i 2 with h | h
  · interval_cases i
    · cases v.getLsbD 0 <;> cases v.getLsbD 1 <;> decide
    · cases v.getLsbD 0 <;> cases v.getLsbD 1 <;> decide
  · rw [f _ _ ⟨i, hi⟩ h, e ⟨i, hi⟩ h, Bool.and_false]

/-- The stored bits of `N` (R27). -/
theorem low16 (v : Word) : (v.setWidth 16).setWidth 64 = v &&& 0xFFFF := by
  apply BitVec.eq_of_toNat_eq
  simp only [BitVec.toNat_setWidth, BitVec.toNat_and]
  rw [show (0xFFFF : Word).toNat = 2 ^ 16 - 1 from rfl, Nat.and_two_pow_sub_one_eq_mod]
  omega

/-- The stored bits of ADC_RES (R28). -/
theorem low32 (v : Word) : (v.setWidth 32).setWidth 64 = v &&& 0xFFFFFFFF := by
  apply BitVec.eq_of_toNat_eq
  simp only [BitVec.toNat_setWidth, BitVec.toNat_and]
  rw [show (0xFFFFFFFF : Word).toNat = 2 ^ 32 - 1 from rfl, Nat.and_two_pow_sub_one_eq_mod]
  omega

/-- Two neighbouring bytes of a word are one code of it (R56). -/
theorem code_of_bytes (v : Word) (n : Nat) :
    v.extractLsb' (n + 8) 8 ++ v.extractLsb' n 8 = v.extractLsb' n 16 := by
  apply BitVec.eq_of_getLsbD_eq
  intro i hi
  rw [BitVec.getLsbD_append]
  simp only [BitVec.getLsbD_extractLsb']
  by_cases h8 : i < 8
  · simp [h8]; omega
  · have e : i - 8 < 8 := by omega
    have e2 : i < 16 := by omega
    have e3 : n + 8 + (i - 8) = n + i := by omega
    simp [h8, e, e2, e3]

end Sys2Proof.Machine
end

