-- ==== Sys2Proof/Laws/Step.lean ====
section
/-! SUPPORT. Laws/Step.lean: what one step of the block is, input by input (20_memory.md R58 to R60, R64;
42_control.md R107, R108). -/

namespace Sys2Proof.Machine

/-- The one location of a command is CMD's offset (R24, R53). -/
theorem locate_eq_cmd {a : Nat} (h8 : a % 8 = 0) : locate a = some (.reg .cmd) ↔ a = 0x020 := by
  constructor
  · intro h
    unfold locate at h
    split_ifs at h with h1 h2 h3 h4 h5 h6 h7 h8
    · have hb : a / 8 < 18 := by omega
      have ha : a = 8 * (a / 8) := by omega
      rw [ha]
      revert h
      generalize a / 8 = q at hb ha
      intro h
      interval_cases q <;> simp_all [controlRegs]
    all_goals simp_all
  · rintro rfl; rfl

theorem target_eq_cmd {a : Addr} : target a = some (.reg .cmd) ↔ a = cmdOffset := by
  unfold target
  constructor
  · intro h
    split_ifs at h with h8
    have := (locate_eq_cmd h8).1 h
    exact BitVec.eq_of_toNat_eq this
  · rintro rfl; rfl

@[simp] theorem target_cmdOffset : target 0x020#18 = some (.reg .cmd) := rfl

theorem step_nil {s : State} (h : s.inputs = []) : step s = engineTurn s := by
  simp [step, h]

theorem step_cons {s : State} {e : Input} {rest : List Input} (h : s.inputs = e :: rest) :
    step s = runInput e { s with inputs := rest } := by
  simp [step, h]

theorem step_read {s : State} {a : Addr} {rest : List Input} (hr : s.rst = false)
    (h : s.inputs = .read a :: rest) : step s = .next (hostRead a { s with inputs := rest }) := by
  simp [step_cons h, runInput, hr]

theorem step_write {s : State} {a : Addr} {v : Word} {rest : List Input} (hr : s.rst = false)
    (h : s.inputs = .write a v :: rest) : step s = hostWrite a v { s with inputs := rest } := by
  simp [step_cons h, runInput, hr]

/-- A CMD write is `Issue(w)` on the state that has answered OKAY (R60, R107). -/
theorem step_cmd {s : State} {w : Word} {rest : List Input} (hr : s.rst = false)
    (h : s.inputs = .write 0x020 w :: rest) :
    step s = issue w { s with inputs := rest, bus := some (.write false) } := by
  rw [step_write hr h]
  rfl

/-- A write of another location (R58, R60). -/
theorem hostWrite_other {a : Addr} (v : Word) (s : State) (ha : a ≠ cmdOffset) :
    hostWrite a v s =
      match target a with
      | none => .next (respond (.write true) s)
      | some l => .next (writeLoc l v s) := by
  unfold hostWrite
  cases ht : target a with
  | none => rfl
  | some l =>
    have : l ≠ .reg .cmd := fun e => ha (target_eq_cmd.1 (e ▸ ht))
    simp [this]

/-- The meaning of a queued command as one function of the command (R108). -/
def queuedCommand (i : Instr) (s : State) : Except CmdError State :=
  match i with
  | .nop => .ok s
  | .recon ch => reconCommand ch s
  | .calculate ch => calcCommand ch s
  | .measure m => measureCommand m s
  | .clear => .ok s
  | .sreset => .ok s

/-- A queued command always completes: with its commit or with the error entry (R108, R116). -/
theorem exec_queued {i : Instr} (s : State) (h : i.immediate = false) :
    exec i s = .next (finishQueued (encode i) s (queuedCommand i s)) := by
  cases i <;> first | rfl | exact absurd h (by decide)

/-- The engine's turn on a state with BUSY = 1 (R108). -/
theorem engineTurn_busy {s : State} (h : s.busy = true) : engineTurn s = engineStep s := by
  simp [engineTurn, h]

/-- What the engine step of any pending word leaves (R108). -/
theorem engineStep_cases (s : State) :
    (∃ r, decode s.pending = .error r ∧
        engineStep s = .next (finishQueued s.pending s (.error badCommand))) ∨
      (∃ i, decode s.pending = .ok i ∧ i.immediate = true ∧ engineStep s = .next { s with busy := false }) ∨
      ∃ i, decode s.pending = .ok i ∧ i.immediate = false ∧
        engineStep s = .next (finishQueued (encode i) s (queuedCommand i s)) := by
  unfold engineStep
  cases hd : decode s.pending with
  | error r => exact .inl ⟨r, rfl, rfl⟩
  | ok i =>
    cases hi : i.immediate with
    | true => exact .inr (.inl ⟨i, rfl, hi, by simp [hi]⟩)
    | false => exact .inr (.inr ⟨i, rfl, hi, by simp [hi, exec_queued s hi]⟩)

/-- No queued command raises the code 0 (R114, I18). -/
theorem queuedCommand_error_code {i : Instr} {s : State} {e : CmdError} (h : queuedCommand i s = .error e) :
    e.code ≠ .none := by
  have hch : ∀ ch e, needChannel ch = .error e → e.code ≠ .none := by
    intro ch e h
    unfold needChannel at h
    split at h <;> cases h
    simp
  have hl : ∀ e, needLength s = .error e → e.code ≠ .none := by
    intro e h
    unfold needLength at h
    split_ifs at h
    cases h
    simp
  cases i with
  | nop => cases h
  | recon ch =>
    rcases except_bind_eq_error.1 h with h | ⟨k, -, h⟩
    · exact hch _ _ h
    rcases except_bind_eq_error.1 h with h | ⟨-, -, h⟩
    · exact hl _ h
    rcases except_bind_eq_error.1 h with h | ⟨ws, -, h⟩
    · rcases reconstruct_error h with rfl | ⟨j, -, rfl | rfl⟩ <;> simp
    · cases h
  | calculate ch =>
    rcases except_bind_eq_error.1 h with h | ⟨k, -, h⟩
    · exact hch _ _ h
    rcases except_bind_eq_error.1 h with h | ⟨-, -, h⟩
    · exact hl _ h
    rcases except_bind_eq_error.1 h with h | ⟨-, -, h⟩
    · unfold needMatch at h
      split_ifs at h
      cases h
      simp
    rcases except_bind_eq_error.1 h with h | ⟨ws, -, h⟩
    · exact calculate_error_code h
    · cases h
  | measure m =>
    rcases except_bind_eq_error.1 h with h | ⟨ks, -, h⟩
    · unfold needMask at h
      split_ifs at h
      cases h
      simp
    rcases except_bind_eq_error.1 h with h | ⟨-, -, h⟩
    · exact hl _ h
    rcases except_bind_eq_error.1 h with h | ⟨rs, -, h⟩
    · obtain ⟨k, -, hk⟩ := measureAll_eq_error h
      exact measureChannel_error_code hk
    · cases h
  | clear => cases h
  | sreset => cases h

/-- The fields that the commit of a queued command may change (R88, R101, R102). -/
theorem queuedCommand_frame {i : Instr} {s t : State} (hi : i.immediate = false) (h : queuedCommand i s = .ok t) :
    t = { s with mem := t.mem, vrecStatus := t.vrecStatus, results := t.results, resValid := t.resValid,
                 repVrms := t.repVrms, dbg := t.dbg, resTs := t.resTs, done := true } := by
  cases i with
  | recon ch => obtain ⟨k, ws, -, -, -, rfl⟩ := reconCommand_eq_ok.1 h; rfl
  | calculate ch => obtain ⟨k, ws, -, -, -, -, rfl⟩ := calcCommand_eq_ok.1 h; rfl
  | measure m => obtain ⟨ws, -, -, -, rfl⟩ := measureCommand_eq_ok.1 h; rfl
  | nop => cases hi
  | clear => cases hi
  | sreset => cases hi

/-! ## Inversion: everything each part of a step can do -/

/-- Everything the issue of a word can do (R107). -/
theorem issue_cases (w : Word) (s : State) :
    (issue w s = .next s ∧ s.busy = false ∧ decode w = .ok .nop) ∨
      (issue w s = .next (clearErrors s) ∧ s.busy = false ∧ decode w = .ok .clear) ∨
      (issue w s = .next (softReset s) ∧ decode w = .ok .sreset) ∨
      (issue w s = .next (dropWrite s) ∧ decode w ≠ .ok .sreset ∧
        (s.busy = true ∨ (s.err = true ∧ decode w ≠ .ok .nop ∧ decode w ≠ .ok .clear))) ∨
      (issue w s = .next (acceptWord w s) ∧ s.busy = false ∧ s.err = false ∧ decode w ≠ .ok .nop ∧
        decode w ≠ .ok .clear ∧ decode w ≠ .ok .sreset) := by
  unfold issue
  cases hb : s.busy <;> cases he : s.err <;> cases hd : decode w with
  | error r => simp [queueWord, hb, he]
  | ok i => cases i <;> simp [Instr.immediate, exec, execNop, execClear, execSreset, queueWord, hb, he]

/-- The fields that a host write of a location other than CMD may change (R60, R61). -/
theorem storeLoc_frame (l : Loc) (v : Word) (s : State) :
    storeLoc l v s =
      { s with
        ieDone := (storeLoc l v s).ieDone, ieErr := (storeLoc l v s).ieErr, n := (storeLoc l v s).n,
        adcRes := (storeLoc l v s).adcRes, boardRef := (storeLoc l v s).boardRef,
        gridV := (storeLoc l v s).gridV, xfmrV := (storeLoc l v s).xfmrV, acAcc := (storeLoc l v s).acAcc,
        batchTs := (storeLoc l v s).batchTs, phase := (storeLoc l v s).phase,
        curAcc := (storeLoc l v s).curAcc, mem := (storeLoc l v s).mem,
        vrecStatus := (storeLoc l v s).vrecStatus } := by
  cases l with
  | reg r =>
    cases r <;> try rfl
    simp only [storeLoc, storeReg]; split <;> rfl
  | _ => rfl

/-- Everything a host write can do (R58, R60). -/
theorem hostWrite_cases (a : Addr) (v : Word) (s : State) :
    (a = cmdOffset ∧ hostWrite a v s = issue v (respond (.write false) s)) ∨
      (a ≠ cmdOffset ∧ hostWrite a v s = .next (respond (.write true) s)) ∨
      (a ≠ cmdOffset ∧ s.busy = true ∧ hostWrite a v s = .next (respond (.write false) (dropWrite s))) ∨
      ∃ l, a ≠ cmdOffset ∧ target a = some l ∧ l.writable = true ∧ s.busy = false ∧
        hostWrite a v s = .next (respond (.write false) (storeLoc l v s)) := by
  by_cases h : a = cmdOffset
  · subst h; exact .inl ⟨rfl, rfl⟩
  · rw [hostWrite_other _ _ h]
    cases ht : target a with
    | none => exact .inr (.inl ⟨h, rfl⟩)
    | some l =>
      simp only [writeLoc]
      cases hw : l.writable with
      | false => exact .inr (.inl ⟨h, by simp⟩)
      | true =>
        cases hb : s.busy with
        | true => exact .inr (.inr (.inl ⟨h, rfl, by simp⟩))
        | false => exact .inr (.inr (.inr ⟨l, h, rfl, hw, rfl, by simp⟩))

/-- A host read changes the answer on the bus and the count of free data words (R59, R55). -/
theorem hostRead_frame (a : Addr) (s : State) :
    hostRead a s = { s with bus := (hostRead a s).bus, draws := (hostRead a s).draws } := by
  unfold hostRead
  cases target a <;> rfl

/-- Everything the engine's turn can do (R108): nothing while BUSY = 0; else BUSY is cleared and the command
has failed, or has committed, or the word was none that is ever pending (log 15). -/
theorem engineTurn_cases (s : State) :
    (engineTurn s = .next s ∧ s.busy = false) ∨
      (s.busy = true ∧
        ((∃ c info, engineTurn s = .next (s.failed c info) ∧ c ≠ .none) ∨
          (∃ i, decode s.pending = .ok i ∧ i.immediate = true ∧ engineTurn s = .next { s with busy := false }) ∨
          ∃ i u, decode s.pending = .ok i ∧ i.immediate = false ∧ queuedCommand i s = .ok u ∧
            engineTurn s = .next { u with busy := false })) := by
  cases hb : s.busy with
  | false => exact .inl ⟨by simp [engineTurn, hb], rfl⟩
  | true =>
    refine .inr ⟨rfl, ?_⟩
    rw [engineTurn_busy hb]
    rcases engineStep_cases s with ⟨r, -, h⟩ | ⟨i, hd, hi, h⟩ | ⟨i, hd, hi, h⟩
    · exact .inl ⟨.badCmd, _, h, by simp⟩
    · exact .inr (.inl ⟨i, hd, hi, h⟩)
    · cases hq : queuedCommand i s with
      | ok u => exact .inr (.inr ⟨i, u, hd, hi, hq, by rw [h, hq, finishQueued_ok]⟩)
      | error e =>
        exact .inl ⟨e.code, _, by rw [h, hq, finishQueued_error], queuedCommand_error_code hq⟩

/-- Everything one step can do (R64). -/
theorem step_cases {s t : State} (h : step s = .next t) :
    (∃ w rest, s.inputs = .write 0x020 w :: rest ∧ s.rst = false ∧
        issue w (respond (.write false) { s with inputs := rest }) = .next t) ∨
      (∃ a v rest, s.inputs = .write a v :: rest ∧ s.rst = false ∧ a ≠ cmdOffset ∧
        (t = respond (.write true) { s with inputs := rest } ∨
          (s.busy = true ∧ t = respond (.write false) (dropWrite { s with inputs := rest })) ∨
          ∃ l, target a = some l ∧ l.writable = true ∧ s.busy = false ∧
            t = respond (.write false) (storeLoc l v { s with inputs := rest }))) ∨
      (∃ a rest, s.inputs = .read a :: rest ∧ s.rst = false ∧ t = hostRead a { s with inputs := rest }) ∨
      (∃ b rest, s.inputs = .rst b :: rest ∧
        (t = hardwareReset b { s with inputs := rest } ∨
          (b = false ∧ s.rst = false ∧ t = { s with inputs := rest }))) ∨
      ((s.inputs = [] ∨ ∃ rest, s.inputs = .engine :: rest) ∧
        engineTurn { s with inputs := s.inputs.tail } = .next t) := by
  cases hi : s.inputs with
  | nil =>
    rw [step_nil hi] at h
    have e : ({ s with inputs := ([] : List Input).tail } : State) = s := by rw [List.tail_nil, ← hi]
    exact .inr (.inr (.inr (.inr ⟨.inl rfl, by rw [e]; exact h⟩)))
  | cons e rest =>
    have hw := h
    rw [step_cons hi] at h
    cases e with
    | read a =>
      by_cases hr : s.rst = true
      · simp [runInput, hr] at h
      · have hr := Bool.not_eq_true _ ▸ hr
        rw [step_read hr hi] at hw
        exact .inr (.inr (.inl ⟨a, rest, rfl, hr, (Host.Outcome.next.inj hw).symm⟩))
    | write a v =>
      by_cases hr : s.rst = true
      · simp [runInput, hr] at h
      · have hr := Bool.not_eq_true _ ▸ hr
        rw [step_write hr hi] at hw
        rcases hostWrite_cases a v { s with inputs := rest } with
          ⟨rfl, e⟩ | ⟨hne, e⟩ | ⟨hne, hb, e⟩ | ⟨l, hne, h3, h4, h5, e⟩ <;> rw [e] at hw
        · exact .inl ⟨v, rest, rfl, hr, hw⟩
        · exact .inr (.inl ⟨a, v, rest, rfl, hr, hne, .inl (Host.Outcome.next.inj hw).symm⟩)
        · exact .inr (.inl ⟨a, v, rest, rfl, hr, hne, .inr (.inl ⟨hb, (Host.Outcome.next.inj hw).symm⟩)⟩)
        · exact .inr (.inl ⟨a, v, rest, rfl, hr, hne,
            .inr (.inr ⟨l, h3, h4, h5, (Host.Outcome.next.inj hw).symm⟩)⟩)
    | engine => exact .inr (.inr (.inr (.inr ⟨.inr ⟨rest, rfl⟩, h⟩)))
    | rst b =>
      refine .inr (.inr (.inr (.inl ⟨b, rest, rfl, ?_⟩)))
      simp only [runInput] at h
      split at h
      · exact .inl (Host.Outcome.next.inj h).symm
      · rename_i hb
        have hb' : b = false ∧ s.rst = false := by simpa using hb
        exact .inr ⟨hb'.1, hb'.2, (Host.Outcome.next.inj h).symm⟩
    | clkStop => simp [runInput] at h

/-! ## Runs -/

/-- A run of one step more (R64). -/
theorem core_run_next {s t : State} (k : Nat) (h : step s = .next t) :
    Host.Core.run Sys2Proof.core (k + 1) s = Host.Core.run Sys2Proof.core k t := by
  have h' : Sys2Proof.core.step s = .next t := h
  simp only [Host.Core.run, h']

end Sys2Proof.Machine
end

