-- ==== Sys2Proof/Tests/Slice0.lean ====
section
/-! SUPPORT. Tests/Slice0.lean: small tests whose expected values are the spec's own (30_encoding.md R75, R81;
95_test_vectors.md sections 1 and 2), and for every statement with hypotheses a witness that meets them. -/

namespace Sys2Proof.Tests

open Sys2Proof.Machine

-- One theorem at a time: many evaluations at once each hold a thread and its stack.
set_option Elab.async false

/-! ## Small states -/

/-- The two bytes of a code, the low one first (R56). -/
def codeBytes (c : Code) : List Byte := [c.setWidth 8, (c >>> 8).setWidth 8]

/-- The same current codes for every channel. -/
def storeCurrents (codes : List Code) (m : Memory) : Memory :=
  ([0, 1, 2, 3, 4, 5] : List Channel).foldl (fun m k => m.storeBytes (iramBase k) (codes.flatMap codeBytes)) m

/-- Sample memory with voltage codes, current codes and the first entries of VREC. -/
def samples (v i : List Code) (w : List Word) : Memory :=
  Memory.storeVrec (storeCurrents i (Memory.storeBytes [] vramBase (v.flatMap codeBytes))) 0 w

/-- The configuration CFG of 95_test_vectors.md with these samples; N is their number. -/
def small (v i : List Code) (w : List Word) : State :=
  { State.reset with
    n := BitVec.ofNat 16 v.length
    boardRef := 0x400A666666666666
    gridV := 0x4024000000000000
    xfmrV := 0x3FF0000000000000
    acAcc := 0x3FED1745D1745D17
    mem := samples v i w }

/-- VREC marked as the reconstruction of the spec's channel 1. -/
def tag (s : State) : State := { s with vrecStatus := ⟨s.n, 1, true⟩ }

/-- The command word `w` is pending. -/
def pend (w : Word) (s : State) : State := { s with pending := w, busy := true }

/-- The next state, none where the step stops. -/
def after (o : Host.Outcome State Fault Refusal) : Option State :=
  match o with
  | .next t => some t
  | .fault _ => none
  | .refused _ => none

/-- Two samples, 10 and 20, in VRAM and every IRAM, and 10.0 and 20.0 in VREC. -/
def base : State := small [10, 20] [10, 20] [0x4024000000000000, 0x4034000000000000]

/-- An idle state after an error (R116). -/
def errored : State := { State.reset with err := true, errCode := .len, errInfo := ⟨0, 0, .validation, .none, 1⟩ }

/-! ## Well-formedness -/

theorem test_wf_refuses_recon_8 : (Instr.recon 8).wf = false := by decide

theorem test_wf_refuses_calculate_8 : (Instr.calculate 8).wf = false := by decide

theorem test_wf_accepts_7 : (Instr.recon 7).wf = true ∧ (Instr.calculate 7).wf = true := by decide

/-! ## Decoding: the words of 95_test_vectors.md 2.1 -/

theorem test_decode_nop : decodeTableWord 64 0x0000000000000000 = some .nop := by decide +kernel

theorem test_decode_recon : decodeTableWord 64 0x0000000000000601 = some (.recon 6) := by decide +kernel

theorem test_decode_calculate : decodeTableWord 64 0x0000000000000102 = some (.calculate 1) := by decide +kernel

theorem test_decode_measure : decodeTableWord 64 0x0000000000030003 = some (.measure 0b000011) := by decide +kernel

theorem test_decode_clear : decodeTableWord 64 0x000000000000000E = some .clear := by decide +kernel

theorem test_decode_sreset : decodeTableWord 64 0x000000000000000F = some .sreset := by decide +kernel

theorem test_decode_refuses_opcode : decodeTableWord 64 0x00000000000000FF = none := by decide +kernel

theorem test_decode_refuses_clear_with_reserved_bit : decodeTableWord 64 0x010000000000000E = none := by
  decide +kernel

/-- 30_encoding.md R81: `MEASURE 1,3` is OP 0x03 with MASK bits 0 and 2. -/
theorem test_assemble_measure : assemble (.measure [3, 1]) = some 0x0000000000050003 := by decide +kernel

/-- A word placed where the next step fetches is run by it, a queued one and an immediate one. -/
theorem test_fetch_word :
    step (State.reset.withFetchWord 64 0x0000000000000601) =
        exec (.recon 6) { State.reset with busy := true, pending := 0x601 } ∧
      step ({ State.reset with done := true }.withFetchWord 64 0x000000000000000E) =
        exec .clear { State.reset with done := true, bus := some (.write false) } := ⟨rfl, rfl⟩

/-! ## Binary64: scale factors and values that 95_test_vectors.md gives as patterns -/

/-- CFG: `vref = 0.00322265625`. -/
theorem test_fdiv_vref : fdiv 0x400A666666666666 (f64 1024) = 0x3F6A666666666666 := by decide +kernel

/-- RV7: one step of the recurrence, `512 + 1.1*(700 - 512) = 718.8` after rounding. -/
theorem test_recurrence_rounds :
    fadd (f64 512) (fmul 0x3FF199999999999A (fsub (f64 700) (f64 512))) = 0x4086766666666666 := by decide +kernel

/-- RV11: `1e-300 + 1e-300*(2 - 1e-300) = 3e-300` after rounding. -/
theorem test_small_product_rounds :
    fadd 0x01A56E1FC2F8F359 (fmul 0x01A56E1FC2F8F359 (fsub (f64 2) 0x01A56E1FC2F8F359)) = 0x01C01297D23AB683 := by
  decide +kernel

/-- CV1: `sqrt(125)*cs = 3.6030392215572786`. -/
theorem test_fsqrt_rms : fmul (fsqrt 0x405F400000000000) 0x3FD4A00000000000 = 0x400CD3063A3659B9 := by decide +kernel

/-! ## Commands -/

/-- 2.7: NOP leaves STATUS 0x2, and while BUSY sets DROP (STATUS 0x9, 2.2). -/
theorem test_nop :
    (after (exec .nop { State.reset with done := true })).map State.statusWord = some 0x2 ∧
      (after (exec .nop { State.reset with busy := true })).map State.statusWord = some 0x9 := by decide +kernel

/-- RV4: `V = [0, 100, 100, 100]`, `c = 1.5`. -/
theorem test_recon :
    (after (exec (.recon 1)
      { small [0, 100, 100, 100] [] [] with phase := Vector.replicate 6 0x3FF8000000000000 })).map
        (fun t => (t.vrec 1, t.vrec 2, t.vrec 3, t.vrecStatus.word)) =
      some (0x4062C00000000000, 0x4052C00000000000, 0x405C200000000000, 0x0000000080010004) := by decide +kernel

/-- RV8: `V = [0, 1024, 0, 0]` fails with E_CODE. -/
theorem test_recon_code :
    (after (exec (.recon 1) (small [0, 1024, 0, 0] [] []))).map (fun t => (t.errCode, t.errInfo.word, t.statusWord)) =
      some (.code, 0x0000010101010001, 0x4) := by decide +kernel

/-- CV1: `I = V = [10, 20, 30, 40]`. -/
theorem test_calculate :
    (after (exec (.calculate 1) (tag (small [10, 20, 30, 40] [10, 20, 30, 40]
      [0x4024000000000000, 0x4034000000000000, 0x403E000000000000, 0x4044000000000000])))).map
        (fun t => (t.results[0].realPower, t.results[0].rmsVoltage, t.results[0].powerFactor, t.dbg.core)) =
      some (0x4029F6BA80000000, 0x400CD3063A3659B9, 0x3FEFFFFFFFFFFFFF, 0x405F400000000000) := by decide +kernel

/-- CV12: a radicand below 0 in the voltage. -/
theorem test_calculate_domain :
    (after (exec (.calculate 1) (tag (small [1023, 1022] [0, 1] [0x408FF80000000000, 0x408FF7FFFFFFDDA4])))).map
        (fun t => (t.errCode, t.errInfo.word)) =
      some (.domain, 0x0000020104010000) := by decide +kernel

/-- P2: both channels' POWER_FACTOR, the mask, and REP_VRMS of the lower channel. -/
theorem test_measure :
    (after (exec (.measure 0b11)
      { small [512, 812, 512, 212] [512, 812, 512, 212] [] with
        phase := (Vector.replicate 6 Config.one).set 1 0x3FF8000000000000 })).map
        (fun t => (t.results[0].powerFactor, t.results[1].rmsVoltage, t.repVrms, t.resValid, t.dbg.ch)) =
      some (0x3FEFFFFFFFFFFFFE, 0x40584CA51615F29F, 0x405117392432C1CF, 0b11, 2) := by decide +kernel

/-- MV5: an empty mask fails with E_BADCHAN. -/
theorem test_measure_empty :
    (after (exec (.measure 0) base)).map (fun t => (t.errCode, t.errInfo.word)) =
      some (.badChan, 0x0000030000000000) := by decide +kernel

/-- 2.7: CLEAR on STATUS 0x4 with an error leaves STATUS, ERRCODE and ERRINFO 0. -/
theorem test_clear :
    (after (exec .clear errored)).map (fun t => (t.statusWord, t.errCode.number, t.errInfo.word)) = some (0, 0, 0) := by
  decide +kernel

/-- 2.7: SRESET cancels a pending CALC 1. -/
theorem test_sreset :
    (after (exec .sreset (pend 0x102 (tag base)))).map (fun t => (t.statusWord, t.vrecStatus.word, t.resValid)) =
      some (0, 0, 0) := by decide +kernel

/-! ## Witnesses: each statement with hypotheses is met by a concrete state -/

theorem witness_DecodeOfEncode : (Instr.recon 0).wf = true ∧ (Instr.recon 7).wf = true ∧ (Instr.calculate 7).wf = true := by
  decide

theorem witness_EncodeOfDecode : decode 0x00000000003F0003 = .ok (.measure 0b111111) := by decide +kernel

theorem witness_AssembledCommandsDecode :
    assemble (.recon 1) = some 0x101 ∧ assemble (.recon 6) = some 0x601 ∧ assemble (.recon 7) = none ∧
      assemble (.calculate 1) = some 0x102 ∧ assemble (.calculate 6) = some 0x602 ∧ assemble (.calculate 0) = none ∧
      assemble (.measure [6, 1]) = some 0x210003 ∧ assemble (.measure []) = none ∧
      assemble (.measure [1, 1]) = none := by decide +kernel

theorem witness_StepRunsThePendingCommand :
    (pend 0x101 base).busy = true ∧ decode (pend 0x101 base).pending = .ok (.recon 1) ∧
      (Instr.recon 1).immediate = false ∧ (pend 0x101 base).inputs = [] ∧
      ({ pend 0x101 base with inputs := [.engine] } : State).inputs = .engine :: [] := by decide +kernel

theorem witness_StepRunsTheImmediateCommand :
    ∃ s : State, s.rst = false ∧ s.inputs = .write 0x020 0x0E :: [] ∧ decode 0x0E = .ok .clear ∧
      Instr.clear.immediate = true := ⟨{ base with inputs := [.write 0x020 0x0E] }, by decide +kernel⟩

/-- One state for each branch of the issue: SRESET, dropped while BUSY, dropped while ERR, NOP, CLEAR, accepted. -/
theorem witness_CmdWriteFollowsIssue :
    (∃ s : State, s.rst = false ∧ s.inputs = .write 0x020 0x0F :: [] ∧ decode 0x0F = .ok .sreset) ∧
      (∃ s : State, s.rst = false ∧ s.inputs = .write 0x020 0x00 :: [] ∧ s.busy = true) ∧
      (∃ s : State, s.rst = false ∧ s.inputs = .write 0x020 0x101 :: [] ∧ s.busy = false ∧ s.err = true ∧
        decode 0x101 = .ok (.recon 1)) ∧
      (∃ s : State, s.rst = false ∧ s.inputs = .write 0x020 0x00 :: [] ∧ s.busy = false ∧ decode 0 = .ok .nop) ∧
      (∃ s : State, s.rst = false ∧ s.inputs = .write 0x020 0x0E :: [] ∧ s.busy = false ∧ s.err = true ∧
        decode 0x0E = .ok .clear) ∧
      ∃ s : State, s.rst = false ∧ s.inputs = .write 0x020 0x04 :: [] ∧ s.busy = false ∧ s.err = false ∧
        decode 0x04 = .error .reservedOpcode :=
  ⟨⟨{ base with inputs := [.write 0x020 0x0F] }, by decide +kernel⟩,
    ⟨{ pend 0x101 base with inputs := [.write 0x020 0x00] }, by decide +kernel⟩,
    ⟨{ errored with inputs := [.write 0x020 0x101] }, by decide +kernel⟩,
    ⟨{ base with inputs := [.write 0x020 0x00] }, by decide +kernel⟩,
    ⟨{ errored with inputs := [.write 0x020 0x0E] }, by decide +kernel⟩,
    ⟨{ base with inputs := [.write 0x020 0x04] }, by decide +kernel⟩⟩

theorem witness_IllegalPendingWordIsBadCommand :
    (pend 0x10001 base).busy = true ∧ (pend 0x10001 base).inputs = [] ∧
      decode (pend 0x10001 base).pending = .error .strayMask := by decide +kernel

theorem witness_EngineStepClearsBusy :
    (pend 0x102 base).busy = true ∧ (pend 0x102 base).inputs = [] ∧ (pend 0x102 base).pendingQueued :=
  ⟨rfl, rfl, fun i h => by
    have : decode (pend 0x102 base).pending = .ok (.calculate 1) := by decide +kernel
    rw [this] at h
    cases h
    rfl⟩

theorem witness_EveryRunBecomesQuiescent :
    ∃ s : State, hostKeepsReset s.rst s.inputs = true ∧ s.busy = true :=
  ⟨{ pend 0x101 base with
      inputs := [.read 0x018, .write 0x10000 1, .engine, .rst true, .engine, .rst false, .write 0x020 0x101, .read 0x004] },
    by decide +kernel⟩

theorem witness_BusyAccessOnlyDrops :
    ∃ s t : State, s.busy = true ∧ s.rst = false ∧ s.inputs = .read 0x018 :: [] ∧ leavesPending (.read 0x018) = true ∧
      t.busy = true ∧ t.rst = false ∧ t.inputs = .write 0x020 0x0E :: [] ∧
      leavesPending (.write 0x020 0x0E) = true :=
  ⟨{ pend 0x101 base with inputs := [.read 0x018] }, { pend 0x101 base with inputs := [.write 0x020 0x0E] },
    by decide +kernel⟩

theorem witness_CommitDoesNotDependOnTheDelay :
    (pend 0x101 base).busy = true ∧ (pend 0x101 base).rst = false ∧
      ∀ e ∈ [Input.read 0x018, .write 0x10000 7, .write 0x020 0x00], leavesPending e = true := by decide +kernel

/-- Both ways of BUSY, DONE, ERR and DROP: acceptance, commit, error, CLEAR, and a drop while BUSY and while ERR. -/
theorem witness_StatusBitsChangeOnlyAsListed :
    (∃ s t : State, step s = .next t ∧ s.busy = false ∧ t.busy = true ∧ s.done = true ∧ t.done = false) ∧
      (∃ s t : State, step s = .next t ∧ s.busy = true ∧ t.busy = false ∧ s.done = false ∧ t.done = true) ∧
      (∃ s t : State, step s = .next t ∧ s.err = false ∧ t.err = true) ∧
      (∃ s t : State, step s = .next t ∧ s.err = true ∧ t.err = false ∧ s.drop = true ∧ t.drop = false) ∧
      (∃ s t : State, step s = .next t ∧ s.drop = false ∧ t.drop = true) ∧
      ∃ s t : State, step s = .next t ∧ s.busy = false ∧ s.drop = false ∧ t.drop = true :=
  ⟨⟨{ base with done := true, inputs := [.write 0x020 0x101] }, _, rfl, by decide +kernel⟩,
    ⟨pend 0x101 base, _, rfl, by decide +kernel⟩, ⟨pend 0x001 base, _, rfl, by decide +kernel⟩,
    ⟨{ errored with drop := true, inputs := [.write 0x020 0x0E] }, _, rfl, by decide +kernel⟩,
    ⟨{ pend 0x101 base with inputs := [.write 0x020 0x0E] }, _, rfl, by decide +kernel⟩,
    ⟨{ errored with inputs := [.write 0x020 0x101] }, _, rfl, by decide +kernel⟩⟩

/-- The errored state with one access to come has the invariants. -/
theorem errored_inv (is : List Input) : ({ errored with inputs := is } : State).Inv where
  memory := List.Pairwise.nil
  offsets := by intro c h; cases h
  busyAlone := by intro h; cases h
  doneOrErr := by intro h; cases h.1
  errHasCode := by constructor <;> intro _ <;> first | rfl | exact ErrCode.noConfusion
  errHasInfo := by intro h; cases h
  queued := by intro h; cases h
  vrec := by intro h; cases h
  finite := by
    change (∀ k : Channel, errored.results[k].finite = true) ∧ errored.dbg.finite = true ∧ isFinite errored.repVrms = true
    decide +kernel
  inReset := by intro h; cases h

theorem witness_FirstErrorIsKept :
    ∃ s t : State, s.Inv ∧ s.err = true ∧ step s = .next t ∧ s.inputs = .write 0x020 0x101 :: [] ∧
      decode 0x101 = .ok (.recon 1) :=
  ⟨{ errored with inputs := [.write 0x020 0x101] }, _, errored_inv _, rfl, rfl, rfl, by decide +kernel⟩

theorem witness_IdlePendingIsNeverRead : base.busy = false := rfl

theorem witness_OnlyTheHostWritesConfiguration :
    ∃ s t : State, step s = .next t ∧ t.done = true ∧ s.inputs = [] :=
  ⟨pend 0x101 base, _, rfl, by decide +kernel⟩

theorem witness_NopChangesNothing : base.busy = false ∧ errored.busy = false ∧ (pend 0x101 base).busy = true :=
  ⟨rfl, rfl, rfl⟩

theorem witness_ClearReturnsFromTheError : errored.busy = false ∧ (pend 0x101 base).busy = true := ⟨rfl, rfl⟩

theorem witness_BadOperandsFailFirst :
    (0 = 0 ∨ 0 = 7) ∧ (7 = 0 ∨ 7 = 7) ∧ ¬ ({ base with n := 1 } : State).legalBatch ∧
      ¬ ({ base with n := 4097 } : State).legalBatch ∧ (0b100000 : BitVec 6) ≠ 0 := by decide +kernel

theorem witness_ReconRejectsBadConfiguration :
    ({ base with adcRes := 0 } : State).legalBatch ∧ ({ base with n := 4096, adcRes := 0 } : State).adcRes = 0 ∧
      ({ base with n := 4096, adcRes := 0 } : State).legalBatch ∧
      isFinite (({ base with phase := Vector.replicate 6 0x7FF8000000000000 } : State).phase[(5 : Channel)]) = false := by
  decide +kernel

/-- RV10: the samples follow the recurrence below index 1, where the product overflows. -/
def overflowing : State := { small [0, 2] [] [] with phase := Vector.replicate 6 0x7FE1CCF385EBC8A0 }

theorem witness_ReconReportsTheFirstBadSample_nonFinite :
    overflowing.legalBatch ∧ overflowing.adcRes ≠ 0 ∧ isFinite overflowing.phase[(0 : Channel)] = true ∧
      1 < overflowing.batch ∧ (∀ i, i < 1 → overflowing.reconstructsAt 0 (fun _ => 0) i) ∧
      (overflowing.vram 1).toNat < overflowing.adcRes.toNat ∧
      isFinite (fmul overflowing.phase[(0 : Channel)] (fsub (f64 (overflowing.vram 1).toNat) 0)) = false := by
  decide +kernel

theorem witness_ReconReportsTheFirstBadSample_code :
    (small [1023, 1024] [] []).legalBatch ∧ (small [1023, 1024] [] []).adcRes ≠ 0 ∧
      isFinite (small [1023, 1024] [] []).phase[(0 : Channel)] = true ∧ 1 < (small [1023, 1024] [] []).batch ∧
      (∀ i, i < 1 → (small [1023, 1024] [] []).reconstructsAt 0 (fun _ => 0x408FF80000000000) i) ∧
      (small [1023, 1024] [] []).adcRes.toNat ≤ ((small [1023, 1024] [] []).vram 1).toNat := by decide +kernel

theorem witness_CalcRejectsAnUnmatchedReconstruction :
    base.legalBatch ∧ ¬ base.vrecTagged 0 ∧ ¬ (tag base).vrecTagged 1 := by decide +kernel

theorem witness_CalcRejectsBadConfiguration :
    (tag { base with adcRes := 0 }).legalBatch ∧ (tag { base with adcRes := 0 }).vrecTagged 0 ∧
      (tag { base with adcRes := 0 }).adcRes = 0 ∧
      isFinite (tag { base with gridV := 0x7FF0000000000000 }).gridV = false ∧
      isZero (tag { base with xfmrV := 0x8000000000000000 }).xfmrV = true ∧
      (let s := tag { base with gridV := 0x4202A05F20000000, acAcc := 0x7E37E43C8800759C }
       s.legalBatch ∧ s.vrecTagged 0 ∧
        isFinite (fmul (fmul (fdiv s.boardRef (f64 s.adcRes.toNat)) (fmul (fdiv s.gridV s.xfmrV) 0x4026000000000000))
          s.acAcc) = false) := by decide +kernel

theorem witness_BadCurrentCodeFailsCalc :
    (let s := tag (small [10, 20] [1023, 1024] [0x4024000000000000, 0x4034000000000000])
     s.legalBatch ∧ s.vrecTagged 0 ∧ s.scaleFactors 0 = .ok (0x3FD4A00000000000, 0x3FD4A00000000000) ∧ 1 < s.batch ∧
      s.adcRes.toNat ≤ (s.iram 0 1).toNat ∧ ∀ i, i < 1 → (s.iram 0 i).toNat < s.adcRes.toNat) := by decide +kernel

/-- Channel 1 computes, channel 2 has a coefficient that is not finite. -/
def secondFails : State := { base with phase := (Vector.replicate 6 Config.one).set 1 0x7FF8000000000000 }

theorem secondFails_first : (secondFails.measureChannel 0).toOption.isSome = true := by decide +kernel

theorem witness_MeasureReportsTheFirstFailingChannel :
    secondFails.legalBatch ∧ (0b11 : BitVec 6).getLsbD (1 : Channel).val = true ∧
      secondFails.measureChannel 1 = .error ⟨.config, .reconstruction, 2, .none, 0⟩ ∧
      ∀ j : Channel, j < 1 → (0b11 : BitVec 6).getLsbD j.val = true → ∃ r, secondFails.measureChannel j = .ok r := by
  refine ⟨by decide +kernel, by decide, by decide +kernel, fun j hj _ => ?_⟩
  obtain rfl : j = 0 := Fin.lt_one_iff j |>.1 hj
  cases h : secondFails.measureChannel 0 with
  | ok r => exact ⟨r, rfl⟩
  | error e =>
    have h' := secondFails_first
    rw [h] at h'
    cases h'

theorem witness_MeasureReportsTheFirstFailingChannel_alone :
    ∃ v : State, secondFails.err = false ∧ (0b11 : BitVec 6).getLsbD (1 : Channel).val = true ∧
      exec (.measure (1#6 <<< (1 : Channel).val)) secondFails = .next v ∧ v.err = true ∧
      ∀ j : Channel, j < 1 → (0b11 : BitVec 6).getLsbD j.val = true →
        ∃ u, exec (.measure (1#6 <<< j.val)) secondFails = .next u ∧ u.err = false :=
  ⟨_, rfl, rfl, rfl, by decide +kernel, fun j hj _ => by
    obtain rfl : j = 0 := Fin.lt_one_iff j |>.1 hj
    exact ⟨_, rfl, by decide +kernel⟩⟩

theorem witness_CommandErrorsArePrecise :
    (Instr.measure 0b111111).immediate = false ∧ base.err = false := by decide

/-- RV12: `c = -1`, `W = [1023.0, 2046.0]`. -/
theorem witness_ReconCommitsTheRecurrence :
    (let s : State := { small [1023, 0] [] [] with phase := Vector.replicate 6 0xBFF0000000000000 }
     s.legalBatch ∧ isFinite s.phase[(5 : Channel)] = true ∧
      ∀ i, i < s.batch → s.reconstructsAt 5 (fun i => if i = 0 then 0x408FF80000000000 else 0x409FF80000000000) i) := by
  decide +kernel

theorem witness_UnitCoefficientIsTheIdentity :
    base.legalBatch ∧ base.phase[(5 : Channel)] = 0x3FF0000000000000 ∧
      ∀ i, i < base.batch → (base.vram i).toNat < base.adcRes.toNat := by decide +kernel

theorem witness_ZeroCoefficientHoldsTheFirstSample :
    (let s : State := { base with phase := Vector.replicate 6 0x8000000000000000 }
     s.legalBatch ∧ isZero s.phase[(0 : Channel)] = true ∧ isZero 0x0000000000000000 = true ∧
      ∀ i, i < s.batch → (s.vram i).toNat < s.adcRes.toNat) := by decide +kernel

/-- CV3 on its first two samples: `I = [1, 3]`, `V = [2, 4]`. -/
def paired : State := tag (small [2, 4] [1, 3] [0x4000000000000000, 0x4010000000000000])

/-- The values of CV3, with the sums of two samples. -/
def pairedReading : Reading × Debug :=
  (⟨0x3FBA964000000000, 0x3FD4A00000000000, 0x3FD4A00000000000, 0x3FF0000000000000⟩,
    ⟨1, 0x4010000000000000, 0x4018000000000000, 0x402C000000000000, 0x4024000000000000, 0x4034000000000000,
      0x3FF0000000000000, 0x3FBA964000000000⟩)

theorem witness_CalcCommitsTheReading :
    paired.legalBatch ∧ paired.vrecTagged 0 ∧ paired.calculable 0 paired.vrec ∧
      paired.readingOf 0 paired.vrec = pairedReading := by decide +kernel

/-- CV12: the voltage radicand is below 0. -/
def negativeRadicand : State := tag (small [1023, 1022] [0, 1] [0x408FF80000000000, 0x408FF7FFFFFFDDA4])

/-- CV16: the square of the second voltage overflows. -/
def passOverflows : State := tag (small [0, 1023] [0, 1023] [0, 0x7ED7DE4378DE757F])

/-- CV16b on the first two samples of CV3: the real power overflows. -/
def finalOverflows : State :=
  { paired with curAcc := Vector.replicate 6 0x7E37E43C8800759C, acAcc := 0x7E37E43C8800759C }

theorem witness_CalcReportsTheFirstFailure_code :
    (let s := tag (small [10, 20] [1023, 1024] [0x4024000000000000, 0x4034000000000000])
     s.legalBatch ∧ s.vrecTagged 0 ∧ s.configLegal 0 ∧ 1 < s.batch ∧ (∀ i, i < 1 → s.accumulatesAt 0 s.vrec i) ∧
      s.adcRes.toNat ≤ (s.iram 0 1).toNat) := by decide +kernel

theorem witness_CalcReportsTheFirstFailure_pass :
    passOverflows.legalBatch ∧ passOverflows.vrecTagged 0 ∧ passOverflows.configLegal 0 ∧ 1 < passOverflows.batch ∧
      (∀ i, i < 1 → passOverflows.accumulatesAt 0 passOverflows.vrec i) ∧
      (passOverflows.iram 0 1).toNat < passOverflows.adcRes.toNat ∧
      (passOverflows.passResults 0 passOverflows.vrec 1).all isFinite = false := by decide +kernel

theorem witness_CalcReportsTheFirstFailure_domain :
    (let s := negativeRadicand
     let L := s.finalChecks 0 s.vrec
     s.legalBatch ∧ s.vrecTagged 0 ∧ s.configLegal 0 ∧ (∀ i, i < s.batch → s.accumulatesAt 0 s.vrec i) ∧
      L = L.take 16 ++ .radicand .voltage (s.radicandV 0 s.vrec) :: L.drop 17 ∧
      (∀ x ∈ L.take 16, x.passes = true) ∧
      (FinalCheck.radicand .voltage (s.radicandV 0 s.vrec)).passes = false) := by decide +kernel

theorem witness_CalcReportsTheFirstFailure_nonFinite :
    (let s := finalOverflows
     let L := s.finalChecks 0 s.vrec
     let x := (s.readingOf 0 s.vrec).1.realPower
     s.legalBatch ∧ s.vrecTagged 0 ∧ s.configLegal 0 ∧ (∀ i, i < s.batch → s.accumulatesAt 0 s.vrec i) ∧
      L = L.take 8 ++ .finite x :: L.drop 9 ∧ (∀ x ∈ L.take 8, x.passes = true) ∧
      (FinalCheck.finite x).passes = false) := by decide +kernel

theorem witness_ReadingFollowsTheFormulas :
    paired.calculable 0 paired.vrec ∧ paired.vrecSeq.length = paired.batch ∧
      paired.calculate 0 paired.vrecSeq = .ok pairedReading := by decide +kernel

/-- An error of each code that a command's own execution can raise, in each stage. -/
theorem witness_ErrorRecordFollowsTheTable :
    ([(.recon 7, base), (.measure 1, { base with n := 1 }), (.calculate 1, base), (.recon 1, { base with adcRes := 0 }),
        (.recon 1, small [10, 1024] [] []), (.recon 1, overflowing), (.calculate 1, passOverflows),
        (.calculate 1, finalOverflows), (.calculate 1, negativeRadicand), (.measure 0b11, secondFails)] :
      List (Instr × State)).map (fun p => (p.1.immediate, p.1.wf, p.2.err, (after (exec p.1 p.2)).map State.errCode)) =
      ([.badChan, .len, .mismatch, .config, .code, .nonFinite, .nonFinite, .nonFinite, .domain, .config] :
        List ErrCode).map fun c => (false, true, false, some c) := by decide +kernel

theorem witness_FlatSignalsGiveZeroPowerFactor :
    (let s := tag (small [7, 7] [5, 5] [0x401C000000000000, 0x401C000000000000])
     s.legalBatch ∧ s.vrecTagged 0 ∧ s.scaleFactors 0 = .ok (0x3FD4A00000000000, 0x3FD4A00000000000) ∧
      (5 : Code).toNat < s.adcRes.toNat ∧ (∀ i, i < s.batch → s.iram 0 i = 5) ∧
      ∀ i, i < s.batch → s.vrec i = f64 (7 : Code).toNat) := by decide +kernel

/-- CV6 and CV13 on two samples: one flat sequence alone. -/
theorem witness_FlatSignalsGiveZeroPowerFactor_alone :
    (let s := tag (small [2, 4] [5, 5] [0x4000000000000000, 0x4010000000000000])
     s.legalBatch ∧ s.vrecTagged 0 ∧ s.configLegal 0 ∧ (∀ i, i < s.batch → s.accumulatesAt 0 s.vrec i) ∧
      (∀ c ∈ (s.finalChecks 0 s.vrec).dropLast, c.passes = true) ∧ ∀ i, i < s.batch → s.iram 0 i = 5) ∧
    (let s := tag (small [7, 7] [1, 3] [0x401C000000000000, 0x401C000000000000])
     s.legalBatch ∧ s.vrecTagged 0 ∧ s.configLegal 0 ∧ (∀ i, i < s.batch → s.accumulatesAt 0 s.vrec i) ∧
      (∀ c ∈ (s.finalChecks 0 s.vrec).dropLast, c.passes = true) ∧
      ∀ i, i < s.batch → s.vrec i = f64 (7 : Code).toNat) := by decide +kernel

/-- CV10: a negative current scale gives a negative RMS current. -/
theorem witness_RmsSignsComeFromTheScales :
    (let s : State := { paired with curAcc := Vector.replicate 6 0xBFF0000000000000 }
     s.scaleFactors 0 = .ok (0xBFD4A00000000000, 0x3FD4A00000000000) ∧
      (s.calculate 0 s.vrecSeq).map (fun r => isNegative r.1.rmsCurrent) = .ok true) := by decide +kernel

theorem witness_MeasureCommitsAllReadings :
    paired.legalBatch ∧
      (∀ k : Channel, (0b100001 : BitVec 6).getLsbD k.val = true →
        paired.reconstructible k paired.vrec ∧ paired.calculable k paired.vrec) ∧
      (0b100001 : BitVec 6).getLsbD (0 : Channel).val = true ∧
      (∀ k : Channel, (0b100001 : BitVec 6).getLsbD k.val = true → 0 ≤ k) ∧
      (0b100001 : BitVec 6).getLsbD (5 : Channel).val = true ∧
      ∀ k : Channel, (0b100001 : BitVec 6).getLsbD k.val = true → k ≤ 5 := by decide +kernel

theorem witness_MeasuredChannelsAreIndependent :
    ∃ t : State, paired.err = false ∧ (0b11 : BitVec 6).getLsbD (1 : Channel).val = true ∧
      exec (.measure 0b11) paired = .next t ∧ t.err = false := ⟨_, rfl, by decide, rfl, by decide +kernel⟩

/-- A RECON that succeeds and one that fails. -/
theorem witness_MeasureIsReconThenCalc :
    (∃ t : State, paired.err = false ∧ exec (.recon ((2 : Channel).val + 1)) paired = .next t ∧ t.err = false) ∧
      ∃ t : State, secondFails.err = false ∧ exec (.recon ((1 : Channel).val + 1)) secondFails = .next t ∧
        t.err = true :=
  ⟨⟨_, rfl, rfl, by decide +kernel⟩, ⟨_, rfl, rfl, by decide +kernel⟩⟩

/-- CV12: the only E_DOMAIN there is. -/
theorem witness_CurrentRadicandIsNeverNegative :
    negativeRadicand.legalBatch ∧ negativeRadicand.vrecSeq.length = negativeRadicand.batch ∧
      negativeRadicand.calculate 0 negativeRadicand.vrecSeq = .error ⟨.domain, .final, 1, .voltage, 0⟩ := by
  decide +kernel

/-- Two memories that differ at index 2 of VRAM and of VREC, beyond `N = 2`. -/
theorem witness_SamplesBeyondTheBatchAreNeverRead :
    (let m : Memory := Memory.storeBytes (paired.mem.storeWord 0x20010 5) 0x10004 [1, 2]
     let u : State := { paired with mem := m, epoch := 1 }
     m ≠ paired.mem ∧ (Instr.measure 1).immediate = false ∧
      ∀ j, j < paired.batch → u.vram j = paired.vram j ∧ u.vrec j = paired.vrec j ∧
        ∀ k, u.iram k j = paired.iram k j) := by decide +kernel

/-- AdditionRoundsOnceToNearestEven, MultiplicationRoundsOnceToNearestEven, DivisionRoundsOnceToNearestEven and
SquareRootIsCorrectlyRounded: the largest finite value, whose double overflows, the least subnormal, and -0.0. -/
theorem witness_finite_operands :
    isFinite 0x7FEFFFFFFFFFFFFF = true ∧ isFinite 0x0000000000000001 = true ∧ isFinite 0x8000000000000000 = true ∧
      (overflowBound : Int) ≤ fVal 0x7FEFFFFFFFFFFFFF + fVal 0x7FEFFFFFFFFFFFFF ∧
      fVal 0x0000000000000001 + fVal 0x8000000000000001 = 0 ∧
      fVal 0x8000000000000000 - fVal 0x0000000000000000 = 0 ∧ isZero 0x0000000000000001 = false ∧
      isNegative 0x8000000000000000 = false ∧ isNegative 0x7FEFFFFFFFFFFFFF = false := by decide +kernel

theorem witness_IntegerConversionIsExact : 2 ^ 53 - 1 < 2 ^ 53 ∧ 0 < 2 ^ 53 := by decide

theorem witness_CodeSumsAreExact :
    paired.legalBatch ∧ paired.vrecSeq.length = paired.batch ∧
      paired.pass 0 paired.vrecSeq = .ok ⟨0x4010000000000000, 0x4018000000000000, 0x402C000000000000,
        0x4024000000000000, 0x4034000000000000⟩ := by decide +kernel

/-- A reserved offset, its neighbour 0x88 (read only), a misaligned one and a writable one, each with a next step. -/
theorem witness_BusErrorsAreTheListedOnes :
    ([(0x090 : Addr), 0x088, 0x13C, 0x040, 0x1E000, 0x1DFF8, 0x3FFF8].map fun a =>
      ((after (step { base with inputs := [.read a] })).isSome,
        (after (step { base with inputs := [.write a 1] })).map State.bus)) =
      [(true, some (some (.write true))), (true, some (some (.write true))), (true, some (some (.write true))),
        (true, some (some (.write false))), (true, some (some (.write true))), (true, some (some (.write false))),
        (true, some (some (.write true)))] := by decide +kernel

theorem witness_RegisterReadsAnswerTheirValues :
    ∃ s : State, s.rst = false ∧ s.inputs = .read (BitVec.ofNat 18 (Reg.phase 5).offset) :: [] :=
  ⟨{ base with inputs := [.read 0x128] }, by decide +kernel⟩

theorem witness_SampleReadsAnswerFourCodes :
    ∀ a ∈ [(0x10000 : Addr), 0x1DFF8], ∃ s : State, s.rst = false ∧ s.inputs = .read a :: [] ∧ a.toNat % 8 = 0 ∧
      0x10000 ≤ a.toNat ∧ a.toNat < 0x1E000 :=
  fun a ha => ⟨{ base with inputs := [.read a] }, rfl, rfl, by
    rcases List.mem_pair.1 ha with rfl | rfl <;> decide⟩

theorem witness_SampleReadsAnswerVrec :
    ∀ a ∈ [(0x20000 : Addr), 0x27FF8], ∃ s : State, s.rst = false ∧ s.inputs = .read a :: [] ∧ a.toNat % 8 = 0 ∧
      0x20000 ≤ a.toNat ∧ a.toNat < 0x28000 :=
  fun a ha => ⟨{ base with inputs := [.read a] }, rfl, rfl, by
    rcases List.mem_pair.1 ha with rfl | rfl <;> decide⟩

theorem witness_SampleWritesStoreFourCodes :
    ∀ a ∈ [(0x10000 : Addr), 0x11FF8, 0x12000, 0x1DFF8], ∃ s : State, s.rst = false ∧ s.busy = false ∧
      s.inputs = .write a 5 :: [] ∧ a.toNat % 8 = 0 ∧ 0x10000 ≤ a.toNat ∧ a.toNat < 0x1E000 :=
  fun a ha => ⟨{ base with inputs := [.write a 5] }, rfl, rfl, rfl, by
    simp only [List.mem_cons, List.not_mem_nil, or_false] at ha
    rcases ha with rfl | rfl | rfl | rfl <;> decide⟩

theorem witness_RegisterWritesStoreTheirBits :
    (∃ s : State, s.rst = false ∧ s.busy = false ∧ (Reg.phase 0).writable = true ∧ s.vrecStatus.valid = true ∧
      s.inputs = .write (BitVec.ofNat 18 (Reg.phase 0).offset) 5 :: []) ∧
      ∃ s : State, s.rst = false ∧ s.busy = false ∧ Reg.ctrl.writable = true ∧ s.ieDone = false ∧
        s.inputs = .write (BitVec.ofNat 18 Reg.ctrl.offset) 3 :: [] :=
  ⟨⟨{ tag base with inputs := [.write 0x100 5] }, by decide +kernel⟩,
    ⟨{ base with inputs := [.write 0x010 3] }, by decide +kernel⟩⟩

theorem witness_StatusReadsMirrorTheInterrupt : ∃ s : State, s.rst = false ∧ s.inputs = .read 0x018 :: [] :=
  ⟨{ base with inputs := [.read 0x018] }, rfl, rfl⟩

theorem witness_HardwareResetSetsEveryRegister :
    (∃ s : State, s.inputs = .rst true :: [] ∧ (true = true ∨ s.rst = true)) ∧
      ∃ s : State, s.inputs = .rst false :: [] ∧ (false = true ∨ s.rst = true) :=
  ⟨⟨{ base with inputs := [.rst true] }, rfl, .inl rfl⟩, ⟨{ base with inputs := [.rst false], rst := true }, rfl, .inr rfl⟩⟩

theorem witness_AccessDuringResetFaults :
    (∃ s : State, s.rst = true ∧ s.inputs = .read 0x018 :: []) ∧
      ∃ s : State, s.rst = true ∧ s.inputs = .write 0x038 4 :: [] :=
  ⟨⟨{ State.reset with rst := true, inputs := [.read 0x018] }, rfl, rfl⟩,
    ⟨{ State.reset with rst := true, inputs := [.write 0x038 4] }, rfl, rfl⟩⟩

/-- A reconstructed batch has the invariants. -/
theorem tagged_inv : (tag base).Inv where
  memory := by decide +kernel
  offsets := by
    change ∀ c ∈ (tag base).mem, (0x10000 ≤ c.1 ∧ c.1 < 0x1E000) ∨ (0x20000 ≤ c.1 ∧ c.1 < 0x28000)
    decide +kernel
  busyAlone := by intro h; cases h
  doneOrErr := by intro h; cases h.1
  errHasCode := by constructor <;> intro h <;> first | exact absurd rfl h | cases h
  errHasInfo := fun _ => rfl
  queued := by intro h; cases h
  vrec := fun _ => ⟨0, 1024, rfl, rfl, by decide +kernel, by decide +kernel, by decide +kernel, by decide +kernel⟩
  finite := by
    change (∀ k : Channel, (tag base).results[k].finite = true) ∧ (tag base).dbg.finite = true ∧
      isFinite (tag base).repVrms = true
    decide +kernel
  inReset := by intro h; cases h

theorem witness_EveryStepKeepsTheInvariants : ∃ s t : State, s.Inv ∧ step s = .next t := ⟨tag base, _, tagged_inv, rfl⟩

theorem witness_ValidVrecIsFiniteAndCurrent : (tag base).Inv ∧ (tag base).vrecStatus.valid = true := ⟨tagged_inv, rfl⟩

end Sys2Proof.Tests
end

