-- ==== Sys2Proof/Proofs/CurrentCodes.lean ====
section
/-! PROOFS. CurrentCodes.lean: CALC of a batch in which a current code is at or above ADC_RES: how the pass ends
(41_calculator.md R93), and how its error becomes that of the command (60_exceptions.md R118). -/

namespace Sys2Proof.Machine

/-- Below `j` every index passes the checks of R93, or there is a first one that does not. -/
theorem accumulatesAt_or_first_failure (s : State) (k : Channel) (W : Nat → Word) (j : Nat) :
    (∀ i, i < j → s.accumulatesAt k W i) ∨
      ∃ i, i < j ∧ ¬ s.accumulatesAt k W i ∧ ∀ l, l < i → s.accumulatesAt k W l := by
  by_cases h : ∃ i, i < j ∧ ¬ s.accumulatesAt k W i
  · obtain ⟨hlt, hfail⟩ := Nat.find_spec h
    refine .inr ⟨Nat.find h, hlt, hfail, fun l hl => ?_⟩
    by_contra hl'
    exact Nat.find_min h hl ⟨hl.trans hlt, hl'⟩
  · exact .inl fun i hi => not_not.1 fun hf => h ⟨i, hi, hf⟩

/-- The pass over a batch whose first bad code is at `j` ends with E_CODE there, or with E_NONFINITE before it
(R93, R118). -/
theorem pass_error_of_first_bad_code {s : State} {k : Channel} {W : Nat → Word} {j : Nat} (hj : j < s.batch)
    (hbad : s.adcRes.toNat ≤ (s.iram k j).toNat) (hlegal : ∀ i, i < j → (s.iram k i).toNat < s.adcRes.toNat) :
    s.pass k ((List.range s.batch).map W) = .error ⟨.code, .pass, channelNumber k, .current, j⟩ ∨
      ∃ i, i < j ∧
        s.pass k ((List.range s.batch).map W) = .error ⟨.nonFinite, .pass, channelNumber k, .none, i⟩ := by
  rcases accumulatesAt_or_first_failure s k W j with hall | ⟨i, hij, hfail, hbefore⟩
  · exact .inl ((pass_stop hj hall).1 hbad)
  · have hcode := hlegal i hij
    have hresults : (s.passResults k W i).all isFinite = false :=
      Bool.eq_false_iff.2 fun hfinite => hfail ⟨hcode, hfinite⟩
    exact .inr ⟨i, hij, (pass_stop (hij.trans hj) hbefore).2 hcode hresults⟩

/-- With legal scale factors an error of the pass is the calculation's (R100). -/
theorem calculate_error_of_pass {s : State} {k : Channel} {ws : List Word} {f : Word × Word} {e : CmdError}
    (hf : s.scaleFactors k = .ok f) (hp : s.pass k ws = .error e) : s.calculate k ws = .error e := by
  simp [State.calculate, hf, hp]

/-- CALC of a legal, matched batch raises what the calculation over VREC raises (R101, R116). -/
theorem exec_calculate_error {s : State} {k : Channel} {e : CmdError} (hl : s.legalBatch) (hm : s.vrecTagged k)
    (he : s.calculate k s.vrecSeq = .error e) :
    exec (.calculate (k.val + 1)) s =
      .next (s.failed e.code ⟨BitVec.ofNat 16 e.index, e.channel, e.stage, e.seq, 0x02⟩) := by
  have hcmd : queuedCommand (.calculate (k.val + 1)) s = .error e := by
    rw [queuedCommand, calcCommand_number k hl hm, he]
  rw [exec_queued s rfl, hcmd, finishQueued_error, opField_encode]
  rfl

/-- Settles O26: the pass over VREC ends at the first bad current code or at an earlier overflow, and CALC reports
that error. -/
theorem badCurrentCodeFailsCalc : Obligations.BadCurrentCodeFailsCalc := by
  intro s k sf j hl hm hsf hj hbad hlegal
  rcases pass_error_of_first_bad_code (W := s.vrec) hj hbad hlegal with hp | ⟨i, hij, hp⟩
  · exact .inl (exec_calculate_error hl hm (calculate_error_of_pass hsf hp))
  · exact .inr ⟨i, hij, exec_calculate_error hl hm (calculate_error_of_pass hsf hp)⟩

end Sys2Proof.Machine
end

section
/-! # Valid VREC: a reconstruction is finite (40_reconstructor.md R84), what a valid VREC depends on
(10_state.md R37, R48), and that RECON's commit leaves a valid one (R88). -/

namespace Sys2Proof.Machine

/-! ## A reconstruction is finite -/

/-- The nearest integer to a quotient is at most one above its floor. -/
theorem divNearestEven_le (a b : Nat) : divNearestEven a b ≤ a / b + 1 := by
  unfold divNearestEven
  dsimp only
  split <;> omega

/-- An integer of 53 bits, scaled by at most the `2^1074` units of one, is rounded below infinity (R10). -/
theorem roundMagnitude_lt_inf {n e : Nat} (hn : n < 2 ^ 53) (he : e ≤ 1074) :
    roundMagnitude (n * 2 ^ e) 1 < infMagnitude := by
  have hlog : (n * 2 ^ e).log2 < 53 + e := by
    rcases Nat.eq_zero_or_pos (n * 2 ^ e) with h0 | h0
    · rw [h0, Nat.log2_zero]; omega
    · refine (Nat.log2_lt h0.ne').2 ?_
      rw [Nat.pow_add]
      exact Nat.mul_lt_mul_of_pos_right hn (Nat.two_pow_pos e)
  unfold roundMagnitude infMagnitude
  simp only [Nat.div_one, Nat.one_mul]
  generalize n * 2 ^ e = m at hlog ⊢
  have hround := divNearestEven_le m (2 ^ (m.log2 - 52))
  have hquot : m / 2 ^ (m.log2 - 52) < 2 ^ 53 := by
    rw [Nat.div_lt_iff_lt_mul (Nat.two_pow_pos _), ← Nat.pow_add]
    exact Nat.lt_log2_self.trans_le (Nat.pow_le_pow_right (by omega) (by omega))
  omega

/-- An integer below `2^53` does not overflow binary64 (R104). -/
theorem isFinite_f64 {n : Nat} (h : n < 2 ^ 53) : isFinite (f64 n) = true :=
  isFinite_packSign false (roundMagnitude_lt_inf h le_rfl)

/-- A sample code is a finite binary64 value (R8, R104). -/
theorem isFinite_f64_code (v : Code) : isFinite (f64 v.toNat) = true :=
  isFinite_f64 (v.isLt.trans (by decide))

/-- The recurrence checks every sample it answers (R84). -/
theorem reconstructFrom_finite {adc : BitVec 32} {c : Word} {ch : BitVec 3} {vs : List Code} {i : Nat} {prev : Word}
    {ws : List Word} (h : reconstructFrom adc c ch i prev vs = .ok ws) : ∀ w ∈ ws, isFinite w = true := by
  induction vs generalizing i prev ws with
  | nil => cases h; simp
  | cons v vs ih =>
    simp only [reconstructFrom] at h
    split_ifs at h with hcode hfinite
    split at h
    · rename_i ws' hrest
      cases h
      simp only [Bool.and_eq_true] at hfinite
      exact List.forall_mem_cons.2 ⟨hfinite.2, ih hrest⟩
    · cases h

/-- Every sample of a reconstruction is finite (R84, R48). -/
theorem reconstructSeq_finite {adc : BitVec 32} {c : Word} {ch : BitVec 3} {vs : List Code} {ws : List Word}
    (h : reconstructSeq adc c ch vs = .ok ws) : ∀ w ∈ ws, isFinite w = true := by
  cases vs with
  | nil => cases h; simp
  | cons v vs =>
    simp only [reconstructSeq] at h
    split_ifs at h
    split at h
    · rename_i ws' hrest
      cases h
      exact List.forall_mem_cons.2 ⟨isFinite_f64_code v, reconstructFrom_finite hrest⟩
    · cases h

/-! ## What VREC's validity reads -/

theorem batch_congr {s t : State} (hn : t.n = s.n) : t.batch = s.batch := by
  rw [State.batch, hn, State.batch]

/-- `VRAM[0..N)` is the bytes of VRAM at the current length (R42). -/
theorem vramSeq_congr {s t : State} (hn : t.n = s.n) (hlen : s.batch ≤ 4096)
    (hb : ∀ a, 0x10000 ≤ a → a < 0x12000 → t.byteAt a = s.byteAt a) : t.vramSeq = s.vramSeq := by
  unfold State.vramSeq
  rw [batch_congr hn]
  refine List.map_congr_left fun i hi => ?_
  have hi := List.mem_range.1 hi
  exact State.codeAt_congr s t _ (hb _ (by unfold vramBase; omega) (by unfold vramBase; omega))
    (hb _ (by unfold vramBase; omega) (by unfold vramBase; omega))

/-- `VREC[0..N)` is the bytes of VREC at the current length (R44). -/
theorem vrecSeq_congr {s t : State} (hn : t.n = s.n) (hlen : s.batch ≤ 4096)
    (hb : ∀ a, 0x20000 ≤ a → a < 0x28000 → t.byteAt a = s.byteAt a) : t.vrecSeq = s.vrecSeq := by
  unfold State.vrecSeq
  rw [batch_congr hn]
  refine List.map_congr_left fun i hi => ?_
  have hi := List.mem_range.1 hi
  exact State.wordAt_congr s t _ fun j hj => hb _ (by unfold vrecBase; omega) (by unfold vrecBase; omega)

/-- The validity of VREC reads VREC_STATUS, `N`, the `PHASE` of its channel, VRAM and VREC, and nothing else
(R37, R48). -/
theorem vrecMatches_congr {s t : State} (h : s.vrecMatches) (hv : t.vrecStatus = s.vrecStatus) (hn : t.n = s.n)
    (hp : ∀ k, s.vrecStatus.ch = channelNumber k → t.phase[k] = s.phase[k])
    (hb : ∀ a, (0x10000 ≤ a ∧ a < 0x12000) ∨ (0x20000 ≤ a ∧ a < 0x28000) → t.byteAt a = s.byteAt a) :
    t.vrecMatches := by
  obtain ⟨k, adc, hch, hlen, hmin, hmax, hphase, hrec⟩ := h
  refine ⟨k, adc, ?_, ?_, ?_, ?_, ?_, ?_⟩
  · rw [hv, hch]
  · rw [hv, hn, hlen]
  · rw [batch_congr hn]; exact hmin
  · rw [batch_congr hn]; exact hmax
  · rw [hp k hch]; exact hphase
  · rw [hp k hch, vramSeq_congr hn hmax fun a h1 h2 => hb a (.inl ⟨h1, h2⟩),
      vrecSeq_congr hn hmax fun a h1 h2 => hb a (.inr ⟨h1, h2⟩)]
    exact hrec

/-! ## RECON's commit -/

/-- VREC after RECON's commit is the reconstruction committed (R88). -/
theorem vrecSeq_commitRecon {k : Channel} {ws : List Word} {s : State} (hlen : ws.length = s.batch) :
    (commitRecon k ws s).vrecSeq = ws := by
  have hbatch : (commitRecon k ws s).batch = s.batch := rfl
  refine List.ext_getElem (by simp [State.vrecSeq, hbatch, hlen]) fun i h1 h2 => ?_
  simp only [State.vrecSeq, List.getElem_map, List.getElem_range]
  exact vrec_commitRecon k ws s i h2

/-- RECON's commit leaves a VREC that matches the current batch (R37, R88). -/
theorem vrecMatches_commitRecon {k : Channel} {ws : List Word} {s : State} (hl : s.legalBatch)
    (h : s.reconstruct k = .ok ws) : (commitRecon k ws s).vrecMatches := by
  obtain ⟨-, hphase, hseq⟩ := reconstruct_eq_ok.1 h
  have hvram : (commitRecon k ws s).vramSeq = s.vramSeq :=
    vramSeq_congr rfl hl.2 fun a _ ha => byteAt_commitRecon_of_not k ws s a (by unfold vrecBase; omega)
  refine ⟨k, s.adcRes, rfl, rfl, hl.1, hl.2, hphase, ?_⟩
  rw [hvram, vrecSeq_commitRecon (reconstruct_length h)]
  exact hseq

/-- Settles O60: the invariant makes a valid VREC a reconstruction at the current length, and reconstructions are
finite. -/
theorem validVrecIsFiniteAndCurrent : Obligations.ValidVrecIsFiniteAndCurrent := by
  intro s hs hvalid
  obtain ⟨k, adc, hch, hlen, hmin, hmax, -, hrec⟩ := hs.vrec hvalid
  have hk := channelNumber_toNat k
  have hbatch : s.vrecStatus.len.toNat = s.batch := congrArg BitVec.toNat hlen
  refine ⟨hbatch ▸ hmin, hbatch ▸ hmax, ?_, ?_, hlen, fun i hi => ?_⟩
  · rw [hch, hk]; omega
  · rw [hch, hk]; omega
  · exact reconstructSeq_finite hrec _ (List.mem_map_of_mem (List.mem_range.2 (hbatch ▸ hi)))

end Sys2Proof.Machine
end

section
/-! # Finite results: every reading, debug value and REP_VRMS that CALC or MEASURE commits is finite
(60_exceptions.md R114, E_NONFINITE). -/

namespace Sys2Proof.Machine

/-- Every value that a calculation answers is finite (R93, R100). -/
theorem calculate_finite {s : State} {k : Channel} {ws : List Word} {r : Reading × Debug}
    (h : s.calculate k ws = .ok r) : r.1.finite = true ∧ r.2.finite = true := by
  obtain ⟨f, t, -, hpass, hfinal⟩ := calculate_eq_ok.1 h
  obtain ⟨hsi, hsv, hsp, hsii, hsvv⟩ := pass_finite hpass
  obtain ⟨r, d⟩ := r
  obtain ⟨⟨hreal, hrmsI, hrmsV, hpf, hcore, happ⟩, -, -, hd, -⟩ := finalStage_eq_ok hfinal
  refine ⟨by simp [Reading.finite, hreal, hrmsI, hrmsV, hpf], ?_⟩
  rw [hd] at hcore happ ⊢
  simp [Debug.finite, hsi, hsv, hsp, hsii, hsvv, hcore, happ]

theorem measureChannel_finite {s : State} {k : Channel} {r : Reading × Debug} (h : s.measureChannel k = .ok r) :
    r.1.finite = true ∧ r.2.finite = true := by
  obtain ⟨ws, -, h⟩ := except_bind_eq_ok.1 h
  exact calculate_finite h

/-- Storing a finite reading among finite ones leaves them finite. -/
theorem set_finite {v : Vector Reading 6} {r : Reading} (hv : ∀ k : Channel, v[k].finite = true)
    (hr : r.finite = true) (j k : Channel) : (v.set j r)[k].finite = true := by
  by_cases hjk : j = k
  · subst hjk; simpa using hr
  · have hne : j.val ≠ k.val := fun e => hjk (Fin.ext e)
    simpa [Vector.getElem_set_ne _ _ hne] using hv k

theorem storeReadings_finite {rs : List (Channel × Reading × Debug)} {v : Vector Reading 6}
    (hv : ∀ k : Channel, v[k].finite = true) (hrs : ∀ r ∈ rs, r.2.1.finite = true) (k : Channel) :
    (storeReadings rs v)[k].finite = true := by
  induction rs generalizing v with
  | nil => exact hv k
  | cons r rs ih =>
    obtain ⟨hr, hrs⟩ := List.forall_mem_cons.1 hrs
    exact ih (set_finite hv hr r.1) hrs

theorem commitCalc_resultsFinite {k : Channel} {r : Reading × Debug} {s : State} (h : s.resultsFinite)
    (hr : r.1.finite = true ∧ r.2.finite = true) : (commitCalc k r s).resultsFinite := by
  obtain ⟨hresults, -, hrep⟩ := h
  exact ⟨set_finite hresults hr.1 k, hr.2, hrep⟩

theorem commitMeasure_resultsFinite {m : BitVec 6} {rs : List (Channel × Reading × Debug)} {s : State}
    (h : s.resultsFinite) (hrs : ∀ r ∈ rs, r.2.1.finite = true ∧ r.2.2.finite = true) :
    (commitMeasure m rs s).resultsFinite := by
  obtain ⟨hresults, hdbg, hrep⟩ := h
  refine ⟨storeReadings_finite hresults fun r hr => (hrs r hr).1, ?_, ?_⟩
  · rw [commitMeasure_dbg]
    cases hlast : rs.getLast? with
    | none => exact hdbg
    | some r => exact (hrs r (List.mem_of_getLast? hlast)).2
  · rw [commitMeasure_repVrms]
    cases hhead : rs.head? with
    | none => exact hrep
    | some r =>
      have hr := (hrs r (List.mem_of_head? hhead)).1
      simp only [Reading.finite, Bool.and_eq_true] at hr
      exact hr.1.2

/-- The commit of a queued command keeps every result finite (R114). -/
theorem queuedCommand_resultsFinite {i : Instr} {s t : State} (h : s.resultsFinite)
    (hq : queuedCommand i s = .ok t) : t.resultsFinite := by
  cases i with
  | recon ch => obtain ⟨k, ws, -, -, -, rfl⟩ := reconCommand_eq_ok.1 hq; exact h
  | calculate ch =>
    obtain ⟨k, r, -, -, -, hr, rfl⟩ := calcCommand_eq_ok.1 hq
    exact commitCalc_resultsFinite h (calculate_finite hr)
  | measure m =>
    obtain ⟨rs, -, -, hrs, rfl⟩ := measureCommand_eq_ok.1 hq
    exact commitMeasure_resultsFinite h fun r hr => measureChannel_finite ((measureAll_eq_ok hrs).2 r hr)
  | nop => cases hq; exact h
  | clear => cases hq; exact h
  | sreset => cases hq; exact h

end Sys2Proof.Machine
end

section
/-! # Invariants: each thing a step can do keeps the invariants of the block (10_state.md R47, R48;
60_exceptions.md R123; 70_reset_and_hazards.md R132). -/

namespace Sys2Proof.Machine

/-! ## Reset -/

theorem reset_resultsFinite : State.reset.resultsFinite := by
  refine ⟨fun k => ?_, by decide, by decide⟩
  simp only [reset_results, Fin.getElem_fin, Vector.getElem_replicate]
  decide

/-- The reset values have the invariants, whatever the model's own fields hold (R50). -/
theorem inv_of_heldInReset {s : State} (h : s.heldInReset) : s.Inv where
  memory := by rw [h]; exact reset_mem_wf
  offsets := by rw [h]; simp
  busyAlone := by rw [h]; simp
  doneOrErr := by rw [h]; simp
  errHasCode := by rw [h]; simp
  errHasInfo := by rw [h]; simp
  queued := by rw [h]; simp
  vrec := by rw [h]; simp [VrecStatus.zero]
  finite := by rw [h]; exact reset_resultsFinite
  inReset := fun _ => h

/-- Settles O59: the reset state is held in its own reset values. -/
theorem resetHasTheInvariants : Obligations.ResetHasTheInvariants := inv_of_heldInReset rfl

theorem inv_hardwareReset (b : Bool) (s : State) : (hardwareReset b s).Inv := inv_of_heldInReset rfl

/-! ## Accesses that change no register -/

/-- The invariants do not speak of the inputs, the answer on the bus and the count of free draws. -/
theorem inv_ports {s : State} (h : s.Inv) (bus : Option BusResponse) (inputs : List Input) (draws : Nat) :
    { s with bus := bus, inputs := inputs, draws := draws }.Inv where
  memory := h.memory
  offsets := h.offsets
  busyAlone := h.busyAlone
  doneOrErr := h.doneOrErr
  errHasCode := h.errHasCode
  errHasInfo := h.errHasInfo
  queued := h.queued
  vrec := h.vrec
  finite := h.finite
  inReset := fun hr => by have hs := h.inReset hr; unfold State.heldInReset at hs ⊢; rw [hs]

theorem inv_inputs {s : State} (h : s.Inv) (inputs : List Input) : { s with inputs := inputs }.Inv :=
  inv_ports h s.bus inputs s.draws

theorem inv_respond {s : State} (h : s.Inv) (r : BusResponse) : (respond r s).Inv :=
  inv_ports h (some r) s.inputs s.draws

theorem inv_hostRead {s : State} (h : s.Inv) (a : Addr) : (hostRead a s).Inv := by
  rw [hostRead_frame]
  exact inv_ports h _ s.inputs _

/-! ## CMD writes and dropped writes, outside reset -/

theorem inv_dropWrite {s : State} (h : s.Inv) (hr : s.rst = false) : (dropWrite s).Inv where
  memory := h.memory
  offsets := h.offsets
  busyAlone := h.busyAlone
  doneOrErr := h.doneOrErr
  errHasCode := h.errHasCode
  errHasInfo := h.errHasInfo
  queued := h.queued
  vrec := h.vrec
  finite := h.finite
  inReset := by simp [hr]

theorem inv_clearErrors {s : State} (h : s.Inv) (hr : s.rst = false) : (clearErrors s).Inv where
  memory := h.memory
  offsets := h.offsets
  busyAlone := fun _ => ⟨rfl, rfl⟩
  doneOrErr := by simp
  errHasCode := by simp
  errHasInfo := by simp
  queued := h.queued
  vrec := h.vrec
  finite := h.finite
  inReset := by simp [hr]

theorem inv_softReset {s : State} (h : s.Inv) (hr : s.rst = false) : (softReset s).Inv where
  memory := h.memory
  offsets := h.offsets
  busyAlone := by simp
  doneOrErr := by simp
  errHasCode := by simp
  errHasInfo := by simp
  queued := by simp
  vrec := by simp [VrecStatus.zero]
  finite := reset_resultsFinite
  inReset := by simp [hr]

theorem inv_acceptWord {s : State} {w : Word} (h : s.Inv) (hr : s.rst = false) (he : s.err = false)
    (hw : ∀ i, decode w = .ok i → i.immediate = false) : (acceptWord w s).Inv where
  memory := h.memory
  offsets := h.offsets
  busyAlone := fun _ => ⟨he, rfl⟩
  doneOrErr := by simp
  errHasCode := h.errHasCode
  errHasInfo := h.errHasInfo
  queued := fun _ => hw
  vrec := h.vrec
  finite := h.finite
  inReset := by simp [hr]

/-- A word that is no NOP, CLEAR or SRESET is a queued one (R77). -/
theorem immediate_eq_false_of_decode {w : Word} (hnop : decode w ≠ .ok .nop) (hclear : decode w ≠ .ok .clear)
    (hsreset : decode w ≠ .ok .sreset) (i : Instr) (hi : decode w = .ok i) : i.immediate = false := by
  cases i with
  | nop => exact absurd hi hnop
  | clear => exact absurd hi hclear
  | sreset => exact absurd hi hsreset
  | recon _ => rfl
  | calculate _ => rfl
  | measure _ => rfl

theorem inv_issue {s t : State} {w : Word} (h : s.Inv) (hr : s.rst = false) (ht : issue w s = .next t) : t.Inv := by
  rcases issue_cases w s with ⟨e, -, -⟩ | ⟨e, -, -⟩ | ⟨e, -⟩ | ⟨e, -, -⟩ | ⟨e, -, herr, hnop, hclear, hsreset⟩ <;>
    cases e.symm.trans ht
  · exact h
  · exact inv_clearErrors h hr
  · exact inv_softReset h hr
  · exact inv_dropWrite h hr
  · exact inv_acceptWord h hr herr (immediate_eq_false_of_decode hnop hclear hsreset)

/-! ## Host writes that are stored -/

/-- The map places a sample word at its own offset, in VRAM or in IRAM (R53, R57). -/
theorem locate_sampleWord {a : Nat} {l : Loc} (h : locate a = some l) :
    (∀ b, l = .vramWord b → b = a ∧ 0x10000 ≤ a ∧ a < 0x12000) ∧
      ∀ b, l = .iramWord b → b = a ∧ 0x12000 ≤ a ∧ a < 0x1E000 := by
  unfold locate vramBase at h
  repeat' split at h
  · obtain ⟨r, -, rfl⟩ := Option.map_eq_some_iff.1 h; simp
  · cases h; simp
  · cases h; simp
  · obtain ⟨f, -, rfl⟩ := Option.map_eq_some_iff.1 h; simp
  · obtain ⟨f, -, rfl⟩ := Option.map_eq_some_iff.1 h; simp
  · cases h; simp; omega
  · cases h; simp; omega
  · cases h; simp
  · cases h

/-- All eight bytes of a sample word lie in VRAM, or all in IRAM (R53, R57). -/
theorem sampleWord_bounds {a : Addr} {b : Nat} :
    (target a = some (.vramWord b) → 0x10000 ≤ b ∧ b + 8 ≤ 0x12000) ∧
      (target a = some (.iramWord b) → 0x12000 ≤ b ∧ b + 8 ≤ 0x1E000) := by
  unfold target
  split
  · exact ⟨fun h => by have := (locate_sampleWord h).1 b rfl; omega,
      fun h => by have := (locate_sampleWord h).2 b rfl; omega⟩
  · exact ⟨nofun, nofun⟩

/-- The bytes outside a stored word are as before (R64). -/
theorem byteAt_storeWord_of_not (s : State) (b : Nat) (v : Word) {a : Nat} (ha : ¬ (b ≤ a ∧ a < b + 8)) :
    { s with mem := s.mem.storeWord b v }.byteAt a = s.byteAt a := by
  simp only [State.byteAt, Memory.lookup_storeWord, if_neg ha]

theorem mem_storeReg (r : Reg) (v : Word) (s : State) : (storeReg r v s).mem = s.mem := by
  cases r <;> try rfl
  simp only [storeReg]; split <;> rfl

/-- A stored write leaves the canonical form, and writes sample memory only (R53, R58). -/
theorem storeLoc_memory {s : State} {a : Addr} {l : Loc} {v : Word} (ht : target a = some l) (hwf : s.mem.wf)
    (hoff : ∀ c ∈ s.mem, storedOffset c.1) :
    (storeLoc l v s).mem.wf ∧ ∀ c ∈ (storeLoc l v s).mem, storedOffset c.1 := by
  have hword : ∀ b, 0x10000 ≤ b → b + 8 ≤ 0x1E000 →
      (s.mem.storeWord b v).wf ∧ ∀ c ∈ s.mem.storeWord b v, storedOffset c.1 := fun b h1 h2 =>
    ⟨Memory.wf_storeWord hwf b v, fun c hc =>
      (Memory.mem_storeWord hc).elim (fun ⟨h3, h4⟩ => .inl ⟨by omega, by omega⟩) (hoff c)⟩
  cases l with
  | reg r => rw [storeLoc, mem_storeReg]; exact ⟨hwf, hoff⟩
  | vramWord b =>
    obtain ⟨h1, h2⟩ := sampleWord_bounds.1 ht
    exact hword b h1 (by omega)
  | iramWord b =>
    obtain ⟨h1, h2⟩ := sampleWord_bounds.2 ht
    exact hword b (by omega) h2
  | vrecWord b => exact ⟨hwf, hoff⟩

/-- A register write invalidates VREC, or writes no register that its validity reads (R61, R86). -/
theorem storeReg_vrec (r : Reg) (v : Word) {s : State} (h : s.vrecStatus.valid = true → s.vrecMatches)
    (hvalid : (storeReg r v s).vrecStatus.valid = true) : (storeReg r v s).vrecMatches := by
  cases r with
  | n => cases hvalid
  | phase k =>
    by_cases hk : channelNumber k = s.vrecStatus.ch
    · simp [storeReg, hk] at hvalid
    · simp only [storeReg, if_neg hk] at hvalid ⊢
      refine vrecMatches_congr (h hvalid) rfl rfl (fun j hj => ?_) fun a _ => rfl
      have hne : k.val ≠ j.val := fun e => hk (by rw [hj, Fin.ext e])
      exact Vector.getElem_set_ne k.isLt j.isLt hne
  | _ => exact vrecMatches_congr (h hvalid) rfl rfl (fun _ _ => rfl) fun _ _ => rfl

/-- A stored write invalidates VREC, or changes nothing that its validity reads (R61). -/
theorem storeLoc_vrec {s : State} {a : Addr} {l : Loc} {v : Word} (ht : target a = some l)
    (h : s.vrecStatus.valid = true → s.vrecMatches) (hvalid : (storeLoc l v s).vrecStatus.valid = true) :
    (storeLoc l v s).vrecMatches := by
  cases l with
  | reg r => exact storeReg_vrec r v h hvalid
  | vramWord b => cases hvalid
  | iramWord b =>
    obtain ⟨h1, h2⟩ := sampleWord_bounds.2 ht
    refine vrecMatches_congr (h hvalid) rfl rfl (fun _ _ => rfl) fun a ha => ?_
    have hout : ¬ (b ≤ a ∧ a < b + 8) := by omega
    exact byteAt_storeWord_of_not s b v hout
  | vrecWord b => exact h hvalid

theorem inv_storeLoc {s : State} {a : Addr} {l : Loc} (h : s.Inv) (hr : s.rst = false) (ht : target a = some l)
    (v : Word) : (storeLoc l v s).Inv := by
  obtain ⟨hwf, hoff⟩ := storeLoc_memory (v := v) ht h.memory h.offsets
  exact {
    memory := hwf
    offsets := hoff
    busyAlone := by rw [storeLoc_frame]; exact h.busyAlone
    doneOrErr := by rw [storeLoc_frame]; exact h.doneOrErr
    errHasCode := by rw [storeLoc_frame]; exact h.errHasCode
    errHasInfo := by rw [storeLoc_frame]; exact h.errHasInfo
    queued := by rw [storeLoc_frame]; exact h.queued
    vrec := storeLoc_vrec ht h.vrec
    finite := by rw [storeLoc_frame]; exact h.finite
    inReset := by rw [storeLoc_frame]; simp [hr] }

/-! ## The engine step -/

/-- No command is pending while the block is held in reset (R132). -/
theorem rst_of_busy {s : State} (h : s.Inv) (hb : s.busy = true) : s.rst = false := by
  by_contra hr
  have hs : s.heldInReset := h.inReset (by simpa using hr)
  rw [hs] at hb
  cases hb

/-- A failing command leaves ERR with a code, and no DONE (R116, R123). -/
theorem inv_failed {s : State} {c : ErrCode} (h : s.Inv) (hb : s.busy = true) (hc : c ≠ .none) (info : ErrInfo) :
    (s.failed c info).Inv where
  memory := h.memory
  offsets := h.offsets
  busyAlone := by simp
  doneOrErr := by simp [(h.busyAlone hb).2]
  errHasCode := by simp [hc]
  errHasInfo := by simp
  queued := by simp
  vrec := h.vrec
  finite := h.finite
  inReset := by simp [rst_of_busy h hb]

/-- The commit of a queued command writes VREC and no other memory (R88, R101, R102). -/
theorem queuedCommand_memory {i : Instr} {s t : State} (h : s.Inv) (hq : queuedCommand i s = .ok t) :
    t.mem.wf ∧ ∀ c ∈ t.mem, storedOffset c.1 := by
  cases i with
  | recon ch =>
    obtain ⟨k, ws, -, ⟨-, hmax⟩, hrec, rfl⟩ := reconCommand_eq_ok.1 hq
    have hlen := reconstruct_length hrec
    refine ⟨Memory.wf_storeVrec h.memory 0 ws, fun c hc => ?_⟩
    rcases Memory.mem_storeVrec hc with ⟨h1, h2⟩ | hc
    · unfold vrecBase at h1 h2
      exact .inr ⟨by omega, by omega⟩
    · exact h.offsets c hc
  | calculate ch => obtain ⟨k, r, -, -, -, -, rfl⟩ := calcCommand_eq_ok.1 hq; exact ⟨h.memory, h.offsets⟩
  | measure m => obtain ⟨rs, -, -, -, rfl⟩ := measureCommand_eq_ok.1 hq; exact ⟨h.memory, h.offsets⟩
  | nop => cases hq; exact ⟨h.memory, h.offsets⟩
  | clear => cases hq; exact ⟨h.memory, h.offsets⟩
  | sreset => cases hq; exact ⟨h.memory, h.offsets⟩

/-- RECON makes VREC valid with the reconstruction it commits; the other commands leave VREC as it was
(R88, R101, R102). -/
theorem queuedCommand_vrec {i : Instr} {s t : State} (h : s.vrecStatus.valid = true → s.vrecMatches)
    (hq : queuedCommand i s = .ok t) (hvalid : t.vrecStatus.valid = true) : t.vrecMatches := by
  cases i with
  | recon ch =>
    obtain ⟨k, ws, -, hl, hrec, rfl⟩ := reconCommand_eq_ok.1 hq
    exact vrecMatches_commitRecon hl hrec
  | calculate ch => obtain ⟨k, r, -, -, -, -, rfl⟩ := calcCommand_eq_ok.1 hq; exact h hvalid
  | measure m => obtain ⟨rs, -, -, -, rfl⟩ := measureCommand_eq_ok.1 hq; exact h hvalid
  | nop => cases hq; exact h hvalid
  | clear => cases hq; exact h hvalid
  | sreset => cases hq; exact h hvalid

/-- A committing command sets DONE with ERR = 0, and BUSY is cleared (R108, R123). -/
theorem inv_committed {i : Instr} {s t : State} (h : s.Inv) (hb : s.busy = true) (hi : i.immediate = false)
    (hq : queuedCommand i s = .ok t) : { t with busy := false }.Inv := by
  have hframe := queuedCommand_frame hi hq
  have herr : t.err = s.err := by rw [hframe]
  have hrst : t.rst = s.rst := by rw [hframe]
  obtain ⟨hwf, hoff⟩ := queuedCommand_memory h hq
  exact {
    memory := hwf
    offsets := hoff
    busyAlone := by simp
    doneOrErr := by simp [herr, (h.busyAlone hb).1]
    errHasCode := by rw [hframe]; exact h.errHasCode
    errHasInfo := by rw [hframe]; exact h.errHasInfo
    queued := by simp
    vrec := fun hvalid => (queuedCommand_vrec h.vrec hq hvalid : t.vrecMatches)
    finite := (queuedCommand_resultsFinite h.finite hq : t.resultsFinite)
    inReset := by simp [hrst, rst_of_busy h hb] }

theorem inv_engineTurn {s t : State} (h : s.Inv) (ht : engineTurn s = .next t) : t.Inv := by
  rcases engineTurn_cases s with
    ⟨e, -⟩ | ⟨hb, ⟨c, info, e, hc⟩ | ⟨i, hd, hi, -⟩ | ⟨i, u, -, hi, hq, e⟩⟩
  · cases e.symm.trans ht
    exact h
  · cases e.symm.trans ht
    exact inv_failed h hb hc info
  · exact absurd hi (by simp [h.queued hb i hd])
  · cases e.symm.trans ht
    exact inv_committed h hb hi hq

/-! ## The step -/

/-- Settles O58: each thing a step can do keeps the invariants. -/
theorem everyStepKeepsTheInvariants : Obligations.EveryStepKeepsTheInvariants := by
  intro s t h hstep
  rcases step_cases hstep with
    ⟨w, rest, -, hr, hissue⟩ | ⟨a, v, rest, -, hr, -, rfl | ⟨-, rfl⟩ | ⟨l, hl, -, -, rfl⟩⟩ |
      ⟨a, rest, -, -, rfl⟩ | ⟨b, rest, -, rfl | ⟨-, -, rfl⟩⟩ | ⟨-, hengine⟩
  · exact inv_issue (inv_respond (inv_inputs h rest) _) hr hissue
  · exact inv_respond (inv_inputs h rest) _
  · exact inv_respond (inv_dropWrite (inv_inputs h rest) hr) _
  · exact inv_respond (inv_storeLoc (inv_inputs h rest) hr hl v) _
  · exact inv_hostRead (inv_inputs h rest) a
  · exact inv_hardwareReset b _
  · exact inv_inputs h rest
  · exact inv_engineTurn (inv_inputs h _) hengine

end Sys2Proof.Machine
end

section
/-! # Status bits: the words in which the host reads the flags (10_state.md R23, R46), the values that the
registers read after reset (R50), and the events that change BUSY, DONE, ERR and DROP (R23). -/

namespace Sys2Proof.Machine

/-! ## Reads of STATUS -/

/-- A flag word has its flag at its place and 0 everywhere else. -/
theorem getLsbD_flagAt (b : Bool) (i j : Nat) :
    (flagAt b i).getLsbD j = (decide (j < 64) && decide (j = i) && b) := by
  unfold flagAt
  rw [BitVec.getLsbD_shiftLeft, BitVec.getLsbD_setWidth, BitVec.getLsbD_ofBool]
  rcases Nat.lt_trichotomy j i with h | rfl | h
  · simp [h, h.ne]
  · by_cases h : j < 64 <;> simp [h]
  · have h1 : ¬ j < i := by omega
    have h2 : j - i ≠ 0 := by omega
    simp [h1, h2, h.ne']

/-- Which flag each bit of STATUS is (R23). -/
theorem getLsbD_statusWord (s : State) {i : Nat} (hi : i < 64) :
    s.statusWord.getLsbD i =
      (decide (i = 0) && s.busy || decide (i = 1) && s.done || decide (i = 2) && s.err || decide (i = 3) && s.drop ||
        decide (i = 4) && s.irq) := by
  simp only [State.statusWord, BitVec.getLsbD_or, getLsbD_flagAt, hi, decide_true, Bool.true_and]

/-- Bits 63:5 of STATUS read 0 (R23). -/
theorem statusWord_high (s : State) : s.statusWord.extractLsb' 5 59 = 0 := by
  apply BitVec.eq_of_getLsbD_eq
  intro i hi
  rw [BitVec.getLsbD_extractLsb', getLsbD_statusWord s (by omega)]
  simp
  omega

/-- A read at a register's offset answers its value and changes no register (R59). -/
theorem hostRead_reg (r : Reg) (s : State) :
    hostRead (BitVec.ofNat 18 r.offset) s = respond (.read false (s.readReg r)) s := by
  rw [hostRead, target_offset]
  rfl

/-- Settles O54: STATUS reads the word of its flags. -/
theorem statusReadsMirrorTheInterrupt : Obligations.StatusReadsMirrorTheInterrupt := by
  refine ⟨rfl, fun s rest hr hi => ⟨s.statusWord, ?_, ?_, ?_, ?_, ?_, ?_, rfl, statusWord_high s⟩⟩
  · rw [step_read hr hi]
    exact congrArg Host.Outcome.next (hostRead_reg .status _)
  all_goals rw [getLsbD_statusWord s (by decide)]; simp

/-! ## Reset values -/

/-- Settles O55: register by register. -/
theorem resetValuesAreTheListedOnes : Obligations.ResetValuesAreTheListedOnes := by
  refine ⟨fun r => ?_, rfl⟩
  cases r with
  | phase k => simp [Config.one]
  | curAcc k => simp [Config.one]
  | result k f => cases f <;> simp [Reading.zero, Reading.get]
  | dbg f => cases f <;> rfl
  | _ => rfl

/-! ## The events that change the status bits -/

/-- BUSY, DONE, ERR and DROP (R23). -/
def State.statusBits (s : State) : Bool × Bool × Bool × Bool := (s.busy, s.done, s.err, s.drop)

theorem statusBits_eq {s : State} {b d e p : Bool} (h : s.statusBits = (b, d, e, p)) :
    s.busy = b ∧ s.done = d ∧ s.err = e ∧ s.drop = p := by
  simpa [State.statusBits] using h

/-- The next input is a CMD write of a word of which `p` holds. -/
def State.nextCommand (s : State) (p : Word → Prop) : Prop := ∃ w, s.inputs.head? = some (.write 0x020 w) ∧ p w

/-- The write that is the step from `s` to `t` is discarded: it answers OKAY while BUSY = 1, SRESET apart, or it is a
CMD write while ERR = 1 of another word than NOP, CLEAR and SRESET (R60, R107). -/
def dropsWrite (s t : State) : Prop :=
  ∃ a v, s.inputs.head? = some (.write a v) ∧ t.bus = some (.write false) ∧
    (a = 0x020 → decode v ≠ .ok .sreset) ∧
      (s.busy = true ∨ (a = 0x020 ∧ s.err = true ∧ decode v ≠ .ok .nop ∧ decode v ≠ .ok .clear))

/-- The events of a step from `s` to `t` and what each does to the status bits (R23). -/
inductive StatusEvent (s t : State) : Prop where
  /-- Every step that is none of the others. -/
  | kept (bits : t.statusBits = s.statusBits)
  /-- The acceptance of a queued word (R107). -/
  | accepted
      (event : s.nextCommand fun w => s.busy = false ∧ s.err = false ∧ t.pending = w ∧
        decode w ≠ .ok .nop ∧ decode w ≠ .ok .clear ∧ decode w ≠ .ok .sreset)
      (bits : t.statusBits = (true, false, s.err, s.drop))
  /-- CLEAR (R110). -/
  | cleared (event : s.nextCommand fun w => s.busy = false ∧ decode w = .ok .clear)
      (bits : t.statusBits = (s.busy, false, false, false))
  /-- SRESET (R111). -/
  | softReset (event : s.nextCommand fun w => decode w = .ok .sreset)
      (bits : t.statusBits = (false, false, false, false))
  /-- A discarded host write (R60, R107). -/
  | dropped (event : dropsWrite s t) (bits : t.statusBits = (s.busy, s.done, s.err, true))
  /-- The hardware reset (R132). -/
  | hardReset (event : ∃ b, s.inputs.head? = some (.rst b)) (bits : t.statusBits = (false, false, false, false))
  /-- The engine step: it ends BUSY and may set DONE or ERR (R108). -/
  | engineStep (event : s.busy = true ∧ (s.inputs.head? = none ∨ s.inputs.head? = some .engine))
      (busy : t.busy = false) (done : s.done = true → t.done = true) (err : s.err = true → t.err = true)
      (drop : t.drop = s.drop)

/-- The status event of a CMD write, by what the issue of its word does (R107). -/
theorem statusEvent_of_issue {s t : State} {w : Word} {rest : List Input} (hi : s.inputs = .write 0x020 w :: rest)
    (h : issue w (respond (.write false) { s with inputs := rest }) = .next t) : StatusEvent s t := by
  have hhead : s.inputs.head? = some (.write 0x020 w) := by rw [hi]; rfl
  rcases issue_cases w (respond (.write false) { s with inputs := rest }) with
    ⟨e, -, -⟩ | ⟨e, hb, hd⟩ | ⟨e, hd⟩ | ⟨e, hsreset, hwhy⟩ | ⟨e, hb, herr, hd⟩ <;> cases e.symm.trans h
  · exact .kept rfl
  · exact .cleared ⟨w, hhead, hb, hd⟩ rfl
  · exact .softReset ⟨w, hhead, hd⟩ rfl
  · exact .dropped ⟨_, w, hhead, rfl, fun _ => hsreset, hwhy.imp_right fun hr => ⟨rfl, hr⟩⟩ rfl
  · exact .accepted ⟨w, hhead, hb, herr, rfl, hd⟩ rfl

/-- A stored write changes no status bit (R60). -/
theorem statusBits_storeLoc (l : Loc) (v : Word) (s : State) : (storeLoc l v s).statusBits = s.statusBits := by
  rw [storeLoc_frame]
  rfl

theorem statusBits_hostRead (a : Addr) (s : State) : (hostRead a s).statusBits = s.statusBits := by
  rw [hostRead_frame]
  rfl

/-- The status event of an engine's turn (R108). -/
theorem statusEvent_of_engineTurn {s t : State} {rest : List Input}
    (hi : s.inputs.head? = none ∨ s.inputs.head? = some .engine)
    (h : engineTurn { s with inputs := rest } = .next t) : StatusEvent s t := by
  rcases engineTurn_cases { s with inputs := rest } with
    ⟨e, -⟩ | ⟨hb, ⟨c, info, e, -⟩ | ⟨i, -, -, e⟩ | ⟨i, u, -, himm, hq, e⟩⟩ <;> cases e.symm.trans h
  · exact .kept rfl
  · exact .engineStep ⟨hb, hi⟩ rfl id (fun _ => rfl) rfl
  · exact .engineStep ⟨hb, hi⟩ rfl id id rfl
  · have hframe := queuedCommand_frame himm hq
    refine .engineStep ⟨hb, hi⟩ rfl (fun _ => ?_) (fun he => ?_) ?_ <;> rw [hframe]
    exact he

/-- Every step is one of the status events (R23, R64). -/
theorem statusEvent_of_step {s t : State} (h : step s = .next t) : StatusEvent s t := by
  rcases step_cases h with
    ⟨w, rest, hi, -, hissue⟩ | ⟨a, v, rest, hi, -, hne, rfl | ⟨hb, rfl⟩ | ⟨l, -, -, -, rfl⟩⟩ |
      ⟨a, rest, -, -, rfl⟩ | ⟨b, rest, hi, rfl | ⟨-, -, rfl⟩⟩ | ⟨hi, hengine⟩
  · exact statusEvent_of_issue hi hissue
  · exact .kept rfl
  · exact .dropped ⟨a, v, by rw [hi]; rfl, rfl, fun ha => absurd ha hne, .inl hb⟩ rfl
  · exact .kept (statusBits_storeLoc l v _)
  · exact .kept (statusBits_hostRead a _)
  · exact .hardReset ⟨b, by rw [hi]; rfl⟩ rfl
  · exact .kept rfl
  · refine statusEvent_of_engineTurn ?_ hengine
    rcases hi with hi | ⟨rest, hi⟩
    · exact .inl (by rw [hi]; rfl)
    · exact .inr (by rw [hi]; rfl)

/-- Settles O14: each status event changes the four bits only as R23 lists. -/
theorem statusBitsChangeOnlyAsListed : Obligations.StatusBitsChangeOnlyAsListed := by
  intro s t h engine command accepted cleared soft hard dropped
  cases statusEvent_of_step h with
  | kept bits =>
    obtain ⟨hb, hd, he, hp⟩ := statusBits_eq bits
    simp +contextual [hb, hd, he, hp]
  | accepted event bits =>
    obtain ⟨hb, hd, he, hp⟩ := statusBits_eq bits
    have event : accepted := event
    simp +contextual [hb, hd, he, hp, event]
  | cleared event bits =>
    obtain ⟨hb, hd, he, hp⟩ := statusBits_eq bits
    have event : cleared := event
    simp +contextual [hb, hd, he, hp, event]
  | softReset event bits =>
    obtain ⟨hb, hd, he, hp⟩ := statusBits_eq bits
    have event : soft := event
    simp [hb, hd, he, hp, event]
  | dropped event bits =>
    obtain ⟨hb, hd, he, hp⟩ := statusBits_eq bits
    have event : dropped := event
    simp +contextual [hb, hd, he, hp, event]
  | hardReset event bits =>
    obtain ⟨hb, hd, he, hp⟩ := statusBits_eq bits
    have event : hard := event
    simp [hb, hd, he, hp, event]
  | engineStep event hb hd he hp =>
    have event : engine := event
    simp +contextual [hb, hd, he, hp, event]

end Sys2Proof.Machine
end

section
/-! # Configuration: what no command and no engine step writes (10_state.md R38, R42, R43;
20_memory.md R70; 60_exceptions.md R116). -/

namespace Sys2Proof.Machine

/-- `t` has the configuration and the sample memory of `s` (R22, R27 to R33, R38, R39, R42, R43). -/
structure SameConfiguration (s t : State) : Prop where
  ieDone : t.ieDone = s.ieDone
  ieErr : t.ieErr = s.ieErr
  n : t.n = s.n
  adcRes : t.adcRes = s.adcRes
  boardRef : t.boardRef = s.boardRef
  gridV : t.gridV = s.gridV
  xfmrV : t.xfmrV = s.xfmrV
  acAcc : t.acAcc = s.acAcc
  batchTs : t.batchTs = s.batchTs
  phase : t.phase = s.phase
  curAcc : t.curAcc = s.curAcc
  samples : ∀ a : Nat, 0x10000 ≤ a → a < 0x1E000 → t.byteAt a = s.byteAt a

theorem SameConfiguration.refl (s : State) : SameConfiguration s s :=
  ⟨rfl, rfl, rfl, rfl, rfl, rfl, rfl, rfl, rfl, rfl, rfl, fun _ _ _ => rfl⟩

/-- No commit writes sample memory: RECON's stays in VREC, and CALC and MEASURE write no memory (R86, R88). -/
theorem byteAt_queuedCommand {i : Instr} {s t : State} (h : queuedCommand i s = .ok t) {a : Nat} (ha : a < 0x1E000) :
    t.byteAt a = s.byteAt a := by
  cases i with
  | recon ch =>
    obtain ⟨k, ws, -, -, -, rfl⟩ := reconCommand_eq_ok.1 h
    exact byteAt_commitRecon_of_not k ws s a (by unfold vrecBase; omega)
  | calculate ch => obtain ⟨k, r, -, -, -, -, rfl⟩ := calcCommand_eq_ok.1 h; rfl
  | measure m => obtain ⟨rs, -, -, -, rfl⟩ := measureCommand_eq_ok.1 h; rfl
  | nop => cases h; rfl
  | clear => cases h; rfl
  | sreset => cases h; rfl

/-- No commit writes the configuration (R38, R70). -/
theorem sameConfiguration_queuedCommand {i : Instr} {s t : State} (hi : i.immediate = false)
    (h : queuedCommand i s = .ok t) : SameConfiguration s t := by
  have hsamples : ∀ a : Nat, 0x10000 ≤ a → a < 0x1E000 → t.byteAt a = s.byteAt a :=
    fun a _ ha => byteAt_queuedCommand h ha
  have hframe := queuedCommand_frame hi h
  constructor
  case samples => exact hsamples
  all_goals rw [hframe]

theorem sameConfiguration_engineTurn {s t : State} (h : engineTurn s = .next t) : SameConfiguration s t := by
  rcases engineTurn_cases s with
    ⟨e, -⟩ | ⟨-, ⟨c, info, e, -⟩ | ⟨i, -, -, e⟩ | ⟨i, u, -, hi, hq, e⟩⟩ <;> cases e.symm.trans h
  · exact .refl s
  · exact { SameConfiguration.refl s with }
  · exact { SameConfiguration.refl s with }
  · exact { sameConfiguration_queuedCommand hi hq with }

/-- No CMD write changes the configuration, SRESET's included (R107, R111). -/
theorem sameConfiguration_issue {s t : State} {w : Word} (h : issue w s = .next t) : SameConfiguration s t := by
  rcases issue_cases w s with ⟨e, -⟩ | ⟨e, -⟩ | ⟨e, -⟩ | ⟨e, -⟩ | ⟨e, -⟩ <;> cases e.symm.trans h
  all_goals exact { SameConfiguration.refl s with }

/-- Settles O17: the only steps that can change the configuration are stored host writes and the hardware reset. -/
theorem onlyTheHostWritesConfiguration : Obligations.OnlyTheHostWritesConfiguration := by
  intro s t hstep hcmd hrst
  have hsame : SameConfiguration s t := by
    rcases step_cases hstep with
      ⟨w, rest, -, -, hissue⟩ | ⟨a, v, rest, hi, -, hne, -⟩ | ⟨a, rest, -, -, rfl⟩ | ⟨b, rest, hi, -⟩ |
        ⟨-, hengine⟩
    · exact { sameConfiguration_issue hissue with }
    · exact absurd (target_eq_cmd.1 (hcmd a v (by rw [hi]; rfl))) hne
    · rw [hostRead_frame]
      exact { SameConfiguration.refl s with }
    · exact absurd (by rw [hi]; rfl) (hrst b)
    · exact { sameConfiguration_engineTurn hengine with }
  obtain ⟨h1, h2, h3, h4, h5, h6, h7, h8, h9, h10, h11, h12⟩ := hsame
  exact ⟨h1, h2, h3, h4, h5, h6, h7, h8, h9, h10, h11, h12⟩

end Sys2Proof.Machine
end

section
/-! # Idle PENDING: nothing that happens while BUSY = 0 reads PENDING (10_state.md R45). -/

namespace Sys2Proof.Machine

/-- `s` with another word in PENDING. -/
def State.withPending (s : State) (p : Word) : State := { s with pending := p }

/-- The second outcome is the first one, or a next state that differs from the first one's in PENDING only. -/
inductive SameUpToPending (p : Word) :
    Host.Outcome State Fault Refusal → Host.Outcome State Fault Refusal → Prop where
  | same (o : Host.Outcome State Fault Refusal) : SameUpToPending p o o
  | pending (t : State) : SameUpToPending p (.next t) (.next (t.withPending p))

theorem SameUpToPending.of_eq {p : Word} {t u : State} (h : u = t.withPending p) :
    SameUpToPending p (.next t) (.next u) := h ▸ .pending t

/-! ## Accesses -/

/-- No location reads PENDING (R45, R59). -/
theorem readLoc_withPending (l : Loc) (s : State) (p : Word) : (s.withPending p).readLoc l = s.readLoc l := by
  cases l with
  | reg r => cases r <;> rfl
  | _ => rfl

theorem hostRead_withPending (a : Addr) (s : State) (p : Word) :
    hostRead a (s.withPending p) = (hostRead a s).withPending p := by
  unfold hostRead
  cases target a with
  | none => rfl
  | some l => dsimp only; rw [readLoc_withPending]; rfl

theorem storeLoc_withPending (l : Loc) (v : Word) (s : State) (p : Word) :
    storeLoc l v (s.withPending p) = (storeLoc l v s).withPending p := by
  cases l with
  | reg r =>
    cases r with
    | phase k =>
      have hv : (s.withPending p).vrecStatus = s.vrecStatus := rfl
      simp only [storeLoc, storeReg, hv]
      split <;> rfl
    | _ => rfl
  | _ => rfl

theorem writeLoc_withPending (l : Loc) (v : Word) {s : State} (hb : s.busy = false) (p : Word) :
    writeLoc l v (s.withPending p) = (writeLoc l v s).withPending p := by
  have hb' : (s.withPending p).busy = false := hb
  unfold writeLoc
  rw [storeLoc_withPending, hb, hb']
  cases l.writable <;> rfl

/-! ## CMD writes and the engine's turn -/

/-- A word is dropped, or its acceptance overwrites PENDING (R107). -/
theorem queueWord_sameUpToPending (w : Word) {s : State} (hb : s.busy = false) (p : Word) :
    SameUpToPending p (.next (queueWord w s)) (.next (queueWord w (s.withPending p))) := by
  have hb' : (s.withPending p).busy = false := hb
  have he' : (s.withPending p).err = s.err := rfl
  unfold queueWord
  rw [hb, hb', he']
  cases s.err with
  | false => exact .same (.next (acceptWord w s))
  | true => exact .pending (dropWrite s)

/-- The immediate commands do not read PENDING (R109 to R111). -/
theorem execImmediate_sameUpToPending {i : Instr} (hi : i.immediate = true) {s : State} (hb : s.busy = false)
    (p : Word) : SameUpToPending p (exec i s) (exec i (s.withPending p)) := by
  have hb' : (s.withPending p).busy = false := hb
  cases i with
  | nop => simp only [exec, execNop, hb, hb']; exact .pending s
  | clear => simp only [exec, execClear, hb, hb']; exact .pending (clearErrors s)
  | sreset => exact .pending (softReset s)
  | recon ch => cases hi
  | calculate ch => cases hi
  | measure m => cases hi

theorem issue_sameUpToPending (w : Word) {s : State} (hb : s.busy = false) (p : Word) :
    SameUpToPending p (issue w s) (issue w (s.withPending p)) := by
  unfold issue
  cases decode w with
  | error r => exact queueWord_sameUpToPending w hb p
  | ok i =>
    cases hi : i.immediate with
    | true => simpa [hi] using execImmediate_sameUpToPending hi hb p
    | false => simpa [hi] using queueWord_sameUpToPending w hb p

theorem hostWrite_sameUpToPending (a : Addr) (v : Word) {s : State} (hb : s.busy = false) (p : Word) :
    SameUpToPending p (hostWrite a v s) (hostWrite a v (s.withPending p)) := by
  unfold hostWrite
  cases target a with
  | none => exact .pending (respond (.write true) s)
  | some l =>
    by_cases hl : l = .reg .cmd
    · simp only [if_pos hl]
      exact issue_sameUpToPending v (s := respond (.write false) s) hb p
    · simp only [if_neg hl]
      exact .of_eq (writeLoc_withPending l v hb p)

/-- The engine has no step while BUSY = 0 (R108). -/
theorem engineTurn_sameUpToPending {s : State} (hb : s.busy = false) (p : Word) :
    SameUpToPending p (engineTurn s) (engineTurn (s.withPending p)) := by
  have hb' : (s.withPending p).busy = false := hb
  simp only [engineTurn, hb, hb']
  exact .pending s

/-! ## The step -/

/-- No input of an idle block reads PENDING; a hardware reset gives it its one reset value (R45, R64). -/
theorem runInput_sameUpToPending (e : Input) {s : State} (hb : s.busy = false) (p : Word) :
    SameUpToPending p (runInput e s) (runInput e (s.withPending p)) := by
  have hr' : (s.withPending p).rst = s.rst := rfl
  cases e with
  | read a =>
    simp only [runInput, hr']
    split
    · exact .same _
    · exact .of_eq (hostRead_withPending a s p)
  | write a v =>
    simp only [runInput, hr']
    split
    · exact .same _
    · exact hostWrite_sameUpToPending a v hb p
  | engine => exact engineTurn_sameUpToPending hb p
  | rst level =>
    simp only [runInput, hr']
    split
    · exact .same (.next (hardwareReset level s))
    · exact .pending s
  | clkStop => exact .same _

theorem step_sameUpToPending {s : State} (hb : s.busy = false) (p : Word) :
    SameUpToPending p (step s) (step (s.withPending p)) := by
  cases hi : s.inputs with
  | nil =>
    have hi' : (s.withPending p).inputs = [] := hi
    rw [step_nil hi, step_nil hi']
    exact engineTurn_sameUpToPending hb p
  | cons e rest =>
    have hi' : (s.withPending p).inputs = e :: rest := hi
    rw [step_cons hi, step_cons hi']
    exact runInput_sameUpToPending e (s := { s with inputs := rest }) hb p

/-- Settles O16: the next input, or the engine's turn, does not read PENDING of an idle block. -/
theorem idlePendingIsNeverRead : Obligations.IdlePendingIsNeverRead := by
  intro s p hb
  have hstep : SameUpToPending p (step s) (step { s with pending := p }) := step_sameUpToPending hb p
  generalize step s = o at hstep ⊢
  generalize step { s with pending := p } = o' at hstep ⊢
  cases hstep with
  | same o =>
    cases o with
    | next t => exact .inl rfl
    | fault f => rfl
    | refused r => rfl
  | pending t => exact .inr rfl

end Sys2Proof.Machine
end

section
/-! # Bus answers: which accesses get ERROR (20_memory.md R53, R55, R58), what a read answers (R57, R59), and what an
access can change while BUSY = 1 (R60, R64, R107). -/

namespace Sys2Proof.Machine

/-! ## Targets -/

theorem target_eq_some {a : Addr} {l : Loc} : target a = some l ↔ a.toNat % 8 = 0 ∧ locate a.toNat = some l := by
  unfold target
  split <;> simp_all

/-- A misaligned or reserved access reaches no location (R53, R55). -/
theorem target_eq_none {a : Addr} :
    target a = none ↔
      a.toNat % 8 ≠ 0 ∨ (0x90 ≤ a.toNat ∧ a.toNat < 0x100) ∨ (0x130 ≤ a.toNat ∧ a.toNat < 0x140) ∨
        (0x170 ≤ a.toNat ∧ a.toNat < 0x200) ∨ (0x2C0 ≤ a.toNat ∧ a.toNat < 0x300) ∨
        (0x340 ≤ a.toNat ∧ a.toNat < 0x10000) ∨ (0x1E000 ≤ a.toNat ∧ a.toNat < 0x20000) ∨ 0x28000 ≤ a.toNat := by
  unfold target
  split
  case isTrue h8 => rw [locate_eq_none h8, or_iff_right (not_not.2 h8)]
  case isFalse h8 => exact iff_of_true rfl (.inl h8)

/-- The location of an aligned access to sample memory or VREC (R53, R57). -/
theorem target_stored {a : Addr} (h8 : a.toNat % 8 = 0) (h : storedOffset a.toNat) :
    target a =
      some (if a.toNat < 0x12000 then .vramWord a.toNat
        else if a.toNat < 0x1E000 then .iramWord a.toNat else .vrecWord a.toNat) :=
  target_eq_some.2 ⟨h8, locate_stored h⟩

/-- The host may not write at `a`: what is there, if anything, is neither CMD nor a location that stores (R58). -/
def refusesWrite (a : Addr) : Prop := ∀ l, target a = some l → l ≠ .reg .cmd ∧ l.writable = false

/-- The offsets at which a write gets ERROR: where every access does, and the read-only ones (R58). -/
theorem refusesWrite_iff {a : Addr} :
    refusesWrite a ↔
      target a = none ∨
        a.toNat ∈ [0x000, 0x008, 0x018, 0x028, 0x030, 0x070, 0x078, 0x080, 0x088] ∨
          (0x200 ≤ a.toNat ∧ a.toNat < 0x2C0) ∨ (0x300 ≤ a.toNat ∧ a.toNat < 0x340) ∨ 0x20000 ≤ a.toNat := by
  cases ht : target a with
  | none => simp [refusesWrite, ht]
  | some l =>
    obtain ⟨h8, hl⟩ := target_eq_some.1 ht
    by_cases hc : l = .reg .cmd
    · subst hc
      obtain rfl := target_eq_cmd.1 ht
      simp [refusesWrite, cmdOffset]
    · simp [refusesWrite, ht, hc, writable_eq_false h8 hl hc]

/-! ## Reads -/

/-- The value of a location depends neither on the inputs to come nor on the answer on the bus. -/
theorem readLoc_ports (l : Loc) (s : State) (inputs : List Input) (bus : Option BusResponse) :
    { s with inputs := inputs, bus := bus }.readLoc l = s.readLoc l := by
  cases l with
  | reg r => cases r <;> rfl
  | _ => rfl

/-- A read that reaches a location answers its value and has no side effect (R59). -/
theorem step_read_of_target {s : State} {a : Addr} {rest : List Input} {l : Loc} (hr : s.rst = false)
    (hi : s.inputs = .read a :: rest) (ht : target a = some l) :
    step s = .next { s with inputs := rest, bus := some (.read false (s.readLoc l)) } := by
  rw [step_read hr hi, ← readLoc_ports l s rest s.bus]
  simp only [hostRead, ht]
  rfl

/-- Settles O50: an access at a register's offset reaches the register. -/
theorem registerReadsAnswerTheirValues : Obligations.RegisterReadsAnswerTheirValues := by
  intro s r rest hr hi
  exact ⟨step_read_of_target hr hi (target_offset r), rfl, rfl, rfl⟩

/-- Settles O51: the word at a stored offset is its four codes, and in VREC it is an entry. -/
theorem sampleReadsAnswerFourCodes : Obligations.SampleReadsAnswerFourCodes := by
  intro s a rest hr hi h8
  have hword : storedOffset a.toNat →
      step s = .next { s with inputs := rest, bus := some (.read false (s.wordAt a.toNat)) } := fun h => by
    rw [step_read_of_target hr hi (target_stored h8 h)]
    split_ifs <;> rfl
  refine ⟨fun hlo hhi => ?_, fun hlo hhi => ?_⟩
  · rw [hword (.inl ⟨hlo, hhi⟩), State.wordAt_codes]
  · have hentry : vrecBase + 8 * ((a.toNat - 0x20000) / 8) = a.toNat := by unfold vrecBase; omega
    rw [hword (.inr ⟨hlo, hhi⟩), State.vrec, hentry]

/-- A read gets ERROR exactly where it reaches no location (R55, R58). -/
theorem hostRead_error_iff (a : Addr) (s : State) :
    (∃ x, (hostRead a s).bus = some (.read true x)) ↔ target a = none := by
  unfold hostRead
  cases target a <;> simp [readError]

@[simp] theorem hostRead_drop (a : Addr) (s : State) : (hostRead a s).drop = s.drop := by rw [hostRead_frame]

/-! ## Writes -/

/-- The issue of a word keeps the answer that the CMD write has given (R107). -/
theorem issue_bus {w : Word} {s t : State} (h : issue w s = .next t) : t.bus = s.bus := by
  rcases issue_cases w s with ⟨e, -⟩ | ⟨e, -⟩ | ⟨e, -⟩ | ⟨e, -⟩ | ⟨e, -⟩ <;> cases e.symm.trans h <;> rfl

/-- The answer to a write: ERROR with no other effect where the host may not write, else OKAY (R58, R60). -/
theorem hostWrite_answer {a : Addr} {v : Word} {s t : State} (h : hostWrite a v s = .next t) :
    (refusesWrite a ∧ t = respond (.write true) s) ∨ (¬ refusesWrite a ∧ t.bus = some (.write false)) := by
  by_cases ha : a = cmdOffset
  · subst ha
    exact .inr ⟨fun hn => (hn _ target_cmdOffset).1 rfl, issue_bus (s := respond (.write false) s) h⟩
  · rw [hostWrite_other v s ha] at h
    cases ht : target a with
    | none =>
      simp only [ht] at h
      cases h
      exact .inl ⟨by simp [refusesWrite, ht], rfl⟩
    | some l =>
      have hc : l ≠ .reg .cmd := fun e => ha (target_eq_cmd.1 (e ▸ ht))
      simp only [ht, writeLoc] at h
      cases hw : l.writable <;> simp only [hw] at h <;> cases h
      · exact .inl ⟨by simp [refusesWrite, ht, hc, hw], rfl⟩
      · exact .inr ⟨by simp [refusesWrite, ht, hw], rfl⟩

/-- Settles O49: a read is refused where it reaches no location, and a write also where the location is read-only. -/
theorem busErrorsAreTheListedOnes : Obligations.BusErrorsAreTheListedOnes := by
  intro s t a v rest hr
  refine ⟨fun hi hstep => ?_, fun hi hstep => ?_⟩
  · rw [step_read hr hi] at hstep
    cases hstep
    exact ⟨target_eq_none.symm.trans (hostRead_error_iff a _).symm, hostRead_frame a _⟩
  · rw [step_write hr hi] at hstep
    rw [← target_eq_none, ← refusesWrite_iff]
    rcases hostWrite_answer hstep with ⟨hrefused, rfl⟩ | ⟨hallowed, hbus⟩
    · exact ⟨iff_of_true hrefused rfl, fun _ => rfl, .inl rfl⟩
    · simp [hallowed, hbus]

/-! ## Accesses while BUSY = 1 -/

/-- While BUSY = 1 every word but SRESET is dropped (R107). -/
theorem issue_busy {w : Word} {s : State} (hb : s.busy = true) (hw : decode w ≠ .ok .sreset) :
    issue w s = .next (dropWrite s) := by
  rcases issue_cases w s with ⟨-, hidle, -⟩ | ⟨-, hidle, -⟩ | ⟨-, hd⟩ | ⟨e, -⟩ | ⟨-, hidle, -⟩
  · simp [hb] at hidle
  · simp [hb] at hidle
  · exact absurd hd hw
  · exact e
  · simp [hb] at hidle

/-- A CMD write that leaves the pending command is no SRESET (R111). -/
theorem decode_ne_sreset_of_leavesPending {w : Word} (h : leavesPending (.write cmdOffset w) = true) :
    decode w ≠ .ok .sreset := by
  intro hd
  simp [leavesPending, hd] at h

/-- While BUSY = 1 a write that is no SRESET either gets ERROR or is dropped with OKAY (R58, R60, R107). -/
theorem hostWrite_busy {a : Addr} {v : Word} {s : State} (hb : s.busy = true)
    (hp : leavesPending (.write a v) = true) :
    hostWrite a v s = .next (respond (.write true) s) ∨
      hostWrite a v s = .next (respond (.write false) (dropWrite s)) := by
  rcases hostWrite_cases a v s with ⟨rfl, e⟩ | ⟨-, e⟩ | ⟨-, -, e⟩ | ⟨l, -, -, -, hidle, -⟩
  · rw [e, issue_busy (s := respond (.write false) s) hb (decode_ne_sreset_of_leavesPending hp)]
    exact .inr rfl
  · exact .inl e
  · exact .inr e
  · simp [hb] at hidle

/-- Settles O12: a read changes no register, and a write is refused or dropped. -/
theorem busyAccessOnlyDrops : Obligations.BusyAccessOnlyDrops := by
  intro s e rest hb hr hi hp
  cases e with
  | read a =>
    refine ⟨_, step_read hr hi, ?_, hostRead_drop a _⟩
    rw [hostRead_drop]
    exact hostRead_frame a _
  | write a v =>
    rw [step_write hr hi]
    rcases hostWrite_busy (s := { s with inputs := rest }) hb hp with e | e <;> rw [e]
    · exact ⟨_, rfl, rfl, .inr ⟨rfl, rfl⟩⟩
    · exact ⟨_, rfl, rfl, .inl ⟨rfl, rfl⟩⟩
  | engine => cases hp
  | rst level => cases hp
  | clkStop => cases hp

end Sys2Proof.Machine
end

section
/-! # Stored writes: what an idle host write stores in sample memory (20_memory.md R57, R60, R61) and in a register
(10_state.md R19, R22, R27, R28, R38, R39). -/

namespace Sys2Proof.Machine

/-- An idle write of a location that the host may write stores to it and answers OKAY (R60). -/
theorem step_write_of_target {s : State} {a : Addr} {v : Word} {rest : List Input} {l : Loc} (hr : s.rst = false)
    (hb : s.busy = false) (hi : s.inputs = .write a v :: rest) (ht : target a = some l) (hw : l.writable = true) :
    step s = .next (respond (.write false) (storeLoc l v { s with inputs := rest })) := by
  have hc : l ≠ .reg .cmd := by rintro rfl; cases hw
  rw [step_write hr hi]
  simp [hostWrite, ht, hc, writeLoc, hw, hb]

/-! ## Sample words -/

/-- What a stored sample word changes: its bytes, and VALID for a VRAM word only (R60, R61). -/
theorem step_write_sampleWord {s : State} {a : Addr} {v : Word} {rest : List Input} (hr : s.rst = false)
    (hb : s.busy = false) (hi : s.inputs = .write a v :: rest) (h8 : a.toNat % 8 = 0) (hlo : 0x10000 ≤ a.toNat)
    (hhi : a.toNat < 0x1E000) :
    step s = .next { s with
      inputs := rest
      bus := some (.write false)
      mem := s.mem.storeWord a.toNat v
      vrecStatus :=
        ⟨s.vrecStatus.len, s.vrecStatus.ch, s.vrecStatus.valid && decide (0x12000 ≤ a.toNat)⟩ } := by
  have ht := target_stored h8 (.inl ⟨hlo, hhi⟩)
  by_cases hv : a.toNat < 0x12000
  · rw [if_pos hv] at ht
    rw [step_write_of_target hr hb hi ht rfl, decide_eq_false (by omega), Bool.and_false]
    rfl
  · rw [if_neg hv, if_pos hhi] at ht
    rw [step_write_of_target hr hb hi ht rfl, decide_eq_true (by omega), Bool.and_true]
    rfl

/-- The bytes of a stored word (R56). -/
theorem byteAt_storeWord {s t : State} {a : Nat} {v : Word} (hm : t.mem = s.mem.storeWord a v) {j : Nat} (hj : j < 8) :
    t.byteAt (a + j) = v.extractLsb' (8 * j) 8 := by
  have hin : a ≤ a + j ∧ a + j < a + 8 := by omega
  rw [State.byteAt, hm, Memory.lookup_storeWord, if_pos hin, Nat.add_sub_cancel_left, Option.getD_some]

/-- The codes of a stored word (R56, R57). -/
theorem codeAt_storeWord {s t : State} {a : Nat} {v : Word} (hm : t.mem = s.mem.storeWord a v) {j : Nat} (hj : j < 7) :
    t.codeAt (a + j) = v.extractLsb' (8 * j) 16 := by
  rw [State.codeAt, byteAt_storeWord hm (by omega), Nat.add_assoc, byteAt_storeWord hm (by omega), Nat.mul_add]
  exact code_of_bytes v (8 * j)

/-- Settles O52: the step stores the word, and a word is its four codes. -/
theorem sampleWritesStoreFourCodes : Obligations.SampleWritesStoreFourCodes := by
  intro s a v rest hr hb hi h8 hlo hhi
  refine ⟨_, step_write_sampleWord hr hb hi h8 hlo hhi, ?_, ?_, ?_, ?_, fun x hx => ?_, rfl, rfl⟩
  · exact codeAt_storeWord (s := s) (j := 0) rfl (by decide)
  · exact codeAt_storeWord (s := s) (j := 2) rfl (by decide)
  · exact codeAt_storeWord (s := s) (j := 4) rfl (by decide)
  · exact codeAt_storeWord (s := s) (j := 6) rfl (by decide)
  · exact byteAt_storeWord_of_not s a.toNat v hx

/-! ## Registers -/

/-- The bits that a RW register stores of a written word; its other bits read 0 (R19, R22, R27, R28). -/
def Reg.storedBits (r : Reg) (v : Word) : Word :=
  match r with
  | .ctrl => v &&& 0x3
  | .n => v &&& 0xFFFF
  | .adcRes => v &&& 0xFFFFFFFF
  | _ => v

/-- A RW register reads as the stored bits of what was written (R19, R60). -/
theorem readReg_storeReg_self {r : Reg} (hw : r.writable = true) (v : Word) (s : State) :
    (storeReg r v s).readReg r = r.storedBits v := by
  cases r with
  | ctrl => exact ctrl_bits v
  | n => exact low16 v
  | adcRes => exact low32 v
  | phase k =>
    have hset : (s.phase.set k.val v k.isLt)[k.val] = v := Vector.getElem_set_self k.isLt
    simp only [storeReg]
    split <;> exact hset
  | curAcc k => exact Vector.getElem_set_self k.isLt
  | boardRef => rfl
  | gridV => rfl
  | xfmrV => rfl
  | acAcc => rfl
  | batchTs => rfl
  | _ => cases hw

/-- Only VREC_STATUS reads the VALID bit. -/
theorem readReg_invalidateVrec {q : Reg} (hq : q ≠ .vrecStatus) (s : State) :
    (invalidateVrec s).readReg q = s.readReg q := by
  cases q with
  | vrecStatus => exact absurd rfl hq
  | _ => rfl

/-- A write of one channel's register leaves the other channels' as they were. -/
theorem getElem_set_of_ne {xs : Vector Word 6} {v : Word} {j k : Channel} (h : j ≠ k) :
    (xs.set k.val v k.isLt)[j] = xs[j] :=
  Vector.getElem_set_ne k.isLt j.isLt fun e => h (Fin.ext e.symm)

/-- A register write changes no other register, but for VREC_STATUS by R61 and STATUS by its mirror of `irq`
(R46, R60). -/
theorem readReg_storeReg_of_ne {q r : Reg} (hqr : q ≠ r) (hv : q ≠ .vrecStatus) (hs : q ≠ .status) (v : Word)
    (s : State) : (storeReg r v s).readReg q = s.readReg q := by
  cases r with
  | n =>
    rw [storeReg, readReg_invalidateVrec hv]
    cases q <;> first | rfl | contradiction
  | phase k =>
    have hset : { s with phase := s.phase.set k v }.readReg q = s.readReg q := by
      cases q with
      | phase j => exact getElem_set_of_ne fun e => hqr (congrArg Reg.phase e)
      | _ => rfl
    simp only [storeReg]
    split
    · rw [readReg_invalidateVrec hv, hset]
    · exact hset
  | curAcc k =>
    cases q with
    | curAcc j => exact getElem_set_of_ne fun e => hqr (congrArg Reg.curAcc e)
    | _ => rfl
  | _ => cases q <;> first | rfl | contradiction

/-- Which register writes clear VALID (R61). -/
theorem storeReg_valid (r : Reg) (v : Word) (s : State) :
    (storeReg r v s).vrecStatus.valid = true ↔
      s.vrecStatus.valid = true ∧ r ≠ .n ∧ ∀ k, r = .phase k → channelNumber k ≠ s.vrecStatus.ch := by
  cases r with
  | n => simp [storeReg, invalidateVrec]
  | phase k => by_cases hk : channelNumber k = s.vrecStatus.ch <;> simp [storeReg, invalidateVrec, hk]
  | _ => simp [storeReg]

/-- No register write changes LEN or CH of VREC_STATUS (R61). -/
theorem storeReg_len_ch (r : Reg) (v : Word) (s : State) :
    (storeReg r v s).vrecStatus.len = s.vrecStatus.len ∧ (storeReg r v s).vrecStatus.ch = s.vrecStatus.ch := by
  cases r with
  | phase k => simp only [storeReg]; split <;> exact ⟨rfl, rfl⟩
  | _ => exact ⟨rfl, rfl⟩

/-- The enables of `irq` are bits 0 and 1 of CTRL, and no other register write changes them (R22). -/
theorem storeReg_enables (r : Reg) (v : Word) (s : State) :
    (storeReg r v s).ieDone = (if r = .ctrl then v.getLsbD 0 else s.ieDone) ∧
      (storeReg r v s).ieErr = (if r = .ctrl then v.getLsbD 1 else s.ieErr) := by
  cases r with
  | phase k => simp only [storeReg]; split <;> exact ⟨rfl, rfl⟩
  | _ => exact ⟨rfl, rfl⟩

@[simp] theorem storeLoc_epoch (l : Loc) (v : Word) (s : State) : (storeLoc l v s).epoch = s.epoch := by
  rw [storeLoc_frame]

@[simp] theorem storeLoc_pending (l : Loc) (v : Word) (s : State) : (storeLoc l v s).pending = s.pending := by
  rw [storeLoc_frame]

/-- A register write changes no byte of memory (R60). -/
theorem byteAt_storeReg (r : Reg) (v : Word) (s : State) (a : Nat) : (storeReg r v s).byteAt a = s.byteAt a := by
  have hepoch : (storeReg r v s).epoch = s.epoch := storeLoc_epoch (.reg r) v s
  rw [State.byteAt, mem_storeReg, hepoch, State.byteAt]

/-- Settles O53: the write of a RW register reaches `storeReg`, whose effects are the lemmas above. -/
theorem registerWritesStoreTheirBits : Obligations.RegisterWritesStoreTheirBits := by
  intro s r v rest hr hb hw hi
  have hstep := step_write_of_target hr hb hi (target_offset r) hw
  generalize hs' : ({ s with inputs := rest } : State) = s' at hstep
  have hread : ∀ q, (respond (.write false) (storeReg r v s')).readReg q = (storeReg r v s').readReg q :=
    fun q => readLoc_ports (.reg q) _ _ _
  have hother : ∀ q, q ≠ r → q ≠ .vrecStatus → q ≠ .status →
      (respond (.write false) (storeReg r v s')).readReg q = s.readReg q := fun q hqr hv hs => by
    rw [hread, readReg_storeReg_of_ne hqr hv hs, ← hs']
    exact readLoc_ports (.reg q) s rest s.bus
  obtain ⟨hlen, hch⟩ := storeReg_len_ch r v s'
  obtain ⟨hieDone, hieErr⟩ := storeReg_enables r v s'
  obtain ⟨hbusy, hdone, herr, hdrop⟩ := statusBits_eq (statusBits_storeLoc (.reg r) v s')
  subst hs'
  exact ⟨_, hstep, (hread r).trans (readReg_storeReg_self hw v _), hlen, hch, storeReg_valid r v _, hother, hieDone,
    hieErr, byteAt_storeReg r v _, hbusy, hdone, herr, hdrop, storeLoc_pending (.reg r) v _, mem_storeReg r v _, rfl⟩

end Sys2Proof.Machine
end

section
/-! # Command words: what the decoder makes of each opcode (30_encoding.md R75, R78), and that the decoder and the
encoder are inverse to each other (R73, R76). -/

namespace Sys2Proof

/-! ## The decoder, one equation for each row of R75 and each kind of R78 -/

theorem decode_of_reservedBits {w : Word} (h : rsvAField w ≠ 0 ∨ rsvBField w ≠ 0) :
    decode w = .error .reservedBits := if_pos h

section
variable {w : Word} (ha : rsvAField w = 0) (hb : rsvBField w = 0)
include ha hb

theorem decode_of_op_nop (h : opField w = 0x00) : decode w = decodeBare w .nop := by
  simp [decode, ha, hb, h]

theorem decode_of_op_recon (h : opField w = 0x01) :
    decode w = if maskField w = 0 then .ok (.recon (chField w).toNat) else .error .strayMask := by
  simp [decode, ha, hb, h]

theorem decode_of_op_calculate (h : opField w = 0x02) :
    decode w = if maskField w = 0 then .ok (.calculate (chField w).toNat) else .error .strayMask := by
  simp [decode, ha, hb, h]

theorem decode_of_op_measure (h : opField w = 0x03) :
    decode w = if chField w = 0 then .ok (.measure (maskField w)) else .error .strayChannel := by
  simp [decode, ha, hb, h]

theorem decode_of_op_clear (h : opField w = 0x0E) : decode w = decodeBare w .clear := by
  simp [decode, ha, hb, h]

theorem decode_of_op_sreset (h : opField w = 0x0F) : decode w = decodeBare w .sreset := by
  simp [decode, ha, hb, h]

theorem decode_of_op_reserved (h : opField w ∉ [(0x00 : BitVec 8), 0x01, 0x02, 0x03, 0x0E, 0x0F]) :
    decode w = .error .reservedOpcode := by
  simp only [List.mem_cons, List.not_mem_nil, or_false, not_or] at h
  obtain ⟨h0, h1, h2, h3, hE, hF⟩ := h
  rw [decode, if_neg (by simp [ha, hb]), if_neg h0, if_neg h1, if_neg h2, if_neg h3, if_neg hE, if_neg hF]

end

/-- The seven rows of the opcode table as a case split (R75, R78). -/
theorem opField_cases (w : Word) :
    opField w = 0x00 ∨ opField w = 0x01 ∨ opField w = 0x02 ∨ opField w = 0x03 ∨ opField w = 0x0E ∨
      opField w = 0x0F ∨ opField w ∉ [(0x00 : BitVec 8), 0x01, 0x02, 0x03, 0x0E, 0x0F] := by
  simp only [List.mem_cons, List.not_mem_nil, or_false]
  tauto

/-- A row of R75 that asks `p` of its operands decodes exactly where `p` holds. -/
theorem ite_eq_ok {ε α : Type} {p : Prop} [Decidable p] {a b : α} {e : ε} :
    (if p then .ok a else .error e : Except ε α) = .ok b ↔ a = b ∧ p := by
  split <;> simp_all

/-- A row of R75 that asks `p` of its operands is illegal exactly where `p` fails. -/
theorem ite_isError {ε α : Type} {p : Prop} [Decidable p] {a : α} {e : ε} :
    (∃ r, (if p then .ok a else .error e : Except ε α) = .error r) ↔ ¬ p := by
  split <;> simp_all

theorem decodeBare_eq_ok {w : Word} {i j : Instr} :
    decodeBare w i = .ok j ↔ i = j ∧ chField w = 0 ∧ maskField w = 0 := ite_eq_ok

theorem decodeBare_isError {w : Word} {i : Instr} :
    (∃ r, decodeBare w i = .error r) ↔ chField w ≠ 0 ∨ maskField w ≠ 0 := ite_isError.trans not_and_or

/-! ## The decoder as a relation between words and commands -/

/-- The operand fields of the word of a command (R73, R75). -/
def Instr.operandsIn (w : Word) : Instr → Prop
  | .nop => chField w = 0 ∧ maskField w = 0
  | .recon ch => (chField w).toNat = ch ∧ maskField w = 0
  | .calculate ch => (chField w).toNat = ch ∧ maskField w = 0
  | .measure mask => maskField w = mask ∧ chField w = 0
  | .clear => chField w = 0 ∧ maskField w = 0
  | .sreset => chField w = 0 ∧ maskField w = 0

/-- A word decodes to a command exactly when its reserved bits are 0, OP is the opcode and CH and MASK are the
operands (R73, R75). -/
theorem decode_eq_ok {w : Word} {i : Instr} :
    decode w = .ok i ↔ rsvAField w = 0 ∧ rsvBField w = 0 ∧ opField w = i.opcode ∧ i.operandsIn w := by
  constructor
  · intro h
    by_cases hr : rsvAField w ≠ 0 ∨ rsvBField w ≠ 0
    · rw [decode_of_reservedBits hr] at h
      cases h
    obtain ⟨ha, hb⟩ : rsvAField w = 0 ∧ rsvBField w = 0 := by simpa using hr
    refine ⟨ha, hb, ?_⟩
    rcases opField_cases w with hop | hop | hop | hop | hop | hop | hop
    · rw [decode_of_op_nop ha hb hop, decodeBare_eq_ok] at h
      obtain ⟨rfl, hoperands⟩ := h
      exact ⟨hop, hoperands⟩
    · rw [decode_of_op_recon ha hb hop, ite_eq_ok] at h
      obtain ⟨rfl, hmask⟩ := h
      exact ⟨hop, rfl, hmask⟩
    · rw [decode_of_op_calculate ha hb hop, ite_eq_ok] at h
      obtain ⟨rfl, hmask⟩ := h
      exact ⟨hop, rfl, hmask⟩
    · rw [decode_of_op_measure ha hb hop, ite_eq_ok] at h
      obtain ⟨rfl, hch⟩ := h
      exact ⟨hop, rfl, hch⟩
    · rw [decode_of_op_clear ha hb hop, decodeBare_eq_ok] at h
      obtain ⟨rfl, hoperands⟩ := h
      exact ⟨hop, hoperands⟩
    · rw [decode_of_op_sreset ha hb hop, decodeBare_eq_ok] at h
      obtain ⟨rfl, hoperands⟩ := h
      exact ⟨hop, hoperands⟩
    · rw [decode_of_op_reserved ha hb hop] at h
      cases h
  · rintro ⟨ha, hb, hop, hoperands⟩
    cases i with
    | nop => rw [decode_of_op_nop ha hb hop, decodeBare_eq_ok]; exact ⟨rfl, hoperands⟩
    | recon ch => rw [decode_of_op_recon ha hb hop, ite_eq_ok, hoperands.1]; exact ⟨rfl, hoperands.2⟩
    | calculate ch => rw [decode_of_op_calculate ha hb hop, ite_eq_ok, hoperands.1]; exact ⟨rfl, hoperands.2⟩
    | measure mask => rw [decode_of_op_measure ha hb hop, ite_eq_ok, hoperands.1]; exact ⟨rfl, hoperands.2⟩
    | clear => rw [decode_of_op_clear ha hb hop, decodeBare_eq_ok]; exact ⟨rfl, hoperands⟩
    | sreset => rw [decode_of_op_sreset ha hb hop, decodeBare_eq_ok]; exact ⟨rfl, hoperands⟩

/-- The word of a well-formed command holds its operands: a channel below 8 loses no bit in CH (R73, R76). -/
theorem operandsIn_encode {i : Instr} (h : i.wf = true) : i.operandsIn (encode i) := by
  have hch : ∀ ch, decide (ch < 8) = true → (BitVec.ofNat 3 ch).toNat = ch := fun ch hlt => by
    rw [BitVec.toNat_ofNat, Nat.mod_eq_of_lt (of_decide_eq_true hlt)]
  cases i with
  | recon ch => simpa [Instr.operandsIn, encode] using hch ch h
  | calculate ch => simpa [Instr.operandsIn, encode] using hch ch h
  | measure mask => simp [Instr.operandsIn, encode]
  | nop => simp [Instr.operandsIn, encode]
  | clear => simp [Instr.operandsIn, encode]
  | sreset => simp [Instr.operandsIn, encode]

theorem reserved_encode (i : Instr) : rsvAField (encode i) = 0 ∧ rsvBField (encode i) = 0 := by
  cases i <;> simp [encode]

/-- A word that holds a command's opcode and operands, every reserved bit 0, is the command's word (R75). -/
theorem encode_of_operandsIn {w : Word} {i : Instr} (ha : rsvAField w = 0) (hb : rsvBField w = 0)
    (hop : opField w = i.opcode) (h : i.operandsIn w) : encode i = w := by
  have hpack := packCommand_fields w ha hb
  rw [hop] at hpack
  cases i with
  | recon ch => obtain ⟨rfl, hmask⟩ := h; simpa [encode, hmask] using hpack
  | calculate ch => obtain ⟨rfl, hmask⟩ := h; simpa [encode, hmask] using hpack
  | measure mask => obtain ⟨rfl, hch⟩ := h; simpa [encode, hch] using hpack
  | nop => obtain ⟨hch, hmask⟩ := h; simpa [encode, hch, hmask] using hpack
  | clear => obtain ⟨hch, hmask⟩ := h; simpa [encode, hch, hmask] using hpack
  | sreset => obtain ⟨hch, hmask⟩ := h; simpa [encode, hch, hmask] using hpack

/-- CH has three bits, so the operands of a word fit a well-formed command (R73). -/
theorem wf_of_operandsIn {w : Word} {i : Instr} (h : i.operandsIn w) : i.wf = true := by
  cases i with
  | recon ch => obtain ⟨rfl, -⟩ := h; exact decide_eq_true (chField w).isLt
  | calculate ch => obtain ⟨rfl, -⟩ := h; exact decide_eq_true (chField w).isLt
  | _ => rfl

/-! ## The statements -/

/-- Settles O2: the word of a command holds its opcode and operands, and the decoder reads just these. -/
theorem decodeOfEncode : Obligations.DecodeOfEncode := by
  intro i h
  obtain ⟨ha, hb⟩ := reserved_encode i
  exact decode_eq_ok.2 ⟨ha, hb, Machine.opField_encode i, operandsIn_encode h⟩

/-- Settles O3: a legal word is packed from the fields that the decoder reads. -/
theorem encodeOfDecode : Obligations.EncodeOfDecode := by
  intro w i h
  obtain ⟨ha, hb, hop, hoperands⟩ := decode_eq_ok.1 h
  exact ⟨encode_of_operandsIn ha hb hop hoperands, wf_of_operandsIn hoperands⟩

/-- Settles O4, row by row of the opcode table. -/
theorem illegalWordsAreTheListedOnes : Obligations.IllegalWordsAreTheListedOnes := by
  intro w
  change _ ↔ (rsvAField w ≠ 0 ∨ rsvBField w ≠ 0) ∨
    opField w ∉ _ ∨ (opField w ∈ _ ∧ (chField w ≠ 0 ∨ maskField w ≠ 0)) ∨ (opField w ∈ _ ∧ maskField w ≠ 0) ∨
      (opField w = _ ∧ chField w ≠ 0)
  by_cases hr : rsvAField w ≠ 0 ∨ rsvBField w ≠ 0
  · exact ⟨fun _ => .inl hr, fun _ => ⟨_, decode_of_reservedBits hr⟩⟩
  obtain ⟨ha, hb⟩ : rsvAField w = 0 ∧ rsvBField w = 0 := by simpa using hr
  rcases opField_cases w with hop | hop | hop | hop | hop | hop | hop
  · rw [decode_of_op_nop ha hb hop, decodeBare_isError]; simp [ha, hb, hop]
  · rw [decode_of_op_recon ha hb hop, ite_isError]; simp [ha, hb, hop]
  · rw [decode_of_op_calculate ha hb hop, ite_isError]; simp [ha, hb, hop]
  · rw [decode_of_op_measure ha hb hop, ite_isError]; simp [ha, hb, hop]
  · rw [decode_of_op_clear ha hb hop, decodeBare_isError]; simp [ha, hb, hop]
  · rw [decode_of_op_sreset ha hb hop, decodeBare_isError]; simp [ha, hb, hop]
  · exact ⟨fun _ => .inr (.inl hop), fun _ => ⟨_, decode_of_op_reserved ha hb hop⟩⟩

/-- Settles O1: the decoder evaluated on each word. -/
theorem sampleWordsDecode : Obligations.SampleWordsDecode := by
  unfold Obligations.SampleWordsDecode
  decide

end Sys2Proof
end

section
/-! # The assembler: the word of each line and the lines it refuses (30_encoding.md R81). -/

namespace Sys2Proof.Machine

/-- The mask of a list has the bits it starts with and one for each listed channel (R81). -/
theorem getLsbD_foldl_asmMask (ks : List Nat) (m : BitVec 6) (j : Channel) :
    (ks.foldl (fun m k => m ||| (1#6 <<< (k - 1))) m).getLsbD j.val = true ↔
      m.getLsbD j.val = true ∨ ∃ k ∈ ks, k - 1 = j.val := by
  induction ks generalizing m with
  | nil => simp
  | cons k ks ih =>
    have hbit : (1#6 <<< (k - 1)).getLsbD j.val = true ↔ k - 1 = j.val := by
      simp; omega
    rw [List.foldl_cons, ih, BitVec.getLsbD_or, Bool.or_eq_true, hbit, List.exists_mem_cons_iff, or_assoc]

/-- Bit `k - 1` of the mask says whether channel `k` is listed, for a list of channels 1 to 6 (R76, R81). -/
theorem getLsbD_asmMask {ks : List Nat} (h : ∀ k ∈ ks, 1 ≤ k ∧ k ≤ 6) (j : Channel) :
    (asmMask ks).getLsbD j.val = true ↔ j.val + 1 ∈ ks := by
  rw [asmMask, getLsbD_foldl_asmMask]
  constructor
  · rintro (h0 | ⟨k, hk, hkj⟩)
    · simp at h0
    · have : j.val + 1 = k := by have := h k hk; omega
      exact this ▸ hk
  · exact fun hj => .inr ⟨_, hj, rfl⟩

/-! ## The words -/

theorem packCommand_channel (op : BitVec 8) {k : Nat} (hk : k ≤ 6) :
    packCommand op (BitVec.ofNat 3 k) 0 = op.setWidth 64 ||| (BitVec.ofNat 64 k <<< 8) := by
  have hch : (BitVec.ofNat 3 k).setWidth 64 = BitVec.ofNat 64 k := by
    apply BitVec.eq_of_toNat_eq
    simp; omega
  simp [packCommand, hch]

theorem packCommand_mask (op : BitVec 8) (m : BitVec 6) :
    packCommand op 0 m = op.setWidth 64 ||| (m.setWidth 64 <<< 16) := by
  simp [packCommand]

theorem encode_recon {k : Nat} (hk : k ≤ 6) : encode (.recon k) = 0x1#64 ||| (BitVec.ofNat 64 k <<< 8) :=
  packCommand_channel _ hk

theorem encode_calculate {k : Nat} (hk : k ≤ 6) : encode (.calculate k) = 0x2#64 ||| (BitVec.ofNat 64 k <<< 8) :=
  packCommand_channel _ hk

theorem encode_measure (m : BitVec 6) : encode (.measure m) = 0x3#64 ||| (m.setWidth 64 <<< 16) :=
  packCommand_mask _ m

/-! ## The lines with operands -/

theorem assemble_recon {k : Nat} {w : Word} :
    assemble (.recon k) = some w ↔ (1 ≤ k ∧ k ≤ 6) ∧ w = encode (.recon k) := by
  rw [assemble, Option.ite_none_right_eq_some, asmChannel, decide_eq_true_eq, Option.some_inj, @eq_comm _ w]

theorem assemble_calculate {k : Nat} {w : Word} :
    assemble (.calculate k) = some w ↔ (1 ≤ k ∧ k ≤ 6) ∧ w = encode (.calculate k) := by
  rw [assemble, Option.ite_none_right_eq_some, asmChannel, decide_eq_true_eq, Option.some_inj, @eq_comm _ w]

theorem assemble_measure {ks : List Nat} {w : Word} :
    assemble (.measure ks) = some w ↔
      (ks ≠ [] ∧ (∀ k ∈ ks, 1 ≤ k ∧ k ≤ 6) ∧ ks.Nodup) ∧ w = encode (.measure (asmMask ks)) := by
  rw [assemble, Option.ite_none_right_eq_some, Option.some_inj, @eq_comm _ w]
  simp [asmChannel, and_assoc]

/-- Settles O5: each accepted line has the word of `encode`, which decodes to its command. -/
theorem assembledCommandsDecode : Obligations.AssembledCommandsDecode := by
  refine ⟨⟨by decide, by decide, by decide, fun _ => rfl⟩, fun k w => ?_, fun k w h => ?_, fun k w => ?_,
    fun k w h => ?_, fun ks => ?_, fun ks w h => ?_⟩
  · rw [assemble_recon, and_assoc]
    exact and_congr_right fun _ => and_congr_right fun hk => by rw [encode_recon hk]
  · obtain ⟨⟨-, hk⟩, rfl⟩ := assemble_recon.1 h
    exact decodeOfEncode _ (decide_eq_true (by omega))
  · rw [assemble_calculate, and_assoc]
    exact and_congr_right fun _ => and_congr_right fun hk => by rw [encode_calculate hk]
  · obtain ⟨⟨-, hk⟩, rfl⟩ := assemble_calculate.1 h
    exact decodeOfEncode _ (decide_eq_true (by omega))
  · simp only [assemble_measure, exists_and_left, exists_eq, and_true]
  · obtain ⟨⟨-, hks, -⟩, rfl⟩ := assemble_measure.1 h
    exact ⟨asmMask ks, encode_measure _, decodeOfEncode _ rfl, getLsbD_asmMask hks⟩

end Sys2Proof.Machine
end

section
/-! # MEASURE against RECON and CALC: a queued command's outcome as its error record or its commit (42_control.md
R108, 60_exceptions.md R115), what `Calc(k, W)` reads (41_calculator.md R91 to R100), and that MEASURE of one channel
is RECON and then CALC of it (30_encoding.md R82, 41_calculator.md R102). -/

namespace Sys2Proof.Machine

/-! ## Outcomes -/

/-- The error record of a failing command: what it raises, and its opcode (R26, R115). -/
def CmdError.info (e : CmdError) (op : BitVec 8) : ErrInfo := ⟨BitVec.ofNat 16 e.index, e.channel, e.stage, e.seq, op⟩

/-- The state that a failing queued command leaves (R108, R116). -/
theorem exec_of_error {i : Instr} {s : State} {e : CmdError} (hi : i.immediate = false)
    (h : queuedCommand i s = .error e) : exec i s = .next (s.failed e.code (e.info i.opcode)) := by
  rw [exec_queued s hi, h, finishQueued_error, opField_encode, CmdError.info]

/-- The state that a committing queued command leaves (R108). -/
theorem exec_of_ok {i : Instr} {s t : State} (hi : i.immediate = false) (h : queuedCommand i s = .ok t) :
    exec i s = .next { t with busy := false } := by
  rw [exec_queued s hi, h, finishQueued_ok]

/-- Settles O9: the turn of the engine on an illegal word is the error entry of E_BADCMD. -/
theorem illegalPendingWordIsBadCommand : Obligations.IllegalPendingWordIsBadCommand := by
  intro s r hb hin hd
  rw [step_nil hin, engineTurn_busy hb]
  rcases engineStep_cases s with ⟨_, -, h⟩ | ⟨i, hi, -⟩ | ⟨i, hi, -⟩
  · rw [h, finishQueued_error]
    rfl
  · cases hd.symm.trans hi
  · cases hd.symm.trans hi

/-! ## What the calculation reads -/

/-- `IRAM[k][0..N)` is the bytes below VREC at the current length (R43). -/
theorem iramSeq_congr {s t : State} {k : Channel} (hn : t.n = s.n) (hlen : s.batch ≤ 4096)
    (hb : ∀ a, a < 0x1E000 → t.byteAt a = s.byteAt a) : t.iramSeq k = s.iramSeq k := by
  unfold State.iramSeq
  rw [batch_congr hn]
  refine List.map_congr_left fun i hi => ?_
  have hi := List.mem_range.1 hi
  have hk := k.isLt
  exact State.codeAt_congr s t _ (hb _ (by unfold iramBase; omega)) (hb _ (by unfold iramBase; omega))

/-- RECON's commit writes nothing that `Calc(k, W)` reads (R88, R100). -/
theorem calculate_commitRecon {s : State} (k : Channel) (ws vs : List Word) (hl : s.legalBatch) (j : Channel) :
    (commitRecon k ws s).calculate j vs = s.calculate j vs := by
  have hiram : (commitRecon k ws s).iramSeq j = s.iramSeq j :=
    iramSeq_congr rfl hl.2 fun a ha => byteAt_commitRecon_of_not k ws s a (by unfold vrecBase; omega)
  have hpass : (commitRecon k ws s).pass j vs = s.pass j vs := by
    rw [State.pass, hiram, commitRecon_adcRes, State.pass]
  have hscale : (commitRecon k ws s).scaleFactors j = s.scaleFactors j := rfl
  rw [State.calculate, hpass, hscale]
  rfl

/-! ## The commands on one channel -/

theorem measureChannel_of_error {k : Channel} {s : State} {e : CmdError} (h : s.reconstruct k = .error e) :
    s.measureChannel k = .error e := by
  rw [State.measureChannel, h, except_error_bind]

theorem measureChannel_of_ok {k : Channel} {s : State} {ws : List Word} (h : s.reconstruct k = .ok ws) :
    s.measureChannel k = s.calculate k ws := by
  rw [State.measureChannel, h, except_ok_bind]

theorem measureCommand_single (k : Channel) {s : State} (h : s.legalBatch) :
    measureCommand (1#6 <<< k.val) s =
      (s.measureChannel k).map fun r => commitMeasure (1#6 <<< k.val) [(k, r)] s := by
  rw [measureCommand_legal (single_ne_zero k) h, maskChannels_single, measureAll_cons]
  cases s.measureChannel k <;> rfl

theorem measureCommand_illegal (k : Channel) {s : State} (h : ¬ s.legalBatch) :
    measureCommand (1#6 <<< k.val) s = .error ⟨.len, .validation, 0, .none, 0⟩ := by
  simp only [measureCommand, needMask_of_ne (single_ne_zero k), needLength_error h, except_ok_bind, except_error_bind]

theorem reconCommand_illegal (k : Channel) {s : State} (h : ¬ s.legalBatch) :
    reconCommand (k.val + 1) s = .error ⟨.len, .validation, 0, .none, 0⟩ := by
  simp only [reconCommand, needChannel_number, needLength_error h, except_ok_bind, except_error_bind]

/-- Where RECON fails, MEASURE of the one channel raises the same (R102). -/
theorem measureCommand_error_of_recon {k : Channel} {s : State} {e : CmdError}
    (h : reconCommand (k.val + 1) s = .error e) : measureCommand (1#6 <<< k.val) s = .error e := by
  by_cases hl : s.legalBatch
  · rw [reconCommand_number k hl] at h
    cases hr : s.reconstruct k with
    | ok ws => rw [hr] at h; cases h
    | error e' =>
      rw [hr] at h
      cases h
      rw [measureCommand_single k hl, measureChannel_of_error hr]
      rfl
  · rw [reconCommand_illegal k hl] at h
    rw [measureCommand_illegal k hl, h]

/-- After RECON, CALC calculates over the reconstruction just committed (R82, R101). -/
theorem calcCommand_after_recon {k : Channel} {s t : State} {ws : List Word} (hl : s.legalBatch)
    (hr : s.reconstruct k = .ok ws) (ht : t = { commitRecon k ws s with busy := false }) :
    calcCommand (k.val + 1) t = (s.calculate k ws).map fun r => commitCalc k r t := by
  have hcalc : t.calculate k ws = s.calculate k ws := ht ▸ calculate_commitRecon k ws ws hl k
  have hvrec : t.vrecSeq = ws := ht ▸ vrecSeq_commitRecon (k := k) (reconstruct_length hr)
  have hlegal : t.legalBatch := ht ▸ hl
  have htagged : t.vrecTagged k := ht ▸ ⟨rfl, rfl, rfl⟩
  rw [calcCommand_number k hlegal htagged, hvrec, hcalc]
  cases s.calculate k ws <;> rfl

/-- Settles O40: both sides raise the first error of the reconstruction and then of the calculation over it, or commit
its reading. -/
theorem measureIsReconThenCalc : Obligations.MeasureIsReconThenCalc := by
  intro s t k herr ht
  cases hrecon : reconCommand (k.val + 1) s with
  | error e =>
    have hmeasure : exec (.measure (1#6 <<< k.val)) s = _ := exec_of_error rfl (measureCommand_error_of_recon hrecon)
    cases (exec_of_error (i := .recon (k.val + 1)) rfl hrecon).symm.trans ht
    exact ⟨_, hmeasure, fun _ => ⟨rfl, rfl, rfl⟩, by simp⟩
  | ok c =>
    cases (exec_of_ok (i := .recon (k.val + 1)) rfl hrecon).symm.trans ht
    obtain ⟨j, ws, hj, hl, hr, rfl⟩ := reconCommand_eq_ok.1 hrecon
    obtain rfl : k = j := Fin.ext (by omega)
    have hmeasure := measureCommand_single k hl
    have hcalc := calcCommand_after_recon hl hr rfl
    rw [measureChannel_of_ok hr] at hmeasure
    cases hreading : s.calculate k ws with
    | error e =>
      rw [hreading] at hmeasure hcalc
      exact ⟨_, exec_of_error rfl hmeasure, by simp [herr],
        fun _ => ⟨_, exec_of_error rfl hcalc, rfl, rfl, rfl, rfl, rfl, fun _ => rfl⟩⟩
    | ok r =>
      rw [hreading] at hmeasure hcalc
      exact ⟨_, exec_of_ok rfl hmeasure, by simp [herr],
        fun _ => ⟨_, exec_of_ok rfl hcalc, rfl, rfl, rfl, rfl, rfl, by simp [herr]⟩⟩

end Sys2Proof.Machine
end

section
/-! # Exact binary64 arithmetic: integers below `2^53` are exact (00_scope.md R104), rounding leaves a binary64 value
alone, and what the operations of the recurrence (40_reconstructor.md R84) make of 1.0, of zeros and of codes. -/

namespace Sys2Proof.Machine

/-! ## Rounding a binary64 value -/

/-- A significand of 53 bits in the binade of the unit `2^sh` is rounded to its own pattern. -/
theorem roundMagnitude_binade {m sh : Nat} (hlo : 2 ^ 52 ≤ m) (hhi : m < 2 ^ 53) (hs : sh < 2046) :
    roundMagnitude (m * 2 ^ sh) 1 = sh * 2 ^ 52 + m := by
  have hlog : (m * 2 ^ sh).log2 = 52 + sh := by
    refine (Nat.log2_eq_iff (by positivity)).2 ⟨?_, ?_⟩
    · rw [Nat.pow_add]
      exact Nat.mul_le_mul_right _ hlo
    · rw [Nat.add_right_comm, Nat.pow_add]
      exact Nat.mul_lt_mul_of_pos_right hhi (Nat.two_pow_pos sh)
  simp only [roundMagnitude, Nat.div_one, Nat.one_mul, hlog, Nat.add_sub_cancel_left,
    divNearestEven_mul m (Nat.two_pow_pos sh)]
  unfold infMagnitude
  omega

/-- A magnitude below `2^53` units is its own pattern, so it is rounded to itself. -/
theorem roundMagnitude_small {m : Nat} (h : m < 2 ^ 53) : roundMagnitude m 1 = m := by
  have hlog : m.log2 - 52 = 0 := by
    rcases Nat.eq_zero_or_pos m with rfl | h0
    · rw [Nat.log2_zero]
    · have := (Nat.log2_lt h0.ne').2 h
      omega
  have hexact := divNearestEven_mul m Nat.one_pos
  rw [Nat.mul_one] at hexact
  simp only [roundMagnitude, Nat.div_one, hlog, Nat.pow_zero, Nat.mul_one, hexact]
  unfold infMagnitude
  omega

theorem roundNearest_zero (neg : Bool) : roundNearest neg 0 1 = packSign neg 0 := by
  rw [roundNearest, roundMagnitude_small (by decide)]

/-- Rounding leaves a finite binary64 value as it is, the sign of a zero included. -/
theorem roundNearest_fMag {x : Word} (hx : isFinite x = true) : roundNearest (fSign x) (fMag x) 1 = x := by
  have hE : fExp x < 2047 := by
    have := fExp_lt x
    simp only [isFinite, bne_iff_ne, ne_eq] at hx
    omega
  have hF := fFrac_lt x
  have hround : roundMagnitude (fMag x) 1 = fExp x * 2 ^ 52 + fFrac x := by
    rw [fMag]
    split
    · rw [roundMagnitude_small (by omega)]
      omega
    · rw [roundMagnitude_binade (by omega) (by omega) (by omega)]
      omega
  rw [roundNearest, hround, packSign_fields]

theorem divNearestEven_mul_right (a b : Nat) {c : Nat} (hc : 0 < c) :
    divNearestEven (a * c) (b * c) = divNearestEven a b := by
  have htwo : 2 * (a % b * c) = 2 * (a % b) * c := (Nat.mul_assoc ..).symm
  simp only [divNearestEven, Nat.mul_div_mul_right _ _ hc, Nat.mul_mod_mul_right, htwo,
    Nat.mul_lt_mul_right hc, Nat.mul_left_inj hc.ne']

/-- A quotient rounds as any expansion of it. -/
theorem roundNearest_mul_right (neg : Bool) (a b : Nat) {c : Nat} (hc : 0 < c) :
    roundNearest neg (a * c) (b * c) = roundNearest neg a b := by
  simp only [roundNearest, roundMagnitude, Nat.mul_div_mul_right _ _ hc, Nat.mul_right_comm b c,
    divNearestEven_mul_right _ _ hc]

theorem fUnit_pos : 0 < fUnit := by
  unfold fUnit
  positivity

/-! ## Integers below 2^53 -/

/-- The pattern of an integer below `2^53` with a sign, which R104 makes exact. -/
def signedInteger (neg : Bool) (n : Nat) : Word := roundNearest neg (n * fUnit) 1

theorem f64_eq_signedInteger (n : Nat) : f64 n = signedInteger false n := rfl

/-- Such an integer has at most 53 bits, so it is a significand in some binade and its magnitude is exact (R104). -/
theorem fMag_signedInteger (neg : Bool) {n : Nat} (h : n < 2 ^ 53) : fMag (signedInteger neg n) = n * fUnit := by
  rw [signedInteger, roundNearest]
  rcases Nat.eq_zero_or_pos n with rfl | h0
  · rw [Nat.zero_mul, roundMagnitude_small (by decide), fMag_packSign_small neg (by decide)]
  have hlog : n.log2 < 53 := (Nat.log2_lt h0.ne').2 h
  have hsplit : n * fUnit = n * 2 ^ (52 - n.log2) * 2 ^ (n.log2 + 1022) := by
    rw [Nat.mul_assoc, ← Nat.pow_add, fUnit, show 52 - n.log2 + (n.log2 + 1022) = 1074 by omega]
  have hlo : 2 ^ 52 ≤ n * 2 ^ (52 - n.log2) :=
    calc 2 ^ 52 = 2 ^ n.log2 * 2 ^ (52 - n.log2) := by
          rw [← Nat.pow_add, show n.log2 + (52 - n.log2) = 52 by omega]
      _ ≤ n * 2 ^ (52 - n.log2) := Nat.mul_le_mul_right _ (Nat.log2_self_le h0.ne')
  have hhi : n * 2 ^ (52 - n.log2) < 2 ^ 53 :=
    calc n * 2 ^ (52 - n.log2) < 2 ^ (n.log2 + 1) * 2 ^ (52 - n.log2) :=
          Nat.mul_lt_mul_of_pos_right Nat.lt_log2_self (Nat.two_pow_pos _)
      _ = 2 ^ 53 := by rw [← Nat.pow_add, show n.log2 + 1 + (52 - n.log2) = 53 by omega]
  obtain ⟨f, hf⟩ := Nat.exists_eq_add_of_le hlo
  rw [hsplit, roundMagnitude_binade hlo hhi (by omega), hf, fMag_packSign neg (by omega) (by omega)]

theorem isFinite_signedInteger (neg : Bool) {n : Nat} (h : n < 2 ^ 53) : isFinite (signedInteger neg n) = true :=
  isFinite_packSign neg (roundMagnitude_lt_inf h le_rfl)

theorem fSign_signedInteger (neg : Bool) {n : Nat} (h : n < 2 ^ 53) : fSign (signedInteger neg n) = neg :=
  fSign_packSign neg ((roundMagnitude_lt_inf h le_rfl).trans (by decide))

theorem fSign_f64 {n : Nat} (h : n < 2 ^ 53) : fSign (f64 n) = false := fSign_signedInteger false h

/-- `f64` is exact below `2^53` (R104). -/
theorem fVal_f64 {n : Nat} (h : n < 2 ^ 53) : fVal (f64 n) = (n : Int) * fUnit := by
  rw [fVal, fSign_f64 h, f64_eq_signedInteger, fMag_signedInteger false h, if_neg Bool.false_ne_true, Nat.cast_mul]

/-- The difference of two integers below `2^53` is exact, and `+0.0` where they are equal. -/
theorem fsub_f64 {a b : Nat} (ha : a < 2 ^ 53) (hb : b < 2 ^ 53) :
    fsub (f64 a) (f64 b) = signedInteger (decide (a < b)) ((a : Int) - b).natAbs := by
  have hsum : fVal (f64 a) + fVal (fneg (f64 b)) = ((a : Int) - b) * fUnit := by
    rw [fVal_fneg, fVal_f64 ha, fVal_f64 hb]
    ring
  have hunit : (0 : Int) < fUnit := Int.natCast_pos.2 fUnit_pos
  rw [fsub, fadd_finite (isFinite_f64 ha) ((isFinite_fneg _).trans (isFinite_f64 hb)), hsum, signedInteger]
  rcases eq_or_ne a b with rfl | hab
  · rw [sub_self, zero_mul, if_pos rfl, fSign_fneg, fSign_f64 ha, Int.natAbs_zero, Nat.zero_mul, roundNearest_zero,
      decide_eq_false (lt_irrefl a)]
    rfl
  · have hne : (a : Int) - b ≠ 0 := by omega
    have hsign : ((a : Int) - b) * fUnit < 0 ↔ a < b := by
      have hscale := mul_lt_mul_iff_left₀ hunit (b := (a : Int) - b) (c := 0)
      rw [zero_mul] at hscale
      omega
    rw [if_neg (mul_ne_zero hne hunit.ne'), decide_eq_decide.2 hsign, Int.natAbs_mul, Int.natAbs_natCast]

theorem isFinite_fsub_f64 {a b : Nat} (ha : a < 2 ^ 53) (hb : b < 2 ^ 53) :
    isFinite (fsub (f64 a) (f64 b)) = true := by
  rw [fsub_f64 ha hb]
  exact isFinite_signedInteger _ (by omega)

/-- The difference has the value it stands for (R104). -/
theorem fVal_fsub_f64 {a b : Nat} (ha : a < 2 ^ 53) (hb : b < 2 ^ 53) :
    fVal (fsub (f64 a) (f64 b)) = ((a : Int) - b) * fUnit := by
  have hlt : ((a : Int) - b).natAbs < 2 ^ 53 := by omega
  rw [fsub_f64 ha hb, fVal, fSign_signedInteger _ hlt, fMag_signedInteger _ hlt, Nat.cast_mul, Int.natCast_natAbs]
  by_cases h : a < b
  · rw [decide_eq_true h, if_pos rfl, abs_of_neg (by omega)]
    ring
  · rw [decide_eq_false h, if_neg Bool.false_ne_true, abs_of_nonneg (by omega)]

/-- Adding the difference of two codes to the one subtracted gives the other, bit for bit (R85). -/
theorem fadd_fsub_f64 {a b : Nat} (ha : a < 2 ^ 53) (hb : b < 2 ^ 53) :
    fadd (f64 b) (fsub (f64 a) (f64 b)) = f64 a := by
  have hsum : fVal (f64 b) + fVal (fsub (f64 a) (f64 b)) = ((a * fUnit : Nat) : Int) := by
    rw [fVal_f64 hb, fVal_fsub_f64 ha hb, Nat.cast_mul]
    ring
  rw [fadd_finite (isFinite_f64 hb) (isFinite_fsub_f64 ha hb), hsum, fSign_f64 hb, Bool.false_and,
    decide_eq_false (by omega), Int.natAbs_natCast]
  split
  · rw [f64, show a * fUnit = 0 by omega, roundNearest_zero]
  · rfl

/-! ## The coefficients 1.0 and zero -/

/-- 1.0 is a factor that changes nothing (R85). -/
theorem fmul_one {x : Word} (hx : isFinite x = true) : fmul 0x3FF0000000000000 x = x := by
  have hmag : fMag 0x3FF0000000000000 = fUnit := by decide +kernel
  have hsign : (fSign 0x3FF0000000000000 != fSign x) = fSign x := Bool.false_xor _
  have hround := roundNearest_mul_right (fSign x) (fMag x) 1 fUnit_pos
  rw [fmul_finite (by decide) hx, hmag, hsign, Nat.mul_comm]
  rw [Nat.one_mul] at hround
  rw [hround, roundNearest_fMag hx]

theorem isFinite_of_isZero {x : Word} (h : isZero x = true) : isFinite x = true := by
  simp only [isZero, Bool.and_eq_true, beq_iff_eq] at h
  simp [isFinite, h.1]

theorem isZero_packSign_zero (neg : Bool) : isZero (packSign neg 0) = true := by cases neg <;> decide

/-- A zero times a finite value is a zero. -/
theorem isZero_fmul {z x : Word} (hz : isZero z = true) (hx : isFinite x = true) : isZero (fmul z x) = true := by
  have hround := roundNearest_mul_right (fSign z != fSign x) 0 1 fUnit_pos
  rw [Nat.zero_mul, Nat.one_mul] at hround
  rw [fmul_finite (isFinite_of_isZero hz) hx, (isZero_iff_fMag z).1 hz, Nat.zero_mul, hround, roundNearest_zero]
  exact isZero_packSign_zero _

/-- Adding either zero to a finite value without a sign leaves it as it is, bit for bit. -/
theorem fadd_isZero {x z : Word} (hx : isFinite x = true) (hs : fSign x = false) (hz : isZero z = true) :
    fadd x z = x := by
  have hvalz : fVal z = 0 := by simp [fVal, (isZero_iff_fMag z).1 hz]
  have hvalx : fVal x = fMag x := by simp [fVal, hs]
  have hround := roundNearest_fMag hx
  rw [hs] at hround
  rw [fadd_finite hx (isFinite_of_isZero hz), hvalz, add_zero, hvalx, hs, Bool.false_and,
    decide_eq_false (by omega), Int.natAbs_natCast, hround]
  split
  · rw [← hround, show fMag x = 0 by omega, roundNearest_zero]
  · rfl

end Sys2Proof.Machine
end

section
/-! # RECON: the recurrence of 40_reconstructor.md R84 index by index, where `Reconstruct(k)` stops and what it
answers (60_exceptions.md R118), and RECON's commit for any coefficient, for 1.0 (R85) and for zero (R88). -/

namespace Sys2Proof.Machine

/-! ## One index of the recurrence -/

/-- `W[i]` from `c`, `W[i-1]` and the code at `i` (R84). -/
def nextSample (c prev : Word) (v : Code) : Word := fadd prev (fmul c (fsub (f64 v.toNat) prev))

/-- The three results at an index are finite (R84, R118). -/
def nextFinite (c prev : Word) (v : Code) : Bool :=
  isFinite (fsub (f64 v.toNat) prev) && isFinite (fmul c (fsub (f64 v.toNat) prev)) && isFinite (nextSample c prev v)

theorem reconstructFrom_cons (adc : BitVec 32) (c : Word) (ch : BitVec 3) (i : Nat) (prev : Word) (v : Code)
    (vs : List Code) :
    reconstructFrom adc c ch i prev (v :: vs) =
      if adc.toNat ≤ v.toNat then .error ⟨.code, .reconstruction, ch, .voltage, i⟩
      else if nextFinite c prev v then
        (reconstructFrom adc c ch (i + 1) (nextSample c prev v) vs).map (nextSample c prev v :: ·)
      else .error ⟨.nonFinite, .reconstruction, ch, .voltage, i⟩ := by
  rw [reconstructFrom]
  unfold nextFinite nextSample
  dsimp only
  split_ifs
  · rfl
  · generalize reconstructFrom adc c ch (i + 1) _ vs = rest
    cases rest <;> rfl
  · rfl

theorem reconstructSeq_cons (adc : BitVec 32) (c : Word) (ch : BitVec 3) (v : Code) (vs : List Code) :
    reconstructSeq adc c ch (v :: vs) =
      if adc.toNat ≤ v.toNat then .error ⟨.code, .reconstruction, ch, .voltage, 0⟩
      else (reconstructFrom adc c ch 1 (f64 v.toNat) vs).map (f64 v.toNat :: ·) := by
  rw [reconstructSeq]
  cases reconstructFrom adc c ch 1 (f64 v.toNat) vs <;> rfl

/-- The first sample of a reconstruction: a legal code, taken as it is (R84). -/
theorem reconstructsAt_zero {s : State} {k : Channel} {W : Nat → Word} :
    s.reconstructsAt k W 0 ↔ (s.vram 0).toNat < s.adcRes.toNat ∧ W 0 = f64 (s.vram 0).toNat := by
  simp [State.reconstructsAt]

/-- A later sample: a legal code, finite results, and the sample that the recurrence gives (R84). -/
theorem reconstructsAt_succ {s : State} {k : Channel} {W : Nat → Word} {i : Nat} :
    s.reconstructsAt k W (i + 1) ↔
      (s.vram (i + 1)).toNat < s.adcRes.toNat ∧ nextFinite s.phase[k] (W i) (s.vram (i + 1)) = true ∧
        W (i + 1) = nextSample s.phase[k] (W i) (s.vram (i + 1)) := by
  have hsucc : 0 < i + 1 := i.succ_pos
  simp only [State.reconstructsAt, nextFinite, nextSample, Nat.add_sub_cancel, hsucc, Bool.and_eq_true,
    Nat.succ_ne_zero, false_imp_iff, true_and, forall_const]
  constructor
  · rintro ⟨hcode, hd, hm, hw, hfin⟩
    exact ⟨hcode, ⟨⟨hd, hm⟩, hw ▸ hfin⟩, hw⟩
  · rintro ⟨hcode, ⟨⟨hd, hm⟩, hfin⟩, hw⟩
    exact ⟨hcode, hd, hm, hw, hw ▸ hfin⟩

/-! ## The recurrence over VRAM -/

/-- The `n` codes of VRAM from index `i` on (R42). -/
def State.codesFrom (s : State) (i n : Nat) : List Code := (List.range' i n).map s.vram

theorem vramSeq_eq_codesFrom (s : State) : s.vramSeq = s.codesFrom 0 s.batch := by
  rw [State.vramSeq, State.codesFrom, List.range_eq_range']

theorem codesFrom_succ (s : State) (i n : Nat) : s.codesFrom i (n + 1) = s.vram i :: s.codesFrom (i + 1) n := rfl

/-- The recurrence after an index through which no check fails (R84). -/
theorem reconstructSeq_skip {s : State} {k : Channel} {W : Nat → Word} {j : Nat} (n : Nat)
    (h : ∀ i, i ≤ j → s.reconstructsAt k W i) :
    reconstructSeq s.adcRes s.phase[k] (channelNumber k) (s.codesFrom 0 (j + 1 + n)) =
      (reconstructFrom s.adcRes s.phase[k] (channelNumber k) (j + 1) (W j) (s.codesFrom (j + 1) n)).map
        ((List.range (j + 1)).map W ++ ·) := by
  induction j generalizing n with
  | zero =>
    obtain ⟨hcode, hw⟩ := reconstructsAt_zero.1 (h 0 le_rfl)
    rw [Nat.zero_add, Nat.add_comm, codesFrom_succ, reconstructSeq_cons, if_neg (Nat.not_le.2 hcode), ← hw]
    rfl
  | succ j ih =>
    obtain ⟨hcode, hfin, hw⟩ := reconstructsAt_succ.1 (h (j + 1) le_rfl)
    have hprefix := ih (n + 1) fun i hi => h i (Nat.le_succ_of_le hi)
    rw [codesFrom_succ, reconstructFrom_cons, if_neg (Nat.not_le.2 hcode), if_pos hfin, ← hw] at hprefix
    rw [Nat.add_right_comm, Nat.add_assoc, hprefix, List.range_succ (n := j + 1)]
    cases reconstructFrom s.adcRes s.phase[k] (channelNumber k) (j + 1 + 1) (W (j + 1))
      (s.codesFrom (j + 1 + 1) n) <;> simp [Except.map]

/-! ## `Reconstruct(k)` -/

/-- The configuration checks come first (R84, R118). -/
theorem reconstruct_badConfig {s : State} {k : Channel} (h : s.adcRes = 0 ∨ isFinite s.phase[k] = false) :
    s.reconstruct k = .error ⟨.config, .reconstruction, channelNumber k, .none, 0⟩ := by
  unfold State.reconstruct
  rcases h with h | h
  · rw [if_pos h]
  · rw [h]
    exact ite_self _

/-- With a legal configuration the reconstruction is the recurrence over VRAM (R84). -/
theorem reconstruct_legal {s : State} {k : Channel} (hadc : s.adcRes ≠ 0) (hphase : isFinite s.phase[k] = true) :
    s.reconstruct k = reconstructSeq s.adcRes s.phase[k] (channelNumber k) (s.codesFrom 0 s.batch) := by
  rw [State.reconstruct, if_neg hadc, hphase, vramSeq_eq_codesFrom]
  rfl

/-- A sequence that follows the recurrence with no failing check is the reconstruction (R84). -/
theorem reconstruct_ok {s : State} {k : Channel} {W : Nat → Word} (hl : s.legalBatch)
    (h : s.reconstructible k W) : s.reconstruct k = .ok ((List.range s.batch).map W) := by
  obtain ⟨hphase, hall⟩ := h
  obtain ⟨j, hj⟩ : ∃ j, s.batch = j + 1 := Nat.exists_eq_add_one.2 (by have := hl.1; omega)
  have hadc : s.adcRes ≠ 0 := by
    intro h0
    have hcode := (hall 0 (by omega)).1
    rw [h0] at hcode
    exact absurd hcode (Nat.not_lt_zero _)
  have hskip := reconstructSeq_skip (j := j) 0 fun i hi => hall i (by omega)
  rw [reconstruct_legal hadc hphase, hj, ← Nat.add_zero (j + 1), hskip]
  simp [State.codesFrom, reconstructFrom, Except.map]

/-- The first index whose code is not legal ends the reconstruction with E_CODE (R84, R118). -/
theorem reconstruct_badCode {s : State} {k : Channel} {W : Nat → Word} {j : Nat} (hadc : s.adcRes ≠ 0)
    (hphase : isFinite s.phase[k] = true) (hj : j < s.batch) (h : ∀ i, i < j → s.reconstructsAt k W i)
    (hbad : s.adcRes.toNat ≤ (s.vram j).toNat) :
    s.reconstruct k = .error ⟨.code, .reconstruction, channelNumber k, .voltage, j⟩ := by
  obtain ⟨n, hn⟩ : ∃ n, s.batch = j + (n + 1) := ⟨s.batch - j - 1, by omega⟩
  rw [reconstruct_legal hadc hphase, hn]
  cases j with
  | zero => rw [Nat.zero_add, codesFrom_succ, reconstructSeq_cons, if_pos hbad]
  | succ j =>
    rw [reconstructSeq_skip _ fun i hi => h i (Nat.lt_succ_of_le hi), codesFrom_succ, reconstructFrom_cons, if_pos hbad]
    rfl

/-- The first index whose code is legal and whose results are not finite ends it with E_NONFINITE (R84, R118). -/
theorem reconstruct_nonFinite {s : State} {k : Channel} {W : Nat → Word} {j : Nat} (hadc : s.adcRes ≠ 0)
    (hphase : isFinite s.phase[k] = true) (hj : j + 1 < s.batch) (h : ∀ i, i ≤ j → s.reconstructsAt k W i)
    (hcode : (s.vram (j + 1)).toNat < s.adcRes.toNat)
    (hinf : nextFinite s.phase[k] (W j) (s.vram (j + 1)) = false) :
    s.reconstruct k = .error ⟨.nonFinite, .reconstruction, channelNumber k, .voltage, j + 1⟩ := by
  obtain ⟨n, hn⟩ : ∃ n, s.batch = j + 1 + (n + 1) := ⟨s.batch - j - 2, by omega⟩
  rw [reconstruct_legal hadc hphase, hn, reconstructSeq_skip _ h, codesFrom_succ, reconstructFrom_cons,
    if_neg (Nat.not_le.2 hcode), hinf]
  rfl

/-! ## The coefficients 1.0 and zero -/

theorem toNat_code_lt (v : Code) : v.toNat < 2 ^ 53 := v.isLt.trans (by decide)

theorem isFinite_fsub_code (u v : Code) : isFinite (fsub (f64 v.toNat) (f64 u.toNat)) = true :=
  isFinite_fsub_f64 (toNat_code_lt v) (toNat_code_lt u)

/-- The coefficient 1.0 takes any code to the next one exactly (R85). -/
theorem nextSample_one (u v : Code) : nextSample 0x3FF0000000000000 (f64 u.toNat) v = f64 v.toNat := by
  rw [nextSample, fmul_one (isFinite_fsub_code u v), fadd_fsub_f64 (toNat_code_lt v) (toNat_code_lt u)]

theorem nextFinite_one (u v : Code) : nextFinite 0x3FF0000000000000 (f64 u.toNat) v = true := by
  rw [nextFinite, nextSample_one, fmul_one (isFinite_fsub_code u v), isFinite_fsub_code, isFinite_f64_code]
  rfl

/-- A zero coefficient keeps the sample, whatever the next code (R88). -/
theorem nextSample_zero {c : Word} (hc : isZero c = true) (u v : Code) :
    nextSample c (f64 u.toNat) v = f64 u.toNat :=
  fadd_isZero (isFinite_f64_code u) (fSign_f64 (toNat_code_lt u)) (isZero_fmul hc (isFinite_fsub_code u v))

theorem nextFinite_zero {c : Word} (hc : isZero c = true) (u v : Code) : nextFinite c (f64 u.toNat) v = true := by
  have hproduct := isFinite_of_isZero (isZero_fmul hc (isFinite_fsub_code u v))
  rw [nextFinite, nextSample_zero hc, hproduct, isFinite_fsub_code, isFinite_f64_code]
  rfl

/-! ## The command -/

/-- RECON of a legal batch raises what its reconstruction raises (R88, R116). -/
theorem exec_recon_error {s : State} {k : Channel} {e : CmdError} (hl : s.legalBatch)
    (he : s.reconstruct k = .error e) :
    exec (.recon (k.val + 1)) s = .next (s.failed e.code (e.info 0x01)) := by
  refine exec_of_error rfl ?_
  rw [queuedCommand, reconCommand_number k hl, he]

/-- RECON of a legal batch commits its reconstruction (R88). -/
theorem exec_recon_ok {s : State} {k : Channel} {ws : List Word} (hl : s.legalBatch)
    (hr : s.reconstruct k = .ok ws) :
    exec (.recon (k.val + 1)) s = .next { commitRecon k ws s with busy := false } := by
  refine exec_of_ok rfl ?_
  rw [queuedCommand, reconCommand_number k hl, hr]

/-- Settles O22: the configuration checks of `Reconstruct` come before every sample. -/
theorem reconRejectsBadConfiguration : Obligations.ReconRejectsBadConfiguration :=
  fun _ _ hl hbad => exec_recon_error hl (reconstruct_badConfig hbad)

/-- Settles O23: the recurrence runs through the indices below `j` and stops there, at the code check or at the check
of the three results. -/
theorem reconReportsTheFirstBadSample : Obligations.ReconReportsTheFirstBadSample := by
  intro s k W j hl hadc hphase hj hbefore
  refine ⟨fun hbad => exec_recon_error hl (reconstruct_badCode hadc hphase hj hbefore hbad),
    fun hcode hpos hinf => ?_⟩
  obtain ⟨i, rfl⟩ := Nat.exists_eq_add_one.2 hpos
  have hnext : nextFinite s.phase[k] (W i) (s.vram (i + 1)) = false := by
    simpa only [nextFinite, nextSample, Bool.and_eq_false_iff, or_assoc, Nat.add_sub_cancel] using hinf
  exact exec_recon_error hl
    (reconstruct_nonFinite hadc hphase hj (fun l hl => hbefore l (Nat.lt_succ_of_le hl)) hcode hnext)

/-- Settles O30: the reconstruction is `W`, and RECON's commit writes VREC[0..N), VREC_STATUS and DONE alone. -/
theorem reconCommitsTheRecurrence : Obligations.ReconCommitsTheRecurrence := by
  intro s k W hl hphase hall
  have hlen : ((List.range s.batch).map W).length = s.batch := by simp
  refine ⟨_, exec_recon_ok hl (reconstruct_ok hl ⟨hphase, hall⟩), fun i hi => ?_, rfl, rfl, rfl, fun a ha => ?_,
    rfl⟩
  · exact (vrec_commitRecon k _ s i (hlen.symm ▸ hi)).trans (by simp)
  · exact byteAt_commitRecon_of_not k _ s a (by rwa [hlen])

/-- RECON completes on a sequence that follows the recurrence, with ERR as before (R88). -/
theorem recon_completes {s : State} {k : Channel} {W : Nat → Word} (hl : s.legalBatch) (h : s.reconstructible k W) :
    ∃ t, exec (.recon (k.val + 1)) s = .next t ∧ t.done = true ∧ t.err = s.err ∧
      ∀ i, i < s.batch → t.vrec i = W i := by
  obtain ⟨t, hexec, hvrec, -, hdone, -, -, hframe⟩ := reconCommitsTheRecurrence s k W hl h.1 h.2
  exact ⟨t, hexec, hdone, (congrArg State.err hframe :), hvrec⟩

/-- Settles O31: the input sequence follows the recurrence with coefficient 1.0, every operation being exact. -/
theorem unitCoefficientIsTheIdentity : Obligations.UnitCoefficientIsTheIdentity := by
  intro s k hl hphase hcodes
  refine recon_completes (W := fun i => f64 (s.vram i).toNat) hl ⟨by rw [hphase]; decide, fun i hi => ?_⟩
  cases i with
  | zero => exact reconstructsAt_zero.2 ⟨hcodes 0 hi, rfl⟩
  | succ i =>
    exact reconstructsAt_succ.2 ⟨hcodes _ hi, by rw [hphase, nextFinite_one], by rw [hphase, nextSample_one]⟩

/-- Settles O32: the constant sequence of the first sample follows the recurrence with either zero as coefficient. -/
theorem zeroCoefficientHoldsTheFirstSample : Obligations.ZeroCoefficientHoldsTheFirstSample := by
  intro s k hl hphase hcodes
  refine recon_completes (W := fun _ => f64 (s.vram 0).toNat) hl ⟨isFinite_of_isZero hphase, fun i hi => ?_⟩
  cases i with
  | zero => exact reconstructsAt_zero.2 ⟨hcodes 0 hi, rfl⟩
  | succ i =>
    exact reconstructsAt_succ.2 ⟨hcodes _ hi, nextFinite_zero hphase _ _, (nextSample_zero hphase _ _).symm⟩

end Sys2Proof.Machine
end

section
/-! # `Calc(k, W)` against its formulas: the pass and the calculation answer exactly where no check fails, and the
accumulators are folds over increasing indices from +0.0 (41_calculator.md R91 to R98, R100). -/

namespace Sys2Proof.Machine

/-! ## The pass -/

/-- The pass answers exactly where no check of R93 fails, and then the sums. -/
theorem pass_eq_ok {s : State} {k : Channel} {W : Nat → Word} {t : Sums} :
    s.pass k ((List.range s.batch).map W) = .ok t ↔
      (∀ i, i < s.batch → s.accumulatesAt k W i) ∧ s.sumsTo k W s.batch = t := by
  constructor
  · intro h
    rcases accumulatesAt_or_first_failure s k W s.batch with hall | ⟨j, hj, hfail, hbefore⟩
    · exact ⟨hall, Except.ok.inj ((pass_ok hall).symm.trans h)⟩
    · obtain ⟨hcode, hresults⟩ := pass_stop hj hbefore
      rcases Nat.lt_or_ge (s.iram k j).toNat s.adcRes.toNat with hlt | hge
      · have hinf : (s.passResults k W j).all isFinite = false := Bool.eq_false_iff.2 fun hfin => hfail ⟨hlt, hfin⟩
        cases (hresults hlt hinf).symm.trans h
      · cases (hcode hge).symm.trans h
  · rintro ⟨hall, rfl⟩
    exact pass_ok hall

/-- Each accumulator is the fold of its terms over increasing indices from +0.0 (R93). -/
theorem sumsTo_eq_foldl (s : State) (k : Channel) (W : Nat → Word) (n : Nat) :
    s.sumsTo k W n =
      ⟨((List.range n).map fun i => f64 (s.iram k i).toNat).foldl fadd 0,
        ((List.range n).map W).foldl fadd 0,
        ((List.range n).map fun i => fmul (f64 (s.iram k i).toNat) (W i)).foldl fadd 0,
        ((List.range n).map fun i => fmul (f64 (s.iram k i).toNat) (f64 (s.iram k i).toNat)).foldl fadd 0,
        ((List.range n).map fun i => fmul (W i) (W i)).foldl fadd 0⟩ := by
  induction n with
  | zero => rfl
  | succ n ih =>
    simp only [List.range_succ, List.map_append, List.map_cons, List.map_nil, List.foldl_append, List.foldl_cons,
      List.foldl_nil]
    rw [State.sumsTo, ih]

/-- A list of voltages is indexed by a function. -/
theorem exists_eq_map_range {ws : List Word} {n : Nat} (h : ws.length = n) :
    ∃ W : Nat → Word, ws = (List.range n).map W :=
  ⟨fun i => ws.getD i 0, List.ext_getElem (by simp [h]) fun i h1 h2 => by simp [h1]⟩

/-! ## The calculation -/

/-- With a legal configuration and a pass in which no check fails, the calculation is its final stage (R100). -/
theorem calculate_of_accumulates {s : State} {k : Channel} {W : Nat → Word} (hc : s.configLegal k)
    (ha : ∀ i, i < s.batch → s.accumulatesAt k W i) :
    s.calculate k ((List.range s.batch).map W) =
      runChecks (channelNumber k) (s.readingOf k W) (s.finalChecks k W) := by
  rw [State.calculate, scaleFactors_iff.2 ⟨hc, rfl⟩, pass_ok ha]
  exact finalStage_checks s k W

/-- The calculation answers a reading exactly where no check fails, and it is that of the formulas (R100). -/
theorem calculate_samples_eq_ok {s : State} {k : Channel} {W : Nat → Word} {r : Reading × Debug} :
    s.calculate k ((List.range s.batch).map W) = .ok r ↔ s.calculable k W ∧ s.readingOf k W = r := by
  constructor
  · intro h
    obtain ⟨f, t, hscale, hpass, -⟩ := calculate_eq_ok.1 h
    obtain ⟨hc, -⟩ := scaleFactors_iff.1 hscale
    obtain ⟨ha, -⟩ := pass_eq_ok.1 hpass
    rw [calculate_of_accumulates hc ha, runChecks_eq_ok] at h
    exact ⟨⟨hc, ha, h.1⟩, h.2⟩
  · rintro ⟨⟨hc, ha, hf⟩, hr⟩
    rw [calculate_of_accumulates hc ha]
    exact runChecks_eq_ok.2 ⟨hf, hr⟩

/-- A function of each current code, by index (R43). -/
theorem iramSeq_map {α : Type} (s : State) (k : Channel) (f : Code → α) :
    (s.iramSeq k).map f = (List.range s.batch).map fun i => f (s.iram k i) := by
  rw [State.iramSeq, List.map_map]
  rfl

/-- Settles O35: the reading of a calculation in which no check fails is that of the formulas, its sums folds. -/
theorem readingFollowsTheFormulas : Obligations.ReadingFollowsTheFormulas := by
  refine ⟨fun s k W r d => calculate_samples_eq_ok, fun s k ws r d hlen h => ?_⟩
  obtain ⟨W, rfl⟩ := exists_eq_map_range hlen
  have hreading := (calculate_samples_eq_ok.1 h).2
  have hsums := sumsTo_eq_foldl s k W s.batch
  simp only [iramSeq_map, List.map_map, List.zipWith_map, List.zipWith_self]
  unfold State.readingOf State.radicandI State.radicandV at hreading
  rw [hsums] at hreading
  cases hreading
  exact ⟨rfl, rfl, rfl, rfl, rfl, rfl, rfl, rfl, rfl, rfl, rfl⟩

end Sys2Proof.Machine
end

section
/-! # CALC: what it commits where no check fails, and which error it reports where one does (41_calculator.md R92,
R93, R100, R101; 60_exceptions.md R115, R118). -/

namespace Sys2Proof.Machine

/-- CALC of a legal, matched batch in which no check fails commits the reading of the formulas (R101). -/
theorem exec_calculate_ok {s : State} {k : Channel} (hl : s.legalBatch) (hm : s.vrecTagged k)
    (hc : s.calculable k s.vrec) :
    exec (.calculate (k.val + 1)) s = .next { commitCalc k (s.readingOf k s.vrec) s with busy := false } := by
  have hcalc : s.calculate k s.vrecSeq = .ok (s.readingOf k s.vrec) := calculate_samples_eq_ok.2 ⟨hc, rfl⟩
  refine exec_of_ok rfl ?_
  rw [queuedCommand, calcCommand_number k hl hm, hcalc]

/-- RESULT[j] after one reading is stored (R101). -/
theorem getElem_set_result (v : Vector Reading 6) (r : Reading) (j k : Channel) :
    (v.set k r)[j] = if j = k then r else v[j] := by
  by_cases h : j = k
  · subst h; simp
  · have hne : k.val ≠ j.val := fun e => h (Fin.ext e.symm)
    rw [if_neg h]
    exact Vector.getElem_set_ne k.isLt j.isLt hne

/-- RES_VALID after the bit of one channel is set (R35, R101). -/
theorem getLsbD_setValid (v : BitVec 6) (j k : Channel) :
    (setValid v k).getLsbD j.val = (v.getLsbD j.val || decide (j = k)) := by
  have hbit : (1#6 <<< k.val).getLsbD j.val = decide (j = k) := by revert j k; decide
  rw [setValid, BitVec.getLsbD_or, hbit]

/-- Settles O33: CALC's commit holds the reading of the formulas. -/
theorem calcCommitsTheReading : Obligations.CalcCommitsTheReading := by
  intro s k r d hl hm hc hr
  have hch : d.ch = BitVec.ofNat 3 (k.val + 1) := by
    cases hr
    rfl
  have hexec := exec_calculate_ok hl hm hc
  rw [hr] at hexec
  exact ⟨_, hexec, fun j => getElem_set_result _ r j k, fun j => getLsbD_setValid _ j k, rfl, hch, rfl, rfl, rfl,
    fun _ => rfl, rfl⟩

/-- Settles O24: the tag of VREC is checked before the configuration. -/
theorem calcRejectsAnUnmatchedReconstruction : Obligations.CalcRejectsAnUnmatchedReconstruction := by
  intro s k hl hm
  refine exec_of_error (i := .calculate (k.val + 1)) rfl
    (e := ⟨.mismatch, .validation, channelNumber k, .voltage, 0⟩) ?_
  simp only [queuedCommand, calcCommand, needChannel_number, needLength_ok hl, needMatch_error hm, except_ok_bind,
    except_error_bind]

/-- `ScaleFactors(k)` raises E_CONFIG wherever a check of R92 fails. -/
theorem scaleFactors_of_not_legal {s : State} {k : Channel} (h : ¬ s.configLegal k) :
    s.scaleFactors k = .error (configError k) := by
  cases hf : s.scaleFactors k with
  | ok f => exact absurd (scaleFactors_iff.1 hf).1 h
  | error e => rw [scaleFactors_error hf]

/-- CALC of a legal, matched batch with a configuration that is not legal fails with E_CONFIG (R92, R101). -/
theorem exec_calculate_badConfig {s : State} {k : Channel} (hl : s.legalBatch) (hm : s.vrecTagged k)
    (h : ¬ s.configLegal k) :
    exec (.calculate (k.val + 1)) s = .next (s.failed .config ⟨0, channelNumber k, .scaleFactors, .none, 0x02⟩) := by
  refine exec_calculate_error (e := configError k) hl hm ?_
  rw [State.calculate, scaleFactors_of_not_legal h, except_error_bind]

/-- Settles O25: each listed condition makes a check of R92 fail. -/
theorem calcRejectsBadConfiguration : Obligations.CalcRejectsBadConfiguration := by
  intro s k hl hm hbad
  refine exec_calculate_badConfig hl hm ?_
  rintro ⟨hadc, hinputs, hxfmr, hresults⟩
  simp only [List.all_cons, List.all_nil, Bool.and_true, Bool.and_eq_true] at hinputs
  obtain ⟨href, hgrid, hxfmrFinite, hac, hcur⟩ := hinputs
  rcases hbad with h | h | h | h | h | h | h | ⟨x, hx, h⟩
  · exact hadc h
  · simp [href] at h
  · simp [hgrid] at h
  · simp [hxfmrFinite] at h
  · simp [hac] at h
  · cases hcur.symm.trans h
  · simp [hxfmr] at h
  · simp [List.all_eq_true.1 hresults x hx] at h

/-- Settles O34: the pass stops at its first failing index, and the final stage at its first failing check. -/
theorem calcReportsTheFirstFailure : Obligations.CalcReportsTheFirstFailure := by
  intro s k hl hm hc
  have hscale := scaleFactors_iff.2 ⟨hc, rfl⟩
  refine ⟨fun j hj hbefore => ?_, fun hall before after c hchecks hpasses hfails => ?_⟩
  · obtain ⟨hcode, hresults⟩ := pass_stop hj hbefore
    exact ⟨fun hbad => exec_calculate_error hl hm (calculate_error_of_pass hscale (hcode hbad)),
      fun hlt hinf => exec_calculate_error hl hm (calculate_error_of_pass hscale (hresults hlt hinf))⟩
  · have herror : s.calculate k s.vrecSeq = .error ⟨c.code, .final, channelNumber k, c.seq, 0⟩ := by
      rw [State.vrecSeq, calculate_of_accumulates hc hall, hchecks]
      exact runChecks_error hpasses hfails
    exact exec_calculate_error hl hm herror

end Sys2Proof.Machine
end

section
/-! # MEASURE: the first failing channel ends it (60_exceptions.md R118), and its commit holds the reading of each
selected channel, computed from that channel alone (41_calculator.md R102, R103, R106). -/

namespace Sys2Proof.Machine

/-! ## The outcome of a queued command, read off ERR -/

/-- A queued command that leaves ERR set raised an error (R108, R116). -/
theorem queuedCommand_of_err {i : Instr} {s t : State} (hi : i.immediate = false) (hs : s.err = false)
    (h : exec i s = .next t) (ht : t.err = true) :
    ∃ e, queuedCommand i s = .error e ∧ t = s.failed e.code (e.info i.opcode) := by
  cases hq : queuedCommand i s with
  | error e => exact ⟨e, rfl, Host.Outcome.next.inj (h.symm.trans (exec_of_error hi hq))⟩
  | ok u =>
    cases h.symm.trans (exec_of_ok hi hq)
    have hu : u.err = s.err := by rw [queuedCommand_frame hi hq]
    simp [hu, hs] at ht

/-- A queued command that leaves ERR clear committed (R108). -/
theorem queuedCommand_of_not_err {i : Instr} {s t : State} (hi : i.immediate = false) (h : exec i s = .next t)
    (ht : t.err = false) : ∃ u, queuedCommand i s = .ok u ∧ t = { u with busy := false } := by
  cases hq : queuedCommand i s with
  | error e =>
    cases h.symm.trans (exec_of_error hi hq)
    simp at ht
  | ok u => exact ⟨u, rfl, Host.Outcome.next.inj (h.symm.trans (exec_of_ok hi hq))⟩

/-! ## Masks -/

theorem mask_ne_zero {mask : BitVec 6} {k : Channel} (h : mask.getLsbD k.val = true) : mask ≠ 0 := by
  rintro rfl
  simp at h

theorem maskChannels_nodup (mask : BitVec 6) : (maskChannels mask).Nodup :=
  (maskChannels_sorted mask).imp fun h => h.ne

/-- The selected channels before a selected channel `k` are those below it (R76, R102). -/
theorem maskChannels_split {mask : BitVec 6} {k : Channel} (h : mask.getLsbD k.val = true) :
    ∃ js ks, maskChannels mask = js ++ k :: ks ∧ ∀ j ∈ js, j < k ∧ mask.getLsbD j.val = true := by
  obtain ⟨js, ks, hsplit⟩ := List.append_of_mem (mem_maskChannels.2 h)
  have hsorted := maskChannels_sorted mask
  rw [hsplit, List.pairwise_append] at hsorted
  obtain ⟨-, -, hlt⟩ := hsorted
  refine ⟨js, ks, hsplit, fun j hj => ⟨hlt j hj k List.mem_cons_self, mem_maskChannels.1 ?_⟩⟩
  rw [hsplit]
  exact List.mem_append_left _ hj

/-- A rising list begins with its least element. -/
theorem head?_of_least {L : List Channel} {k : Channel} (hL : L.Pairwise (· < ·)) (hk : k ∈ L)
    (hleast : ∀ j ∈ L, k ≤ j) : L.head? = some k := by
  cases L with
  | nil => cases hk
  | cons a L =>
    rcases List.mem_cons.1 hk with rfl | hk
    · rfl
    · have hlt := List.rel_of_pairwise_cons hL hk
      exact absurd (hleast a List.mem_cons_self) (not_le.2 hlt)

/-- A rising list ends with its greatest element. -/
theorem getLast?_of_greatest {L : List Channel} {k : Channel} (hL : L.Pairwise (· < ·)) (hk : k ∈ L)
    (hgreatest : ∀ j ∈ L, j ≤ k) : L.getLast? = some k := by
  obtain ⟨L, a, rfl⟩ := L.eq_nil_or_concat.resolve_left (List.ne_nil_of_mem hk)
  rw [List.concat_eq_append] at hL hk hgreatest ⊢
  rcases List.mem_append.1 hk with hmem | hmem
  · have hlt := (List.pairwise_append.1 hL).2.2 k hmem a (List.mem_singleton_self a)
    exact absurd (hgreatest a (by simp)) (not_le.2 hlt)
  · rw [List.mem_singleton.1 hmem, List.getLast?_concat]

/-! ## The command -/

theorem measureCommand_of_not_legal {mask : BitVec 6} {s : State} (hm : mask ≠ 0) (h : ¬ s.legalBatch) :
    measureCommand mask s = .error ⟨.len, .validation, 0, .none, 0⟩ := by
  simp only [measureCommand, needMask_of_ne hm, needLength_error h, except_ok_bind, except_error_bind]

/-- The first selected channel that fails gives MEASURE its error (R102, R118). -/
theorem measureCommand_first_error {s : State} {mask : BitVec 6} {k : Channel} {e : CmdError} (hl : s.legalBatch)
    (hbit : mask.getLsbD k.val = true) (hk : s.measureChannel k = .error e)
    (hbelow : ∀ j : Channel, j < k → mask.getLsbD j.val = true → ∃ r, s.measureChannel j = .ok r) :
    measureCommand mask s = .error e := by
  obtain ⟨js, ks, hsplit, hjs⟩ := maskChannels_split hbit
  rw [measureCommand_legal (mask_ne_zero hbit) hl, hsplit,
    measureAll_error (fun j hj => hbelow j (hjs j hj).1 (hjs j hj).2) hk]

/-- MEASURE of one channel of a legal batch raises exactly what the channel raises (R102). -/
theorem measureCommand_single_eq_error {s : State} {k : Channel} {e : CmdError} (hl : s.legalBatch) :
    measureCommand (1#6 <<< k.val) s = .error e ↔ s.measureChannel k = .error e := by
  rw [measureCommand_single k hl]
  cases s.measureChannel k <;> simp [Except.map]

/-- A MEASURE that commits is of a legal batch (R102). -/
theorem legalBatch_of_measureCommand {s t : State} {mask : BitVec 6} (h : measureCommand mask s = .ok t) :
    s.legalBatch := by
  obtain ⟨rs, -, hl, -⟩ := measureCommand_eq_ok.1 h
  exact hl

/-- MEASURE of one channel that commits has that channel's reading (R102). -/
theorem measureChannel_of_single {s t : State} {k : Channel} (h : measureCommand (1#6 <<< k.val) s = .ok t) :
    ∃ r, s.measureChannel k = .ok r := by
  have hl := legalBatch_of_measureCommand h
  cases hr : s.measureChannel k with
  | ok r => exact ⟨r, rfl⟩
  | error e => cases ((measureCommand_single_eq_error hl).2 hr).symm.trans h

/-- The error of MEASURE of one channel is that of MEASURE of a mask in which every lower selected channel succeeds
(R102, R118). -/
theorem measureCommand_error_of_single {s : State} {mask : BitVec 6} {k : Channel} {e : CmdError}
    (hbit : mask.getLsbD k.val = true) (hk : measureCommand (1#6 <<< k.val) s = .error e)
    (hbelow : ∀ j : Channel, j < k → mask.getLsbD j.val = true → ∃ r, s.measureChannel j = .ok r) :
    measureCommand mask s = .error e := by
  by_cases hl : s.legalBatch
  · exact measureCommand_first_error hl hbit ((measureCommand_single_eq_error hl).1 hk) hbelow
  · rw [measureCommand_illegal k hl] at hk
    rw [measureCommand_of_not_legal (mask_ne_zero hbit) hl, hk]

/-- Settles O27: MEASURE's channels run in increasing order up to the first that fails. -/
theorem measureReportsTheFirstFailingChannel : Obligations.MeasureReportsTheFirstFailingChannel := by
  refine ⟨fun s mask k e hl hbit hk hbelow => ?_, fun s v mask k hs hbit hexec hv hbelow => ?_⟩
  · exact exec_of_error (i := .measure mask) rfl (measureCommand_first_error hl hbit hk hbelow)
  · obtain ⟨e, he, rfl⟩ := queuedCommand_of_err (i := .measure (1#6 <<< k.val)) rfl hs hexec hv
    refine exec_of_error (i := .measure mask) rfl (measureCommand_error_of_single hbit he fun j hj hjbit => ?_)
    obtain ⟨u, hu, hclear⟩ := hbelow j hj hjbit
    obtain ⟨c, hc, -⟩ := queuedCommand_of_not_err (i := .measure (1#6 <<< j.val)) rfl hu hclear
    exact measureChannel_of_single hc

/-! ## The commit -/

/-- RESULT[k] after the commit: the reading of a computed channel, the old value of another (R102). -/
theorem getElem_results_of_measureAll {s : State} {ks : List Channel} {rs : List (Channel × Reading × Debug)}
    (hrs : s.measureAll ks = .ok rs) (hnodup : ks.Nodup) (v : Vector Reading 6) (k : Channel) :
    (k ∈ ks → ∃ r, s.measureChannel k = .ok r ∧ (storeReadings rs v)[k] = r.1) ∧
      (k ∉ ks → (storeReadings rs v)[k] = v[k]) := by
  obtain ⟨rfl, hread⟩ := measureAll_eq_ok hrs
  have hstore := getElem_storeReadings rs v k hnodup
  cases hfind : rs.find? fun r => decide (r.1 = k) with
  | none =>
    rw [hfind] at hstore
    refine ⟨fun hk => ?_, fun _ => hstore⟩
    obtain ⟨r, hr, hrk⟩ := List.mem_map.1 hk
    simpa [hrk] using List.find?_eq_none.1 hfind r hr
  | some r =>
    have hr := List.mem_of_find?_eq_some hfind
    have hrk : r.1 = k := by simpa using List.find?_some hfind
    rw [hfind] at hstore
    exact ⟨fun _ => ⟨r.2, hrk ▸ hread r hr, hstore⟩, fun hk => absurd (List.mem_map.2 ⟨r, hr, hrk⟩) hk⟩

/-- Settles O39: a MEASURE that commits has read each selected channel's own reading, and so has MEASURE of it alone. -/
theorem measuredChannelsAreIndependent : Obligations.MeasuredChannelsAreIndependent := by
  intro s t mask k hs hbit hexec ht
  obtain ⟨u, hu, rfl⟩ := queuedCommand_of_not_err (i := .measure mask) rfl hexec ht
  obtain ⟨rs, -, hl, hrs, rfl⟩ := measureCommand_eq_ok.1 hu
  obtain ⟨r, hr, hresult⟩ := (getElem_results_of_measureAll hrs (maskChannels_nodup mask) s.results k).1
    (mem_maskChannels.2 hbit)
  have hsingle := measureCommand_single k hl
  rw [hr] at hsingle
  refine ⟨_, exec_of_ok (i := .measure (1#6 <<< k.val)) rfl hsingle, hs, ?_⟩
  have hself := getElem_set_result s.results r.1 k k
  rw [if_pos rfl] at hself
  exact hself.trans hresult.symm

/-- One channel of MEASURE in which no check fails answers the reading of the formulas over its own reconstruction
(R102). -/
theorem measureChannel_of_calculable {s : State} {k : Channel} {W : Nat → Word} (hl : s.legalBatch)
    (hr : s.reconstructible k W) (hc : s.calculable k W) : s.measureChannel k = .ok (s.readingOf k W) := by
  rw [measureChannel_of_ok (reconstruct_ok hl hr)]
  exact calculate_samples_eq_ok.2 ⟨hc, rfl⟩

/-- Settles O38: the readings committed are those of the selected channels in increasing order. -/
theorem measureCommitsAllReadings : Obligations.MeasureCommitsAllReadings := by
  intro s mask W kmin kmax hl hall hmin hleast hmax hgreatest
  have hchannel : ∀ k ∈ maskChannels mask, s.measureChannel k = .ok (s.readingOf k (W k)) := fun k hk => by
    obtain ⟨hr, hc⟩ := hall k (mem_maskChannels.1 hk)
    exact measureChannel_of_calculable hl hr hc
  have hrs := measureAll_ok hchannel
  have hcommand := measureCommand_legal (mask_ne_zero hmin) hl
  rw [hrs] at hcommand
  have hhead := head?_of_least (maskChannels_sorted mask) (mem_maskChannels.2 hmin)
    fun j hj => hleast j (mem_maskChannels.1 hj)
  have hlast := getLast?_of_greatest (maskChannels_sorted mask) (mem_maskChannels.2 hmax)
    fun j hj => hgreatest j (mem_maskChannels.1 hj)
  refine ⟨_, exec_of_ok (i := .measure mask) rfl hcommand, fun k => ?_, rfl, ?_, ?_, ?_, rfl, rfl, rfl,
    fun _ => rfl, rfl⟩
  · obtain ⟨hmem, hnot⟩ := getElem_results_of_measureAll hrs (maskChannels_nodup mask) s.results k
    split
    case isTrue hbit =>
      have hk := mem_maskChannels.2 hbit
      obtain ⟨r, hr, hresult⟩ := hmem hk
      cases hr.symm.trans (hchannel k hk)
      exact hresult
    case isFalse hbit => exact hnot fun hk => hbit (mem_maskChannels.1 hk)
  · simp [hhead]
  · simp [hlast]
  · simp [hlast, State.readingOf]

end Sys2Proof.Machine
end

section
/-! # Exact sums: `f64` and the sums, products and quotients of integers below `2^53` are exact, so the accumulators of
the codes are the integer sums (41_calculator.md R93, R104). -/

namespace Sys2Proof.Machine

/-- Settles O47: an integer below `2^53` is a significand in some binade. -/
theorem integerConversionIsExact : Obligations.IntegerConversionIsExact := by
  intro n hn
  refine ⟨isFinite_f64 hn, ?_⟩
  rw [fVal_f64 hn, fUnit, Nat.cast_pow, Nat.cast_ofNat]

theorem f64_zero : f64 0 = 0 := by
  rw [f64, Nat.zero_mul, roundNearest_zero]
  rfl

theorem fMag_f64 {n : Nat} (h : n < 2 ^ 53) : fMag (f64 n) = n * fUnit := fMag_signedInteger false h

theorem isZero_f64 {n : Nat} (h : n < 2 ^ 53) (h0 : 0 < n) : isZero (f64 n) = false := by
  rw [Bool.eq_false_iff, Ne, isZero_iff_fMag, fMag_f64 h]
  exact (Nat.mul_pos h0 fUnit_pos).ne'

/-! ## Operations on integers -/

/-- A sum of integers below `2^53` is exact (R104). -/
theorem fadd_f64 {a b : Nat} (h : a + b < 2 ^ 53) : fadd (f64 a) (f64 b) = f64 (a + b) := by
  have ha : a < 2 ^ 53 := by omega
  have hb : b < 2 ^ 53 := by omega
  have hsum : fVal (f64 a) + fVal (f64 b) = (((a + b) * fUnit : Nat) : Int) := by
    rw [fVal_f64 ha, fVal_f64 hb, Nat.cast_mul, Nat.cast_add, add_mul]
  rw [fadd_finite (isFinite_f64 ha) (isFinite_f64 hb), hsum, fSign_f64 ha, Bool.false_and, decide_eq_false (by omega),
    Int.natAbs_natCast]
  split
  · rw [f64, show (a + b) * fUnit = 0 by omega, roundNearest_zero]
  · rfl

/-- A product of integers below `2^53` is exact (R104). -/
theorem fmul_f64 {a b : Nat} (ha : a < 2 ^ 53) (hb : b < 2 ^ 53) : fmul (f64 a) (f64 b) = f64 (a * b) := by
  have hround := roundNearest_mul_right false (a * b * fUnit) 1 fUnit_pos
  rw [Nat.one_mul] at hround
  rw [fmul_finite (isFinite_f64 ha) (isFinite_f64 hb), fSign_f64 ha, fSign_f64 hb, fMag_f64 ha, fMag_f64 hb,
    show a * fUnit * (b * fUnit) = a * b * fUnit * fUnit by ring, f64, ← hround]
  rfl

/-- The quotient of two integers below `2^53`, with its one rounding still to come. -/
theorem fdiv_f64 {a n : Nat} (ha : a < 2 ^ 53) (hn : n < 2 ^ 53) (h0 : 0 < n) :
    fdiv (f64 a) (f64 n) = roundNearest false (a * fUnit) n := by
  rw [fdiv_finite (isFinite_f64 ha) (isFinite_f64 hn) (isZero_f64 hn h0), fSign_f64 ha, fSign_f64 hn, fMag_f64 ha,
    fMag_f64 hn, roundNearest_mul_right _ _ _ fUnit_pos]
  rfl

/-- A quotient of integers that is an integer is exact. -/
theorem fdiv_f64_mul {a n : Nat} (h : n * a < 2 ^ 53) (hn : n < 2 ^ 53) (h0 : 0 < n) :
    fdiv (f64 (n * a)) (f64 n) = f64 a := by
  have hround := roundNearest_mul_right false (a * fUnit) 1 h0
  rw [Nat.one_mul] at hround
  rw [fdiv_f64 h hn h0, show n * a * fUnit = a * fUnit * n by ring, hround, f64]

/-- An integer less itself is `+0.0`. -/
theorem fsub_f64_self {a : Nat} (h : a < 2 ^ 53) : fsub (f64 a) (f64 a) = 0 := by
  rw [fsub_f64 h h, sub_self, decide_eq_false (lt_irrefl a), Int.natAbs_zero, ← f64_eq_signedInteger, f64_zero]

/-! ## Sums -/

theorem foldl_fadd_f64 (cs : List Nat) (m : Nat) (h : m + cs.sum < 2 ^ 53) :
    (cs.map f64).foldl fadd (f64 m) = f64 (m + cs.sum) := by
  induction cs generalizing m with
  | nil => rfl
  | cons c cs ih =>
    rw [List.sum_cons] at h ⊢
    rw [List.map_cons, List.foldl_cons, fadd_f64 (by omega), ih _ (by omega), Nat.add_assoc]

/-- A sum of integers from +0.0 is exact while it is below `2^53` (R104). -/
theorem foldl_fadd_integers {cs : List Nat} (h : cs.sum < 2 ^ 53) : (cs.map f64).foldl fadd 0 = f64 cs.sum := by
  have hsum := foldl_fadd_f64 cs 0 (by omega)
  rwa [f64_zero, Nat.zero_add] at hsum

theorem iramSeq_length (s : State) (k : Channel) : (s.iramSeq k).length = s.batch := by simp [State.iramSeq]

/-- A sum of `N` terms of at most 32 bits is below `2^53` (R104). -/
theorem sum_iramSeq_lt {s : State} {k : Channel} (hl : s.batch ≤ 4096) {f : Code → Nat} (hf : ∀ x, f x < 2 ^ 32) :
    ((s.iramSeq k).map f).sum < 2 ^ 53 := by
  have hsum := List.sum_le_card_nsmul ((s.iramSeq k).map f) (2 ^ 32) fun y hy => by
    obtain ⟨x, -, rfl⟩ := List.mem_map.1 hy
    exact (hf x).le
  rw [List.length_map, iramSeq_length, smul_eq_mul] at hsum
  omega

theorem toNat_code_lt32 (a : Code) : a.toNat < 2 ^ 32 := a.isLt.trans (by decide)

theorem code_mul_lt (a b : Code) : a.toNat * b.toNat < 2 ^ 32 :=
  calc a.toNat * b.toNat < 2 ^ 16 * 2 ^ 16 := Nat.mul_lt_mul'' a.isLt b.isLt
    _ = 2 ^ 32 := rfl

/-- A product of codes is exact (R104). -/
theorem fmul_codes (a b : Code) : fmul (f64 a.toNat) (f64 b.toNat) = f64 (a.toNat * b.toNat) :=
  fmul_f64 (toNat_code_lt a) (toNat_code_lt b)

/-- The fold of the codes is their integer sum (R104). -/
theorem foldl_codes {s : State} (k : Channel) (hl : s.batch ≤ 4096) :
    ((s.iramSeq k).map fun x => f64 x.toNat).foldl fadd 0 = f64 ((s.iramSeq k).map fun x => x.toNat).sum := by
  rw [← foldl_fadd_integers (sum_iramSeq_lt hl toNat_code_lt32), List.map_map]
  rfl

/-- The fold of the squares of the codes is their integer sum (R104). -/
theorem foldl_squares {s : State} (k : Channel) (hl : s.batch ≤ 4096) :
    ((s.iramSeq k).map fun x => fmul (f64 x.toNat) (f64 x.toNat)).foldl fadd 0 =
      f64 ((s.iramSeq k).map fun x => x.toNat * x.toNat).sum := by
  have hsquare : (fun x : Code => fmul (f64 x.toNat) (f64 x.toNat)) = f64 ∘ fun x => x.toNat * x.toNat :=
    funext fun x => fmul_codes x x
  rw [← foldl_fadd_integers (sum_iramSeq_lt hl fun x => code_mul_lt x x), List.map_map, hsquare]

/-- SI and SII are the integer sums of the codes and of their squares, whatever the voltages (R93, R104). -/
theorem sumsTo_codes {s : State} (k : Channel) (W : Nat → Word) (hl : s.batch ≤ 4096) :
    (s.sumsTo k W s.batch).si = f64 ((s.iramSeq k).map fun x => x.toNat).sum ∧
      (s.sumsTo k W s.batch).sii = f64 ((s.iramSeq k).map fun x => x.toNat * x.toNat).sum := by
  rw [sumsTo_eq_foldl, ← foldl_codes k hl, ← foldl_squares k hl]
  constructor <;> rw [iramSeq_map]

/-- Settles O48: every partial sum is an integer below `2^53`. -/
theorem codeSumsAreExact : Obligations.CodeSumsAreExact := by
  intro s k ws t hl hlen h
  obtain ⟨W, rfl⟩ := exists_eq_map_range hlen
  obtain ⟨-, rfl⟩ := pass_eq_ok.1 h
  exact sumsTo_codes k W hl.2

end Sys2Proof.Machine
end

section
/-! # Signs: the sign of a product and of a square root, and that an RMS value is negative only where its scale factor
is (41_calculator.md R96, R97, R99). -/

namespace Sys2Proof.Machine

theorem isFinite_eq (x : Word) : isFinite x = !(isNaN x || isInf x) := by
  unfold isFinite isNaN isInf bne
  cases fExp x == 2047 <;> cases fFrac x == 0 <;> rfl

/-- A finite product has finite factors (R10). -/
theorem isFinite_of_fmul {x y : Word} (h : isFinite (fmul x y) = true) : isFinite x = true ∧ isFinite y = true := by
  unfold fmul at h
  dsimp only at h
  split_ifs at h with hnan hinf hzero
  · simp at h
  · simp at h
  · simp [isFinite_infinity] at h
  · simp only [Bool.or_eq_true, not_or, Bool.not_eq_true] at hnan hinf
    simp [isFinite_eq, hnan, hinf]

/-- A finite square root has a finite operand (R10). -/
theorem isFinite_of_fsqrt {x : Word} (h : isFinite (fsqrt x) = true) : isFinite x = true := by
  unfold fsqrt at h
  split_ifs at h with hnan hzero hsign hinf
  · simp at h
  · exact h
  · simp at h
  · exact h
  · simp only [Bool.not_eq_true] at hnan hinf
    simp [isFinite_eq, hnan, hinf]

theorem fSign_roundNearest (neg : Bool) (a b : Nat) : fSign (roundNearest neg a b) = neg :=
  fSign_packSign neg ((roundMagnitude_le a b).trans_lt (by decide))

/-- A finite value is negative exactly when its sign bit is set and it is no zero (R14). -/
theorem isNegative_iff {x : Word} (hx : isFinite x = true) :
    isNegative x = true ↔ fSign x = true ∧ isZero x = false := by
  simp [isNegative, isNaN_of_isFinite hx]

theorem fmul_comm {x y : Word} (hx : isFinite x = true) (hy : isFinite y = true) : fmul x y = fmul y x := by
  rw [fmul_finite hx hy, fmul_finite hy hx, Nat.mul_comm, bne_comm]

/-- A negative product has factors of different signs, neither of them zero (R10). -/
theorem signs_of_isNegative_fmul {x y : Word} (hfin : isFinite (fmul x y) = true) (h : isNegative (fmul x y) = true) :
    isZero x = false ∧ isZero y = false ∧ fSign x ≠ fSign y := by
  obtain ⟨hx, hy⟩ := isFinite_of_fmul hfin
  obtain ⟨hsign, hzero⟩ := (isNegative_iff hfin).1 h
  refine ⟨?_, ?_, ?_⟩
  · by_contra h0
    simp [isZero_fmul (Bool.not_eq_false _ ▸ h0) hy] at hzero
  · by_contra h0
    simp [fmul_comm hx hy, isZero_fmul (Bool.not_eq_false _ ▸ h0) hx] at hzero
  · rw [fmul_finite hx hy, fSign_roundNearest] at hsign
    exact bne_iff_ne.1 hsign

/-- The root of a value that is not below zero has no sign, or is a zero (R10). -/
theorem fSign_fsqrt {x : Word} (hfin : isFinite (fsqrt x) = true) (h : isNegative x = false)
    (hzero : isZero (fsqrt x) = false) : fSign (fsqrt x) = false := by
  have hx := isFinite_of_fsqrt hfin
  rcases Bool.eq_false_or_eq_true (isZero x) with hx0 | hx0
  · simp [fsqrt, isNaN_of_isFinite hx, hx0] at hzero
  · have hsign : fSign x = false := by
      by_contra hs
      simp [(isNegative_iff hx).2 ⟨Bool.not_eq_false _ ▸ hs, hx0⟩] at h
    simp only [fsqrt, isNaN_of_isFinite hx, hx0, hsign, isInf_of_isFinite hx, Bool.false_eq_true, if_false]
    exact fSign_roundNearest false _ _

/-- The root of a radicand that is not below zero, scaled, is negative only where the scale is (R99). -/
theorem isNegative_scale {x scale : Word} (hfin : isFinite (fmul (fsqrt x) scale) = true) (h : isNegative x = false)
    (hneg : isNegative (fmul (fsqrt x) scale) = true) : isNegative scale = true := by
  obtain ⟨hroot, hscale⟩ := isFinite_of_fmul hfin
  obtain ⟨hroot0, hscale0, hsigns⟩ := signs_of_isNegative_fmul hfin hneg
  rw [fSign_fsqrt hroot h hroot0] at hsigns
  exact (isNegative_iff hscale).2 ⟨Bool.eq_true_of_not_eq_false hsigns.symm, hscale0⟩

/-- Settles O37: each RMS value is the root of a radicand that passed its check, times its scale. -/
theorem rmsSignsComeFromTheScales : Obligations.RmsSignsComeFromTheScales := by
  intro s k ws r d cs vs hscale h
  obtain ⟨f, t, hf, -, hfinal⟩ := calculate_eq_ok.1 h
  cases hscale.symm.trans hf
  obtain ⟨⟨-, hfinI, hfinV, -⟩, hradI, hradV, -, -, hrmsI, hrmsV, -⟩ := finalStage_eq_ok hfinal
  rw [hrmsI] at hfinI
  rw [hrmsV] at hfinV
  exact ⟨fun hneg => isNegative_scale hfinI hradI (hrmsI ▸ hneg),
    fun hneg => isNegative_scale hfinV hradV (hrmsV ▸ hneg)⟩

end Sys2Proof.Machine
end

section
/-! # Flat signals: the sums of a flat sequence, its zero radicand, and the readings with power factor +0.0 that follow
(41_calculator.md R93 to R98, R101; 60_exceptions.md R122). -/

namespace Sys2Proof.Machine

/-! ## Sums of a flat sequence -/

/-- The sum of `n` equal integers (R93, R104). -/
theorem foldl_flat {F : Nat → Word} {n c : Nat} (hF : ∀ i, i < n → F i = f64 c) (h : n * c < 2 ^ 53) :
    ((List.range n).map F).foldl fadd 0 = f64 (n * c) := by
  have hsum : (List.replicate n c).sum = n * c := by rw [List.sum_replicate, smul_eq_mul]
  have hmap : (List.range n).map F = (List.replicate n c).map f64 := by
    rw [List.map_replicate, List.eq_replicate_iff]
    simpa using hF
  rw [hmap, foldl_fadd_integers (by rwa [hsum]), hsum]

/-- A batch sum of a code, or of a product of two codes, is below `2^53` (R104). -/
theorem batch_mul_lt {n c : Nat} (hn : n ≤ 4096) (hc : c < 2 ^ 32) : n * c < 2 ^ 53 :=
  calc n * c ≤ 4096 * 2 ^ 32 := Nat.mul_le_mul hn hc.le
    _ < 2 ^ 53 := by decide

/-- The sums of the codes and of their squares before index `n` of a flat current (R93). -/
theorem sumsTo_flatCurrent {s : State} {k : Channel} {a : Code} {n : Nat} (W : Nat → Word) (hn : n ≤ 4096)
    (ha : ∀ i, i < n → s.iram k i = a) :
    (s.sumsTo k W n).si = f64 (n * a.toNat) ∧ (s.sumsTo k W n).sii = f64 (n * (a.toNat * a.toNat)) := by
  rw [sumsTo_eq_foldl]
  exact ⟨foldl_flat (fun i hi => by rw [ha i hi]) (batch_mul_lt hn (toNat_code_lt32 a)),
    foldl_flat (fun i hi => by rw [ha i hi, fmul_codes]) (batch_mul_lt hn (code_mul_lt a a))⟩

/-- The sums of the voltages and of their squares before index `n` of a flat voltage (R93). -/
theorem sumsTo_flatVoltage (s : State) (k : Channel) {W : Nat → Word} {b : Code} {n : Nat} (hn : n ≤ 4096)
    (hb : ∀ i, i < n → W i = f64 b.toNat) :
    (s.sumsTo k W n).sv = f64 (n * b.toNat) ∧ (s.sumsTo k W n).svv = f64 (n * (b.toNat * b.toNat)) := by
  rw [sumsTo_eq_foldl]
  exact ⟨foldl_flat hb (batch_mul_lt hn (toNat_code_lt32 b)),
    foldl_flat (fun i hi => by rw [hb i hi, fmul_codes]) (batch_mul_lt hn (code_mul_lt b b))⟩

/-- The sum of the products before index `n` of a flat current and a flat voltage (R93). -/
theorem sumsTo_flat_sp {s : State} {k : Channel} {W : Nat → Word} {a b : Code} {n : Nat} (hn : n ≤ 4096)
    (ha : ∀ i, i < n → s.iram k i = a) (hb : ∀ i, i < n → W i = f64 b.toNat) :
    (s.sumsTo k W n).sp = f64 (n * (a.toNat * b.toNat)) := by
  rw [sumsTo_eq_foldl]
  exact foldl_flat (fun i hi => by rw [ha i hi, hb i hi, fmul_codes]) (batch_mul_lt hn (code_mul_lt a b))

/-! ## Means and radicands -/

/-- The mean of a flat sequence is its value (R94). -/
theorem mean_flat {n c : Nat} (hn : 0 < n) (hn' : n ≤ 4096) (hc : c < 2 ^ 32) : fdiv (f64 (n * c)) (f64 n) = f64 c :=
  fdiv_f64_mul (batch_mul_lt hn' hc) (by omega) hn

/-- The radicand of a flat current is +0.0 (R96, R98). -/
theorem radicandI_flat {s : State} {k : Channel} {W : Nat → Word} {a : Code} (hl : s.legalBatch)
    (ha : ∀ i, i < s.batch → s.iram k i = a) : s.radicandI k W = 0 := by
  obtain ⟨hsi, hsii⟩ := sumsTo_flatCurrent W hl.2 ha
  have hn : 0 < s.batch := by have := hl.1; omega
  have hproduct := code_mul_lt a a
  simp only [State.radicandI, hsi, hsii, mean_flat hn hl.2 (toNat_code_lt32 a), mean_flat hn hl.2 hproduct, fmul_codes]
  exact fsub_f64_self (by omega)

/-- The radicand of a flat voltage is +0.0 (R97, R98). -/
theorem radicandV_flat {s : State} {k : Channel} {W : Nat → Word} {b : Code} (hl : s.legalBatch)
    (hb : ∀ i, i < s.batch → W i = f64 b.toNat) : s.radicandV k W = 0 := by
  obtain ⟨hsv, hsvv⟩ := sumsTo_flatVoltage s k hl.2 hb
  have hn : 0 < s.batch := by have := hl.1; omega
  have hproduct := code_mul_lt b b
  simp only [State.radicandV, hsv, hsvv, mean_flat hn hl.2 (toNat_code_lt32 b), mean_flat hn hl.2 hproduct, fmul_codes]
  exact fsub_f64_self (by omega)

/-! ## RMS values, apparent power and power factor -/

theorem isZero_zero : isZero 0 = true := by decide

theorem fsqrt_zero : fsqrt 0 = 0 := by decide

/-- The scale factors of a legal configuration are finite (R92). -/
theorem isFinite_scales {s : State} {k : Channel} (h : s.configLegal k) :
    isFinite (s.currentScale k) = true ∧ isFinite s.voltageScale = true := by
  obtain ⟨-, -, -, hresults⟩ := h
  have hall := List.all_eq_true.1 hresults
  exact ⟨hall _ (List.mem_of_getElem? (i := 2) rfl), hall _ (List.mem_of_getElem? (i := 6) rfl)⟩

/-- A zero radicand gives a zero RMS value (R96, R97). -/
theorem isZero_rms {x scale : Word} (hx : x = 0) (hscale : isFinite scale = true) :
    isZero (fmul (fsqrt x) scale) = true := by
  rw [hx, fsqrt_zero]
  exact isZero_fmul isZero_zero hscale

/-- A zero apparent power gives the power factor +0.0 (R98). -/
theorem powerFactor_of_isZero {s : State} {k : Channel} {W : Nat → Word}
    (h : isZero (s.readingOf k W).2.app = true) : (s.readingOf k W).1.powerFactor = 0 := if_pos h

/-- The last check is the one on the power factor (R98, R100). -/
theorem finalChecks_eq (s : State) (k : Channel) (W : Nat → Word) :
    s.finalChecks k W = (s.finalChecks k W).dropLast ++ [.finite (s.readingOf k W).1.powerFactor] := rfl

/-- A zero RMS value makes the apparent power a zero; the other one has passed its check (R98). -/
theorem isZero_app {s : State} {k : Channel} {W : Nat → Word}
    (hpass : ∀ c ∈ (s.finalChecks k W).dropLast, c.passes = true)
    (h : isZero (s.readingOf k W).1.rmsCurrent = true ∨ isZero (s.readingOf k W).1.rmsVoltage = true) :
    isZero (s.readingOf k W).2.app = true := by
  have hcurrent : isFinite (s.readingOf k W).1.rmsCurrent = true :=
    hpass (.finite (s.readingOf k W).1.rmsCurrent) (List.mem_of_getElem? (i := 13) rfl)
  have hvoltage : isFinite (s.readingOf k W).1.rmsVoltage = true :=
    hpass (.finite (s.readingOf k W).1.rmsVoltage) (List.mem_of_getElem? (i := 18) rfl)
  have happ : (s.readingOf k W).2.app = fmul (s.readingOf k W).1.rmsVoltage (s.readingOf k W).1.rmsCurrent := rfl
  rw [happ]
  rcases h with h | h
  · rw [fmul_comm hvoltage hcurrent]
    exact isZero_fmul h hvoltage
  · exact isZero_fmul h hcurrent

/-! ## The command -/

/-- CALC with a zero RMS value completes with the power factor +0.0, no check before the one on it failing (R98,
R122). -/
theorem exec_calculate_of_zero_rms {s : State} {k : Channel} (hl : s.legalBatch) (hm : s.vrecTagged k)
    (hc : s.configLegal k) (ha : ∀ i, i < s.batch → s.accumulatesAt k s.vrec i)
    (hpass : ∀ c ∈ (s.finalChecks k s.vrec).dropLast, c.passes = true)
    (h : isZero (s.readingOf k s.vrec).1.rmsCurrent = true ∨ isZero (s.readingOf k s.vrec).1.rmsVoltage = true) :
    ∃ t, exec (.calculate (k.val + 1)) s = .next t ∧ t.done = true ∧ t.err = s.err ∧
      t.results[k] = (s.readingOf k s.vrec).1 ∧ t.dbg = (s.readingOf k s.vrec).2 ∧
      (s.readingOf k s.vrec).1.powerFactor = 0 ∧ isZero (s.readingOf k s.vrec).2.app = true := by
  have happ := isZero_app hpass h
  have hpf := powerFactor_of_isZero happ
  have hall : ∀ c ∈ s.finalChecks k s.vrec, c.passes = true := fun c hmem => by
    rw [finalChecks_eq] at hmem
    rcases List.mem_append.1 hmem with hmem | hmem
    · exact hpass c hmem
    · rw [List.mem_singleton.1 hmem, hpf]
      decide
  obtain ⟨t, hexec, hresults, -, hdbg, -, -, hdone, -, -, hframe⟩ :=
    calcCommitsTheReading s k _ _ hl hm ⟨hc, ha, hall⟩ rfl
  have hself := hresults k
  rw [if_pos rfl] at hself
  exact ⟨t, hexec, hdone, by rw [hframe], hself, hdbg, hpf, happ⟩

/-- No check of the pass fails over a flat current of a legal code and a flat voltage (R93). -/
theorem accumulatesAt_flat {s : State} {k : Channel} {W : Nat → Word} {a b : Code} (hl : s.legalBatch)
    (hcode : a.toNat < s.adcRes.toNat) (ha : ∀ i, i < s.batch → s.iram k i = a)
    (hb : ∀ i, i < s.batch → W i = f64 b.toNat) {i : Nat} (hi : i < s.batch) : s.accumulatesAt k W i := by
  have hn : i + 1 ≤ 4096 := by have := hl.2; omega
  have ha' : ∀ j, j < i + 1 → s.iram k j = a := fun j hj => ha j (by omega)
  have hb' : ∀ j, j < i + 1 → W j = f64 b.toNat := fun j hj => hb j (by omega)
  obtain ⟨hsi, hsii⟩ := sumsTo_flatCurrent W hn ha'
  obtain ⟨hsv, hsvv⟩ := sumsTo_flatVoltage s k hn hb'
  have hsp := sumsTo_flat_sp hn ha' hb'
  have hfinite : ∀ c : Nat, c < 2 ^ 32 → isFinite (f64 c) = true ∧ isFinite (f64 ((i + 1) * c)) = true :=
    fun c hc => ⟨isFinite_f64 (by omega), isFinite_f64 (batch_mul_lt hn hc)⟩
  refine ⟨by rwa [ha i hi], ?_⟩
  simp only [State.passResults, hsi, hsii, hsv, hsvv, hsp, ha i hi, hb i hi, fmul_codes, List.all_cons, List.all_nil,
    hfinite _ (toNat_code_lt32 a), hfinite _ (toNat_code_lt32 b), hfinite _ (code_mul_lt a a),
    hfinite _ (code_mul_lt b b), hfinite _ (code_mul_lt a b), Bool.and_self]

/-- The core of a flat current and a flat voltage is +0.0 (R94, R95). -/
theorem core_flat {s : State} {k : Channel} {W : Nat → Word} {a b : Code} (hl : s.legalBatch)
    (ha : ∀ i, i < s.batch → s.iram k i = a) (hb : ∀ i, i < s.batch → W i = f64 b.toNat) :
    (s.readingOf k W).2.core = 0 := by
  have hn : 0 < s.batch := by have := hl.1; omega
  have hproduct := code_mul_lt a b
  simp only [State.readingOf, (sumsTo_flatCurrent W hl.2 ha).1, (sumsTo_flatVoltage s k hl.2 hb).1,
    sumsTo_flat_sp hl.2 ha hb, mean_flat hn hl.2 (toNat_code_lt32 a), mean_flat hn hl.2 (toNat_code_lt32 b),
    mean_flat hn hl.2 hproduct, fmul_codes]
  exact fsub_f64_self (by omega)

/-- No check of the final stage before the one on the power factor fails over a flat current and a flat voltage: the
means and their products are integers, and every later result is a zero (R94 to R98, R100). -/
theorem finalChecks_flat {s : State} {k : Channel} {W : Nat → Word} {a b : Code} (hl : s.legalBatch)
    (hc : s.configLegal k) (ha : ∀ i, i < s.batch → s.iram k i = a) (hb : ∀ i, i < s.batch → W i = f64 b.toNat) :
    ∀ c ∈ (s.finalChecks k W).dropLast, c.passes = true := by
  have hn : 0 < s.batch := by have := hl.1; omega
  obtain ⟨hcs, hvs⟩ := isFinite_scales hc
  obtain ⟨hsi, hsii⟩ := sumsTo_flatCurrent W hl.2 ha
  obtain ⟨hsv, hsvv⟩ := sumsTo_flatVoltage s k hl.2 hb
  have hfinite : ∀ c : Nat, c < 2 ^ 32 → isFinite (f64 c) = true := fun c hc => isFinite_f64 (by omega)
  have hradI := radicandI_flat (W := W) hl ha
  have hradV := radicandV_flat (k := k) hl hb
  have hcore := core_flat hl ha hb
  have hcoreCs : isZero (fmul (s.readingOf k W).2.core (s.currentScale k)) = true := by
    rw [hcore]
    exact isZero_fmul isZero_zero hcs
  have hreal : isZero (s.readingOf k W).1.realPower = true := isZero_fmul hcoreCs hvs
  have hrmsI : isZero (s.readingOf k W).1.rmsCurrent = true := isZero_rms hradI hcs
  have hrmsV : isZero (s.readingOf k W).1.rmsVoltage = true := isZero_rms hradV hvs
  have happ : isZero (s.readingOf k W).2.app = true := isZero_fmul hrmsV (isFinite_of_isZero hrmsI)
  have hzero : isFinite 0 = true := isFinite_of_isZero isZero_zero
  have hnot : isNegative 0 = false := by decide
  simp only [State.finalChecks, List.dropLast, List.forall_mem_cons, List.not_mem_nil, false_imp_iff, implies_true,
    and_true, FinalCheck.passes_finite, FinalCheck.passes_radicand, hsi, hsii, hsv, hsvv, sumsTo_flat_sp hl.2 ha hb,
    mean_flat hn hl.2 (toNat_code_lt32 _), mean_flat hn hl.2 (code_mul_lt _ _), fmul_codes,
    hfinite _ (toNat_code_lt32 _), hfinite _ (code_mul_lt _ _), hradI, hradV, fsqrt_zero, hcore, hzero, hnot,
    Bool.not_false, true_and]
  rw [hcore] at hcoreCs
  exact ⟨isFinite_of_isZero hcoreCs, isFinite_of_isZero hreal, isFinite_of_isZero hrmsI, isFinite_of_isZero hrmsV,
    isFinite_of_isZero happ⟩

/-- Settles O36: a flat sequence has a zero radicand, hence a zero RMS value and a zero apparent power; with both flat
every other check passes too. -/
theorem flatSignalsGiveZeroPowerFactor : Obligations.FlatSignalsGiveZeroPowerFactor := by
  refine ⟨fun s k a b sf hl hm hscale hcode ha hb => ?_,
    fun s k hl hm hc hacc hpass => ⟨fun a ha => ?_, fun b hb => ?_⟩⟩
  · obtain ⟨hc, -⟩ := scaleFactors_iff.1 hscale
    obtain ⟨hcs, hvs⟩ := isFinite_scales hc
    have hrmsI : isZero (s.readingOf k s.vrec).1.rmsCurrent = true := isZero_rms (radicandI_flat hl ha) hcs
    have hrmsV : isZero (s.readingOf k s.vrec).1.rmsVoltage = true := isZero_rms (radicandV_flat hl hb) hvs
    obtain ⟨t, hexec, hdone, herr, hresult, hdbg, hpf, happ⟩ := exec_calculate_of_zero_rms hl hm hc
      (fun i hi => accumulatesAt_flat hl hcode ha hb hi) (finalChecks_flat hl hc ha hb) (.inl hrmsI)
    rw [← hresult] at hpf hrmsI hrmsV
    rw [← hdbg] at happ
    exact ⟨t, hexec, hdone, herr, hpf, hrmsI, hrmsV, happ, hdbg ▸ core_flat hl ha hb⟩
  · have hrms : isZero (s.readingOf k s.vrec).1.rmsCurrent = true :=
      isZero_rms (radicandI_flat hl ha) (isFinite_scales hc).1
    obtain ⟨t, hexec, hdone, herr, hresult, hdbg, hpf, happ⟩ :=
      exec_calculate_of_zero_rms hl hm hc hacc hpass (.inl hrms)
    rw [← hresult] at hpf hrms
    exact ⟨t, hexec, hdone, herr, hpf, hrms, hdbg ▸ happ⟩
  · have hrms : isZero (s.readingOf k s.vrec).1.rmsVoltage = true :=
      isZero_rms (radicandV_flat hl hb) (isFinite_scales hc).2
    obtain ⟨t, hexec, hdone, herr, hresult, hdbg, hpf, happ⟩ :=
      exec_calculate_of_zero_rms hl hm hc hacc hpass (.inr hrms)
    rw [← hresult] at hpf hrms
    exact ⟨t, hexec, hdone, herr, hpf, hrms, hdbg ▸ happ⟩

end Sys2Proof.Machine
end

section
/-! # The current radicand: rounding keeps order, the rounded mean is close enough to the mean, and so the rounded mean
square is not below the rounded square of the rounded mean (41_calculator.md R94, R96, R105). -/

namespace Sys2Proof.Machine

/-! ## Rounding keeps order -/

/-- Rounding to the nearest integer, ties to even, keeps the order of quotients. -/
theorem divNearestEven_mono {a b c d : Nat} (hb : 0 < b) (hd : 0 < d) (h : a * d ≤ c * b) :
    divNearestEven a b ≤ divNearestEven c d := by
  obtain ⟨-, hlow, -, hevenLow⟩ := divNearestEven_spec a hb
  obtain ⟨hhigh, -, hevenHigh, -⟩ := divNearestEven_spec c hd
  generalize divNearestEven a b = m at hlow hevenLow ⊢
  generalize divNearestEven c d = l at hhigh hevenHigh ⊢
  by_contra hlt
  obtain ⟨j, rfl⟩ : ∃ j, m = l + 1 + j := ⟨m - l - 1, by omega⟩
  have hlow' : (2 * (l + 1 + j) * b) * d ≤ (2 * a + b) * d := Nat.mul_le_mul_right d hlow
  have hhigh' : (2 * c) * b ≤ ((2 * l + 1) * d) * b := Nat.mul_le_mul_right b hhigh
  have hbd : 0 < b * d := Nat.mul_pos hb hd
  have hj : j = 0 := by
    by_contra hj
    have : 1 * (b * d) ≤ j * (b * d) := Nat.mul_le_mul_right _ (by omega)
    nlinarith
  subst hj
  have hup : 2 * (l + 1 + 0) * b = 2 * a + b := Nat.eq_of_mul_eq_mul_right hd (by nlinarith)
  have hdown : 2 * c = (2 * l + 1) * d := Nat.eq_of_mul_eq_mul_right hb (by nlinarith)
  have := hevenLow hup
  have := hevenHigh hdown
  omega

/-- The exponent of the unit in the last place that a quotient is rounded at, in units of 2^-1074. -/
def roundShift (a b : Nat) : Nat := (a / b).log2 - 52

/-- The quotient in such units, rounded. -/
def roundSignificand (a b : Nat) : Nat := divNearestEven a (b * 2 ^ roundShift a b)

theorem roundMagnitude_eq (a b : Nat) :
    roundMagnitude a b = min (roundShift a b * 2 ^ 52 + roundSignificand a b) infMagnitude := rfl

theorem le_divNearestEven (a b : Nat) : a / b ≤ divNearestEven a b := by
  unfold divNearestEven
  dsimp only
  split <;> omega

theorem roundSignificand_le (a b : Nat) : roundSignificand a b ≤ 2 ^ 53 := by
  have hround := divNearestEven_le a (b * 2 ^ roundShift a b)
  have hquot : a / (b * 2 ^ roundShift a b) < 2 ^ 53 := by
    rw [← Nat.div_div_eq_div_mul, Nat.div_lt_iff_lt_mul (Nat.two_pow_pos _), ← Nat.pow_add]
    exact Nat.lt_log2_self.trans_le (Nat.pow_le_pow_right (by omega) (by unfold roundShift; omega))
  exact hround.trans hquot

theorem le_roundSignificand {a b : Nat} (h : 0 < roundShift a b) : 2 ^ 52 ≤ roundSignificand a b := by
  refine le_trans ?_ (le_divNearestEven a (b * 2 ^ roundShift a b))
  unfold roundShift at h ⊢
  have h0 : a / b ≠ 0 := fun h0 => by simp [h0] at h
  rw [← Nat.div_div_eq_div_mul, Nat.le_div_iff_mul_le (Nat.two_pow_pos _), ← Nat.pow_add]
  exact (Nat.pow_le_pow_right (by omega) (by omega)).trans (Nat.log2_self_le h0)

theorem log2_mono {m n : Nat} (h : m ≤ n) : m.log2 ≤ n.log2 := by
  rw [Nat.log2_eq_log_two, Nat.log2_eq_log_two]
  exact Nat.log_mono_right h

/-- Rounding a quotient keeps order (R10). -/
theorem roundMagnitude_mono {a b c d : Nat} (hb : 0 < b) (hd : 0 < d) (h : a * d ≤ c * b) :
    roundMagnitude a b ≤ roundMagnitude c d := by
  have hquot : a / b ≤ c / d := by
    rw [Nat.le_div_iff_mul_le hd]
    refine Nat.le_of_mul_le_mul_right ?_ hb
    calc a / b * d * b = a / b * b * d := Nat.mul_right_comm ..
      _ ≤ a * d := Nat.mul_le_mul_right d (Nat.div_mul_le_self a b)
      _ ≤ c * b := h
  have hshift : roundShift a b ≤ roundShift c d := Nat.sub_le_sub_right (log2_mono hquot) 52
  rw [roundMagnitude_eq, roundMagnitude_eq]
  refine min_le_min_right _ ?_
  rcases Nat.eq_or_lt_of_le hshift with heq | hlt
  · have hpow := Nat.two_pow_pos (roundShift c d)
    have hround : roundSignificand a b ≤ roundSignificand c d := by
      unfold roundSignificand
      rw [heq]
      refine divNearestEven_mono (Nat.mul_pos hb hpow) (Nat.mul_pos hd hpow) ?_
      rw [← Nat.mul_assoc, ← Nat.mul_assoc]
      exact Nat.mul_le_mul_right _ h
    omega
  · have hlow := roundSignificand_le a b
    have hhigh := le_roundSignificand (a := c) (b := d) (by omega)
    omega

/-! ## The magnitude of a pattern -/

/-- Patterns without their sign are ordered as their magnitudes (R9). -/
theorem fMag_packSign_mono {p q : Nat} (hpq : p ≤ q) (hq : q < 2 ^ 63) (neg neg' : Bool) :
    fMag (packSign neg p) ≤ fMag (packSign neg' q) := by
  have hp : p < 2 ^ 63 := hpq.trans_lt hq
  simp only [fMag, fExp_packSign _ hp, fExp_packSign _ hq, fFrac_packSign _ hp, fFrac_packSign _ hq]
  have hfrac := Nat.mod_lt p (Nat.two_pow_pos 52)
  by_cases hq0 : q / 2 ^ 52 = 0
  · rw [if_pos hq0, if_pos (by omega)]
    omega
  rw [if_neg hq0]
  by_cases hp0 : p / 2 ^ 52 = 0
  · rw [if_pos hp0]
    have := Nat.le_mul_of_pos_right (2 ^ 52 + q % 2 ^ 52) (Nat.two_pow_pos (q / 2 ^ 52 - 1))
    omega
  rw [if_neg hp0]
  rcases Nat.eq_or_lt_of_le (Nat.div_le_div_right (c := 2 ^ 52) hpq) with heq | hlt
  · rw [heq]
    exact Nat.mul_le_mul_right _ (by omega)
  · calc (2 ^ 52 + p % 2 ^ 52) * 2 ^ (p / 2 ^ 52 - 1) ≤ 2 ^ 53 * 2 ^ (p / 2 ^ 52 - 1) :=
          Nat.mul_le_mul_right _ (by omega)
      _ = 2 ^ 52 * 2 ^ (p / 2 ^ 52) := by rw [← Nat.pow_add, ← Nat.pow_add]; congr 1; omega
      _ ≤ 2 ^ 52 * 2 ^ (q / 2 ^ 52 - 1) := Nat.mul_le_mul_left _ (Nat.pow_le_pow_right (by omega) (by omega))
      _ ≤ (2 ^ 52 + q % 2 ^ 52) * 2 ^ (q / 2 ^ 52 - 1) := Nat.mul_le_mul_right _ (Nat.le_add_right ..)

/-- The magnitude of a rounded quotient that does not overflow (R10). -/
theorem fMag_roundNearest (neg : Bool) {a b : Nat} (h : roundMagnitude a b < infMagnitude) :
    fMag (roundNearest neg a b) = roundSignificand a b * 2 ^ roundShift a b := by
  have hle := roundSignificand_le a b
  rw [roundMagnitude_eq] at h
  have hlt : roundShift a b * 2 ^ 52 + roundSignificand a b < infMagnitude := by omega
  rw [roundNearest, roundMagnitude_eq, min_eq_left hlt.le]
  have hlow := le_roundSignificand (a := a) (b := b)
  generalize roundShift a b = sh at hlt hlow ⊢
  generalize roundSignificand a b = m at hle hlt hlow ⊢
  unfold infMagnitude at hlt
  rcases Nat.lt_or_ge m (2 ^ 52) with hsmall | hbig
  · obtain rfl : sh = 0 := by omega
    rw [Nat.zero_mul, Nat.zero_add, fMag_packSign_small neg (by omega), Nat.pow_zero, Nat.mul_one]
  rcases Nat.eq_or_lt_of_le hle with rfl | hlt53
  · rw [show sh * 2 ^ 52 + 2 ^ 53 = (sh + 1) * 2 ^ 52 + (2 ^ 52 + 0) by omega,
      fMag_packSign neg (by omega) (by decide), Nat.pow_succ]
    omega
  · obtain ⟨f, rfl⟩ := Nat.exists_eq_add_of_le hbig
    exact fMag_packSign neg (by omega) (by omega)

/-! ## Differences -/

/-- A difference is not below zero where the subtrahend is not the greater (R10, R14). -/
theorem isNegative_fsub {x y : Word} (hx : isFinite x = true) (hy : isFinite y = true) (h : fVal y ≤ fVal x) :
    isNegative (fsub x y) = false := by
  rw [fsub, fadd_finite hx ((isFinite_fneg y).trans hy), fVal_fneg]
  split
  · simp [isNegative, isZero_packSign_zero]
  · rw [decide_eq_false (by omega)]
    simp [isNegative, fSign_roundNearest]

/-- Rounded quotients without a sign, in their exact order, have a difference that is not below zero. -/
theorem isNegative_fsub_roundNearest {a b c d : Nat} (hb : 0 < b) (hd : 0 < d) (h : a * d ≤ c * b)
    (hfin : roundMagnitude c d < infMagnitude) :
    isNegative (fsub (roundNearest false c d) (roundNearest false a b)) = false := by
  have hmono := roundMagnitude_mono hb hd h
  have hmag : fMag (roundNearest false a b) ≤ fMag (roundNearest false c d) :=
    fMag_packSign_mono hmono (hfin.trans (by decide)) false false
  refine isNegative_fsub (isFinite_packSign false hfin) (isFinite_packSign false (hmono.trans_lt hfin)) ?_
  simpa [fVal, fSign_roundNearest] using hmag

/-- The mean of `n` integers of at most 32 bits does not overflow (R10). -/
theorem roundMagnitude_mean {n a : Nat} (hn : 0 < n) (ha : a ≤ n * 2 ^ 32) :
    roundMagnitude (a * fUnit) n < infMagnitude := by
  refine (roundMagnitude_mono (c := 2 ^ 32 * fUnit) hn Nat.one_pos ?_).trans_lt
    (roundMagnitude_lt_inf (by decide) le_rfl)
  rw [Nat.mul_one, Nat.mul_right_comm, Nat.mul_comm _ n]
  exact Nat.mul_le_mul_right _ ha

/-! ## The mean and the mean square -/

/-- For an integer `x`, the square of `x` is at least the chord through `q` and `q + 1`. -/
theorem chord_le_square (q x : Nat) : (2 * q + 1) * x ≤ x * x + q * (q + 1) := by
  rcases Nat.lt_or_ge q x with h | h
  · obtain ⟨j, rfl⟩ := Nat.exists_eq_add_of_le (Nat.succ_le_of_lt h)
    nlinarith
  · obtain ⟨j, rfl⟩ := Nat.exists_eq_add_of_le h
    nlinarith

/-- The chord bound, summed. -/
theorem chord_le_sum_squares (q : Nat) (cs : List Nat) :
    (2 * q + 1) * cs.sum ≤ (cs.map fun x => x * x).sum + cs.length * (q * (q + 1)) := by
  induction cs with
  | nil => simp
  | cons x cs ih =>
    have hx := chord_le_square q x
    simp only [List.sum_cons, List.map_cons, List.length_cons]
    nlinarith

theorem two_pow_le_fUnit {e : Nat} (h : e ≤ 1074) : 2 ^ e ≤ fUnit := by
  rw [fUnit]
  gcongr
  decide

theorem log2_mul_fUnit (e : Nat) : (2 ^ e * fUnit).log2 = e + 1074 := by
  rw [fUnit, ← Nat.pow_add, Nat.log2_two_pow]

/-- A rounded mean of codes is off by at most `2^-37` of a one (R10, R94). -/
theorem mean_error {n a : Nat} (hn : 0 < n) (ha : a ≤ n * 2 ^ 16) :
    2 ^ 37 * (fMag (roundNearest false (a * fUnit) n) * n) ≤ fUnit * (2 ^ 37 * a + n) := by
  have hle : a * fUnit ≤ n * (2 ^ 16 * fUnit) := by
    rw [← Nat.mul_assoc]
    exact Nat.mul_le_mul_right _ ha
  have hfin := roundMagnitude_mean hn (ha.trans (Nat.mul_le_mul_left n (by decide)))
  have hshift : 2 ^ 36 * 2 ^ roundShift (a * fUnit) n ≤ fUnit := by
    have hquot : a * fUnit / n ≤ 2 ^ 16 * fUnit := Nat.div_le_of_le_mul hle
    have hlog := log2_mono hquot
    rw [log2_mul_fUnit] at hlog
    calc 2 ^ 36 * 2 ^ roundShift (a * fUnit) n = 2 ^ (36 + roundShift (a * fUnit) n) := (Nat.pow_add ..).symm
      _ ≤ fUnit := two_pow_le_fUnit (by unfold roundShift; omega)
  have hpow := Nat.two_pow_pos (roundShift (a * fUnit) n)
  obtain ⟨-, hround, -, -⟩ := divNearestEven_spec (a * fUnit) (Nat.mul_pos hn hpow)
  rw [← roundSignificand] at hround
  rw [fMag_roundNearest false hfin]
  generalize roundSignificand (a * fUnit) n = m at hround ⊢
  generalize 2 ^ roundShift (a * fUnit) n = u at hround hshift ⊢
  calc 2 ^ 37 * (m * u * n) = 2 ^ 36 * (2 * m * (n * u)) := by ring
    _ ≤ 2 ^ 36 * (2 * (a * fUnit) + n * u) := Nat.mul_le_mul_left _ hround
    _ = 2 ^ 37 * a * fUnit + n * (2 ^ 36 * u) := by ring
    _ ≤ 2 ^ 37 * a * fUnit + n * fUnit := Nat.add_le_add_left (Nat.mul_le_mul_left n hshift) _
    _ = fUnit * (2 ^ 37 * a + n) := by ring

/-- Where the mean of `n` integers with sum `a` is no integer, the mean square is so far above the square of the mean
that the error of `mean_error` does not reach it. -/
theorem mean_square_gap {n a b q r : Nat} (hn : n ≤ 4096) (ha : a ≤ n * 2 ^ 16) (hsplit : a = n * q + r) (hr : 0 < r)
    (hrn : r < n) (hchord : (2 * q + 1) * a ≤ b + n * (q * (q + 1))) :
    (2 ^ 37 * a + n) * (2 ^ 37 * a + n) ≤ 2 ^ 74 * (n * b) := by
  have hvariance : a * a + n ≤ n * b + 1 := by
    obtain ⟨i, rfl⟩ := Nat.exists_eq_add_of_lt hr
    obtain ⟨j, rfl⟩ := Nat.exists_eq_add_of_lt hrn
    have hscaled := Nat.mul_le_mul_left (0 + i + 1 + j + 1) hchord
    subst hsplit
    nlinarith [Nat.zero_le (i * j)]
  have hslack : 2 ^ 38 * a + n ≤ 2 ^ 73 := by omega
  have hscaled := Nat.mul_le_mul_right n hslack
  nlinarith

/-- The square of the rounded mean of codes is at most their mean square (R105). -/
theorem square_rounded_mean_le {cs : List Nat} (hn : 0 < cs.length) (hn' : cs.length ≤ 4096)
    (hcs : ∀ x ∈ cs, x < 2 ^ 16) :
    fMag (roundNearest false (cs.sum * fUnit) cs.length) * fMag (roundNearest false (cs.sum * fUnit) cs.length) *
        cs.length ≤ (cs.map fun x => x * x).sum * fUnit * fUnit := by
  have hchord := chord_le_sum_squares (cs.sum / cs.length) cs
  have hsum : cs.sum ≤ cs.length * 2 ^ 16 := List.sum_le_card_nsmul cs (2 ^ 16) fun x hx => (hcs x hx).le
  have hsplit := (Nat.div_add_mod cs.sum cs.length).symm
  have hr := Nat.mod_lt cs.sum hn
  have herror := mean_error hn hsum
  generalize (cs.map fun x => x * x).sum = b at hchord ⊢
  generalize cs.length = n at *
  generalize cs.sum = a at *
  generalize a / n = q at hchord hsplit
  generalize a % n = r at hsplit hr
  rcases Nat.eq_zero_or_pos r with rfl | hr0
  · obtain rfl : a = n * q := hsplit
    have hq : q < 2 ^ 53 := by
      have := Nat.le_of_mul_le_mul_left hsum hn
      omega
    have hround := roundNearest_mul_right false (q * fUnit) 1 hn
    rw [Nat.one_mul] at hround
    rw [show n * q * fUnit = q * fUnit * n by ring, hround, ← f64, fMag_f64 hq]
    have hsquare : q * q * n ≤ b := by nlinarith
    calc q * fUnit * (q * fUnit) * n = q * q * n * (fUnit * fUnit) := by ring
      _ ≤ b * (fUnit * fUnit) := Nat.mul_le_mul_right _ hsquare
      _ = b * fUnit * fUnit := (Nat.mul_assoc ..).symm
  · have hgap := mean_square_gap hn' hsum hsplit hr0 hr hchord
    generalize fMag (roundNearest false (a * fUnit) n) = m at herror ⊢
    refine Nat.le_of_mul_le_mul_left ?_ (Nat.mul_pos (Nat.two_pow_pos 74) hn)
    calc 2 ^ 74 * n * (m * m * n) = 2 ^ 37 * (m * n) * (2 ^ 37 * (m * n)) := by ring
      _ ≤ fUnit * (2 ^ 37 * a + n) * (fUnit * (2 ^ 37 * a + n)) := Nat.mul_le_mul herror herror
      _ = fUnit * fUnit * ((2 ^ 37 * a + n) * (2 ^ 37 * a + n)) := by ring
      _ ≤ fUnit * fUnit * (2 ^ 74 * (n * b)) := Nat.mul_le_mul_left _ hgap
      _ = 2 ^ 74 * n * (b * fUnit * fUnit) := by ring

/-! ## The radicand -/

/-- The current radicand of integer codes is not below zero (R96, R105). -/
theorem isNegative_radicand {cs : List Nat} (hn : 0 < cs.length) (hn' : cs.length ≤ 4096)
    (hcs : ∀ x ∈ cs, x < 2 ^ 16) :
    isNegative
      (fsub (fdiv (f64 (cs.map fun x => x * x).sum) (f64 cs.length))
        (fmul (fdiv (f64 cs.sum) (f64 cs.length)) (fdiv (f64 cs.sum) (f64 cs.length)))) = false := by
  have hsum : cs.sum ≤ cs.length * 2 ^ 16 := List.sum_le_card_nsmul cs _ fun x hx => (hcs x hx).le
  have hsquares : (cs.map fun x => x * x).sum ≤ cs.length * 2 ^ 32 := by
    have hle := List.sum_le_card_nsmul (cs.map fun x => x * x) (2 ^ 16 * 2 ^ 16) fun y hy => by
      obtain ⟨x, hx, rfl⟩ := List.mem_map.1 hy
      exact Nat.mul_le_mul (hcs x hx).le (hcs x hx).le
    rwa [List.length_map] at hle
  rw [fdiv_f64 (by omega) (by omega) hn, fdiv_f64 (by omega) (by omega) hn]
  have hmean : isFinite (roundNearest false (cs.sum * fUnit) cs.length) = true :=
    isFinite_packSign false (roundMagnitude_mean hn (hsum.trans (Nat.mul_le_mul_left _ (by decide))))
  rw [fmul_finite hmean hmean, bne_self_eq_false]
  exact isNegative_fsub_roundNearest fUnit_pos hn (square_rounded_mean_le hn hn' hcs) (roundMagnitude_mean hn hsquares)

/-- The current radicand of a legal batch of any codes is not below zero (R105). -/
theorem isNegative_radicand_codes {s : State} (k : Channel) (hl : s.legalBatch) :
    isNegative
      (fsub (fdiv (f64 ((s.iramSeq k).map fun x => x.toNat * x.toNat).sum) (f64 s.batch))
        (fmul (fdiv (f64 ((s.iramSeq k).map fun x => x.toNat).sum) (f64 s.batch))
          (fdiv (f64 ((s.iramSeq k).map fun x => x.toNat).sum) (f64 s.batch)))) = false := by
  have hlen : ((s.iramSeq k).map fun x => x.toNat).length = s.batch := by rw [List.length_map, iramSeq_length]
  have hradicand := isNegative_radicand (cs := (s.iramSeq k).map fun x => x.toNat) (by have := hl.1; omega)
    (by have := hl.2; omega) fun y hy => by
      obtain ⟨x, -, rfl⟩ := List.mem_map.1 hy
      exact x.isLt
  rwa [hlen, List.map_map] at hradicand

theorem isNegative_radicandI {s : State} (k : Channel) (W : Nat → Word) (hl : s.legalBatch) :
    isNegative (s.radicandI k W) = false := by
  obtain ⟨hsi, hsii⟩ := sumsTo_codes k W hl.2
  simp only [State.radicandI, hsi, hsii]
  exact isNegative_radicand_codes k hl

/-- An error of a list of checks is that of one of them, which failed (R100). -/
theorem runChecks_eq_error {α : Type} {ch : BitVec 3} {r : α} {cs : List FinalCheck} {e : CmdError}
    (h : runChecks ch r cs = .error e) :
    ∃ c ∈ cs, c.passes = false ∧ e = ⟨c.code, .final, ch, c.seq, 0⟩ := by
  induction cs with
  | nil => cases h
  | cons c cs ih =>
    rw [runChecks] at h
    split at h
    · obtain ⟨d, hd, hfails, he⟩ := ih h
      exact ⟨d, List.mem_cons_of_mem _ hd, hfails, he⟩
    · rename_i hc
      exact ⟨c, List.mem_cons_self, Bool.not_eq_true _ ▸ hc, (Except.error.inj h).symm⟩

/-- E_DOMAIN comes from a check of the final stage (R92, R93, R100). -/
theorem calculate_domain {s : State} {k : Channel} {W : Nat → Word} {e : CmdError}
    (h : s.calculate k ((List.range s.batch).map W) = .error e) (he : e.code = .domain) :
    ∃ c ∈ s.finalChecks k W, c.passes = false ∧ e = ⟨c.code, .final, channelNumber k, c.seq, 0⟩ := by
  cases hscale : s.scaleFactors k with
  | error e' =>
    rw [State.calculate, hscale] at h
    cases h
    rw [scaleFactors_error hscale] at he
    cases he
  | ok f =>
    cases hpass : s.pass k ((List.range s.batch).map W) with
    | error e' =>
      cases (calculate_error_of_pass hscale hpass).symm.trans h
      obtain ⟨j, -, rfl | rfl⟩ := pass_error hpass <;> cases he
    | ok t =>
      rw [calculate_of_accumulates (scaleFactors_iff.1 hscale).1 (pass_eq_ok.1 hpass).1] at h
      exact runChecks_eq_error h

/-- The radicand checks of the final stage are the two of R96 and R97. -/
theorem radicand_mem_finalChecks {s : State} {k : Channel} {W : Nat → Word} {q : Seq} {x : Word}
    (h : .radicand q x ∈ s.finalChecks k W) : (q = .current ∧ x = s.radicandI k W) ∨ q = .voltage := by
  simp only [State.finalChecks, List.mem_cons, List.not_mem_nil, reduceCtorEq, FinalCheck.radicand.injEq, false_or,
    or_false] at h
  exact h.imp_right fun h => h.1

/-- Settles O41: the failing check of an E_DOMAIN is a radicand, and not the current one. -/
theorem currentRadicandIsNeverNegative : Obligations.CurrentRadicandIsNeverNegative := by
  intro s k hl
  refine ⟨?_, fun ws e hlen h he => ?_⟩
  · simp only [List.map_map, Function.comp_def, foldl_codes k hl.2, foldl_squares k hl.2]
    exact isNegative_radicand_codes k hl
  · obtain ⟨W, rfl⟩ := exists_eq_map_range hlen
    obtain ⟨c, hc, hfails, rfl⟩ := calculate_domain h he
    cases c with
    | finite x => cases he
    | radicand q x =>
      rcases radicand_mem_finalChecks hc with ⟨-, rfl⟩ | rfl
      · simp [isNegative_radicandI k W hl] at hfails
      · rfl

end Sys2Proof.Machine
end

section
/-! # Control: the immediate commands (42_control.md R109 to R111), the issue of a CMD write (R107) and the engine's
turn on the word in PENDING (R108). -/

namespace Sys2Proof.Machine

/-! ## The immediate commands -/

theorem exec_nop_idle {s : State} (hb : s.busy = false) : exec .nop s = .next s := by
  simp [exec, execNop, hb]

theorem exec_nop_busy {s : State} (hb : s.busy = true) : exec .nop s = .next (dropWrite s) := by
  simp [exec, execNop, hb]

theorem exec_clear_idle {s : State} (hb : s.busy = false) : exec .clear s = .next (clearErrors s) := by
  simp [exec, execClear, hb]

theorem exec_clear_busy {s : State} (hb : s.busy = true) : exec .clear s = .next (dropWrite s) := by
  simp [exec, execClear, hb]

theorem exec_sreset (s : State) : exec .sreset s = .next (softReset s) := rfl

/-- A well-formed command is decoded from its own word and from no other (R75). -/
theorem decode_eq_ok_iff_eq_encode {w : Word} {i : Instr} (h : i.wf = true) : decode w = .ok i ↔ w = encode i := by
  constructor
  · intro hd
    exact (encodeOfDecode w i hd).1.symm
  · rintro rfl
    exact decodeOfEncode i h

/-- ERRINFO without an error reads 0 (R26, R50). -/
theorem word_errInfoZero : ErrInfo.zero.word = 0 := by decide

/-- VREC_STATUS reads 0 where no reconstruction is held (R37, R50). -/
theorem word_vrecStatusZero : VrecStatus.zero.word = 0 := by decide

/-- The reset values of one `RESULT[k]` read 0 (R50). -/
theorem get_readingZero (f : ResultField) : Reading.zero.get f = 0 := by
  cases f <;> rfl

/-- The reset values of the debug registers read 0 (R50). -/
theorem get_debugZero (f : DebugField) : Debug.zero.get f = 0 := by
  cases f <;> rfl

theorem softReset_get_results (s : State) (k : Channel) (f : ResultField) : (softReset s).results[k].get f = 0 := by
  rw [softReset_results, Fin.getElem_fin, Vector.getElem_replicate, get_readingZero]

/-- Settles O18: the word of NOP is the all-zero word, and NOP is dropped exactly while BUSY = 1. -/
theorem nopChangesNothing : Obligations.NopChangesNothing :=
  ⟨fun _ => decode_eq_ok_iff_eq_encode rfl, fun _ => ⟨exec_nop_idle, exec_nop_busy⟩⟩

/-- Settles O19: CLEAR is the return from the error, which writes five fields, and is dropped while BUSY = 1. -/
theorem clearReturnsFromTheError : Obligations.ClearReturnsFromTheError :=
  ⟨fun _ => decode_eq_ok_iff_eq_encode rfl, fun s => ⟨exec_clear_busy, fun hb =>
    ⟨clearErrors s, exec_clear_idle hb, rfl, rfl, rfl, rfl, word_errInfoZero, fun _ => rfl, rfl⟩⟩⟩

/-- Settles O20: SRESET is the soft reset in every state, which writes the rows of R50 marked yes and no byte. -/
theorem sresetClearsResultsAndKeepsConfiguration : Obligations.SresetClearsResultsAndKeepsConfiguration :=
  ⟨fun _ => decode_eq_ok_iff_eq_encode rfl, fun s =>
    ⟨softReset s, exec_sreset s, rfl, rfl, rfl, rfl, rfl, word_errInfoZero, rfl, rfl, rfl, word_vrecStatusZero,
      softReset_get_results s, get_debugZero, fun _ => rfl, rfl⟩⟩

/-! ## The issue of a CMD write -/

/-- An immediate command runs within the CMD write (R77, R107). -/
theorem issue_immediate {w : Word} {i : Instr} (hd : decode w = .ok i) (hi : i.immediate = true) (s : State) :
    issue w s = exec i s := by
  simp [issue, hd, hi]

/-- Every word that is no NOP, CLEAR or SRESET is a queued word, illegal ones too (R77, R107). -/
theorem issue_queued {w : Word} (hnop : decode w ≠ .ok .nop) (hclear : decode w ≠ .ok .clear)
    (hsreset : decode w ≠ .ok .sreset) (s : State) : issue w s = .next (queueWord w s) := by
  unfold issue
  cases hd : decode w with
  | error r => rfl
  | ok i => simp [immediate_eq_false_of_decode hnop hclear hsreset i hd]

theorem queueWord_err {s : State} (w : Word) (he : s.err = true) : queueWord w s = dropWrite s := by
  simp [queueWord, he]

theorem queueWord_ready {s : State} (w : Word) (hb : s.busy = false) (he : s.err = false) :
    queueWord w s = acceptWord w s := by
  simp [queueWord, hb, he]

/-- Settles O7: the CMD write issues the word once it has answered OKAY. -/
theorem stepRunsTheImmediateCommand : Obligations.StepRunsTheImmediateCommand := by
  intro s w i rest hr hin hd hi
  rw [step_cmd hr hin, issue_immediate hd hi]

/-- Settles O8: the branches of `Issue(w)` in their order; answering OKAY changes neither BUSY nor ERR. -/
theorem cmdWriteFollowsIssue : Obligations.CmdWriteFollowsIssue := by
  intro s t w rest hr hin ht
  have hbusy : t.busy = s.busy := by rw [ht]
  have herr : t.err = s.err := by rw [ht]
  rw [step_cmd hr hin, ← ht, ← hbusy, ← herr]
  split_ifs with hsreset hb he hnop hclear
  · exact issue_immediate hsreset rfl t
  · exact issue_busy hb hsreset
  · obtain ⟨he, hnop, hclear⟩ := he
    rw [issue_queued hnop hclear hsreset, queueWord_err w he]
    rfl
  · rw [issue_immediate hnop rfl, exec_nop_idle (Bool.not_eq_true _ ▸ hb)]
  · rw [issue_immediate hclear rfl, exec_clear_idle (Bool.not_eq_true _ ▸ hb)]
    rfl
  · have he : t.err = false := Bool.not_eq_true _ ▸ fun h => he ⟨h, hnop, hclear⟩
    rw [issue_queued hnop hclear hsreset, queueWord_ready w (Bool.not_eq_true _ ▸ hb) he]
    rfl

/-! ## The engine's turn -/

theorem step_engine {s : State} {rest : List Input} (hin : s.inputs = .engine :: rest) :
    step s = engineTurn { s with inputs := rest } := step_cons hin

/-- The engine's turn on a pending queued command runs it (R108). -/
theorem engineTurn_queued {s : State} {i : Instr} (hb : s.busy = true) (hd : decode s.pending = .ok i)
    (hi : i.immediate = false) : engineTurn s = exec i s := by
  simp [engineTurn_busy hb, engineStep, hd, hi]

/-- Settles O6: the engine has its turn once the inputs have run out, or where it is the next input. -/
theorem stepRunsThePendingCommand : Obligations.StepRunsThePendingCommand := by
  intro s i rest hb hd hi
  refine ⟨fun hin => ?_, fun hin => ?_⟩
  · exact (step_nil hin).trans (engineTurn_queued hb hd hi)
  · exact (step_engine hin).trans (engineTurn_queued hb hd hi)

/-- Settles O10: the turn of the engine on a busy state fails, clears BUSY alone, or commits, and a commit writes
neither PENDING nor the inputs. -/
theorem engineStepClearsBusy : Obligations.EngineStepClearsBusy := by
  intro s hb hin
  rw [step_nil hin]
  rcases engineTurn_cases s with ⟨-, hidle⟩ | ⟨-, ⟨c, info, e, -⟩ | ⟨i, hd, hi, e⟩ | ⟨i, u, -, hi, hq, e⟩⟩
  · simp [hb] at hidle
  · exact ⟨_, e, rfl, hin, rfl, fun _ => .inr rfl⟩
  · refine ⟨_, e, rfl, hin, rfl, fun hqueued => ?_⟩
    simp [hqueued i hd] at hi
  · refine ⟨_, e, rfl, ?_⟩
    rw [queuedCommand_frame hi hq]
    exact ⟨hin, rfl, fun _ => .inl rfl⟩

end Sys2Proof.Machine
end

section
/-! # Exceptions: what each check and each queued command raises (60_exceptions.md R114, R118), the row of R115 that
the raised error is, that a failure is precise (R117), and that the first error's record is kept (R120). -/

namespace Sys2Proof.Machine

/-! ## What each check of the operands and of the batch answers -/

/-- E_BADCHAN with CHANNEL as R115 lists it. -/
def channelError (c : BitVec 3) : CmdError := ⟨.badChan, .validation, c, .none, 0⟩

/-- E_LEN (R90, R115). -/
def lengthError : CmdError := ⟨.len, .validation, 0, .none, 0⟩

/-- E_MISMATCH of CALC on channel `k` (R101, R115). -/
def mismatchError (k : Channel) : CmdError := ⟨.mismatch, .validation, channelNumber k, .voltage, 0⟩

/-- A check raises its one error exactly where its condition fails. -/
theorem check_eq_error {ε α : Type} {p : Prop} [Decidable p] {a : α} {e e' : ε} :
    (if p then Except.ok a else Except.error e') = .error e ↔ ¬ p ∧ e = e' := by
  split <;> simp [*, eq_comm]

theorem needChannel_eq_ok {ch : Nat} {k : Channel} : needChannel ch = .ok k ↔ ch = k.val + 1 := by
  rw [← channelOf_eq_some]
  unfold needChannel
  cases channelOf ch <;> simp

theorem needChannel_eq_error {ch : Nat} {e : CmdError} :
    needChannel ch = .error e ↔ ¬ (1 ≤ ch ∧ ch ≤ 6) ∧ e = channelError (BitVec.ofNat 3 ch) := by
  rw [← channelOf_eq_none]
  unfold needChannel
  cases channelOf ch <;> simp [channelError, eq_comm]

theorem needMask_eq_ok {m : BitVec 6} {ks : List Channel} : needMask m = .ok ks ↔ m ≠ 0 ∧ maskChannels m = ks := by
  unfold needMask
  split
  case isTrue h => simp [h]
  case isFalse h => rw [Except.ok.injEq, and_iff_right h]

theorem needMask_eq_error {m : BitVec 6} {e : CmdError} : needMask m = .error e ↔ m = 0 ∧ e = channelError 0 := by
  unfold needMask
  split
  case isTrue h => rw [Except.error.injEq, and_iff_right h, channelError, eq_comm]
  case isFalse h => simp only [reduceCtorEq, h, false_and]

theorem needLength_eq_ok {s : State} {u : Unit} : needLength s = .ok u ↔ s.legalBatch :=
  ite_eq_ok.trans (and_iff_right rfl)

theorem needLength_eq_error {s : State} {e : CmdError} :
    needLength s = .error e ↔ ¬ s.legalBatch ∧ e = lengthError := check_eq_error

theorem needMatch_eq_ok {s : State} {k : Channel} {u : Unit} : needMatch s k = .ok u ↔ s.vrecTagged k :=
  ite_eq_ok.trans (and_iff_right rfl)

theorem needMatch_eq_error {s : State} {k : Channel} {e : CmdError} :
    needMatch s k = .error e ↔ ¬ s.vrecTagged k ∧ e = mismatchError k := check_eq_error

/-! ## What each queued command raises, in the order of R118 -/

/-- Everything RECON can raise (R88, R118). -/
theorem reconCommand_eq_error {ch : Nat} {s : State} {e : CmdError} :
    reconCommand ch s = .error e ↔
      (¬ (1 ≤ ch ∧ ch ≤ 6) ∧ e = channelError (BitVec.ofNat 3 ch)) ∨
        ∃ k : Channel, ch = k.val + 1 ∧
          ((¬ s.legalBatch ∧ e = lengthError) ∨ (s.legalBatch ∧ s.reconstruct k = .error e)) := by
  simp [reconCommand, except_bind_eq_error, needChannel_eq_ok, needChannel_eq_error, needLength_eq_ok,
    needLength_eq_error]

/-- Everything CALC can raise (R101, R118). -/
theorem calcCommand_eq_error {ch : Nat} {s : State} {e : CmdError} :
    calcCommand ch s = .error e ↔
      (¬ (1 ≤ ch ∧ ch ≤ 6) ∧ e = channelError (BitVec.ofNat 3 ch)) ∨
        ∃ k : Channel, ch = k.val + 1 ∧
          ((¬ s.legalBatch ∧ e = lengthError) ∨
            (s.legalBatch ∧ ((¬ s.vrecTagged k ∧ e = mismatchError k) ∨
              (s.vrecTagged k ∧ s.calculate k s.vrecSeq = .error e)))) := by
  simp [calcCommand, except_bind_eq_error, needChannel_eq_ok, needChannel_eq_error, needLength_eq_ok,
    needLength_eq_error, needMatch_eq_ok, needMatch_eq_error]

/-- Everything MEASURE can raise (R102, R118). -/
theorem measureCommand_eq_error {m : BitVec 6} {s : State} {e : CmdError} :
    measureCommand m s = .error e ↔
      (m = 0 ∧ e = channelError 0) ∨
        (m ≠ 0 ∧ ((¬ s.legalBatch ∧ e = lengthError) ∨
          (s.legalBatch ∧ s.measureAll (maskChannels m) = .error e))) := by
  simp [measureCommand, except_bind_eq_error, needMask_eq_ok, needMask_eq_error, needLength_eq_ok,
    needLength_eq_error]

/-- A channel operand outside 1..6 is one of 0 and 7 where it fits its field (R76, R114). -/
theorem channel_out_of_range {ch : Nat} (hwf : ch < 8) : ¬ (1 ≤ ch ∧ ch ≤ 6) ↔ ch = 0 ∨ ch = 7 := by omega

/-- Settles O21: the operand is checked first, then the batch length, and each check fails with its own row. -/
theorem badOperandsFailFirst : Obligations.BadOperandsFailFirst := by
  intro s
  refine ⟨fun ch hch => ?_, ?_, fun hlen => ⟨fun ch hlo hhi => ?_, fun m hm => ?_⟩⟩
  · have hbad : ¬ (1 ≤ ch ∧ ch ≤ 6) := by omega
    exact ⟨exec_of_error (i := .recon ch) rfl (reconCommand_eq_error.2 (.inl ⟨hbad, rfl⟩)),
      exec_of_error (i := .calculate ch) rfl (calcCommand_eq_error.2 (.inl ⟨hbad, rfl⟩))⟩
  · exact exec_of_error (i := .measure 0) rfl (measureCommand_eq_error.2 (.inl ⟨rfl, rfl⟩))
  · obtain ⟨k, hk⟩ : ∃ k : Channel, ch = k.val + 1 := ⟨⟨ch - 1, by omega⟩, by simp only; omega⟩
    exact ⟨exec_of_error (i := .recon ch) rfl (reconCommand_eq_error.2 (.inr ⟨k, hk, .inl ⟨hlen, rfl⟩⟩)),
      exec_of_error (i := .calculate ch) rfl (calcCommand_eq_error.2 (.inr ⟨k, hk, .inl ⟨hlen, rfl⟩⟩))⟩
  · exact exec_of_error (i := .measure m) rfl (measureCommand_eq_error.2 (.inr ⟨hm, .inl ⟨hlen, rfl⟩⟩))

/-! ## A failure is precise (R117) -/

/-- Settles O28: a command that raises leaves the error entry on the state before it, and a commit writes neither ERR
nor the record. -/
theorem commandErrorsArePrecise : Obligations.CommandErrorsArePrecise := by
  refine ⟨fun s i hi hs => ?_, fun s hb hs hin => ?_⟩
  · cases hq : queuedCommand i s with
    | error e => exact ⟨_, exec_of_error hi hq, fun _ => rfl, by simp [State.failed]⟩
    | ok u =>
      have hframe := queuedCommand_frame hi hq
      refine ⟨_, exec_of_ok hi hq, ?_, ?_⟩ <;> rw [hframe]
      · simp [hs]
      · exact fun _ => ⟨rfl, rfl, rfl⟩
  · rw [step_nil hin]
    rcases engineTurn_cases s with ⟨-, hidle⟩ | ⟨-, ⟨c, info, e, -⟩ | ⟨i, -, -, e⟩ | ⟨i, u, -, hi, hq, e⟩⟩
    · simp [hb] at hidle
    · exact ⟨_, e, fun _ => rfl⟩
    · exact ⟨_, e, by simp [hs]⟩
    · refine ⟨_, e, ?_⟩
      rw [queuedCommand_frame hi hq]
      simp [hs]

/-! ## The rows of the error record (R115) -/

/-- INDEX holds every index of a batch (R26, R27). -/
theorem toNat_index {s : State} {j : Nat} (hj : j < s.batch) : (BitVec.ofNat 16 j).toNat = j := by
  have hn : s.batch < 2 ^ 16 := s.n.isLt
  rw [BitVec.toNat_ofNat, Nat.mod_eq_of_lt (hj.trans hn)]

theorem reconstructRow_of_error {s : State} {k : Channel} {e : CmdError} (h : s.reconstruct k = .error e)
    (op : BitVec 8) : reconstructRow s.batch (channelNumber k) op e.code (e.info op) := by
  rcases reconstruct_error h with rfl | ⟨j, hj, rfl | rfl⟩
  · exact .inl ⟨rfl, rfl⟩
  · exact .inr ⟨.inl rfl, (toNat_index hj).trans_lt hj, rfl⟩
  · exact .inr ⟨.inr rfl, (toNat_index hj).trans_lt hj, rfl⟩

theorem calculateRow_of_error {s : State} {k : Channel} {ws : List Word} {e : CmdError}
    (h : s.calculate k ws = .error e) (op : BitVec 8) :
    calculateRow s.batch (channelNumber k) op e.code (e.info op) := by
  rcases calculate_error h with rfl | ⟨j, hj, rfl | rfl⟩ | hfinal
  · exact .inl ⟨rfl, rfl⟩
  · exact .inr (.inl ⟨rfl, (toNat_index hj).trans_lt hj, rfl⟩)
  · exact .inr (.inr (.inl ⟨rfl, (toNat_index hj).trans_lt hj, rfl⟩))
  · simp only [finalErrors, List.mem_cons, List.not_mem_nil, or_false] at hfinal
    rcases hfinal with rfl | rfl | rfl
    · exact .inr (.inr (.inr (.inl ⟨rfl, rfl⟩)))
    · exact .inr (.inr (.inr (.inr ⟨rfl, .inl rfl⟩)))
    · exact .inr (.inr (.inr (.inr ⟨rfl, .inr rfl⟩)))

/-- One channel of MEASURE fails in its own reconstruction or in the calculation over it (R102). -/
theorem measureChannel_row {s : State} {k : Channel} {e : CmdError} (h : s.measureChannel k = .error e)
    (op : BitVec 8) :
    reconstructRow s.batch (channelNumber k) op e.code (e.info op) ∨
      calculateRow s.batch (channelNumber k) op e.code (e.info op) := by
  cases hr : s.reconstruct k with
  | error e' =>
    cases (measureChannel_of_error hr).symm.trans h
    exact .inl (reconstructRow_of_error hr op)
  | ok ws => exact .inr (calculateRow_of_error ((measureChannel_of_ok hr).symm.trans h) op)

/-- Settles O29: the checks of each command and the stages it runs raise the rows listed for it. -/
theorem errorRecordFollowsTheTable : Obligations.ErrorRecordFollowsTheTable := by
  intro s t i hi hwf hs hexec ht
  obtain ⟨e, he, rfl⟩ := queuedCommand_of_err hi hs hexec ht
  refine ⟨rfl, ?_⟩
  cases i with
  | recon ch =>
    have hch : ch < 8 := of_decide_eq_true hwf
    rcases reconCommand_eq_error.1 he with ⟨hbad, rfl⟩ | ⟨k, rfl, ⟨hlen, rfl⟩ | ⟨-, hr⟩⟩
    · exact .inr (.inl ⟨rfl, (channel_out_of_range hch).1 hbad, rfl⟩)
    · exact .inl ⟨rfl, hlen, rfl⟩
    · exact .inr (.inr ⟨by omega, by omega, reconstructRow_of_error hr 0x01⟩)
  | calculate ch =>
    have hch : ch < 8 := of_decide_eq_true hwf
    rcases calcCommand_eq_error.1 he with
      ⟨hbad, rfl⟩ | ⟨k, rfl, ⟨hlen, rfl⟩ | ⟨-, ⟨-, rfl⟩ | ⟨-, hc⟩⟩⟩
    · exact .inr (.inl ⟨rfl, (channel_out_of_range hch).1 hbad, rfl⟩)
    · exact .inl ⟨rfl, hlen, rfl⟩
    · exact .inr (.inr ⟨by omega, by omega, .inl ⟨rfl, rfl⟩⟩)
    · exact .inr (.inr ⟨by omega, by omega, .inr (calculateRow_of_error hc 0x02)⟩)
  | measure m =>
    rcases measureCommand_eq_error.1 he with ⟨hm, rfl⟩ | ⟨-, ⟨hlen, rfl⟩ | ⟨-, hall⟩⟩
    · exact .inr (.inl ⟨rfl, hm, rfl⟩)
    · exact .inl ⟨rfl, hlen, rfl⟩
    · obtain ⟨k, hk, hfail⟩ := measureAll_eq_error hall
      exact .inr (.inr ⟨k, mem_maskChannels.1 hk, measureChannel_row hfail 0x03⟩)
  | nop => cases hi
  | clear => cases hi
  | sreset => cases hi

/-! ## The first error's record is kept (R120) -/

/-- ERR excludes BUSY (R47). -/
theorem busy_of_err {s : State} (h : s.Inv) (he : s.err = true) : s.busy = false := by
  by_contra hb
  have hclear := (h.busyAlone (Bool.not_eq_false _ ▸ hb)).1
  simp [he] at hclear

/-- ERR is never set while `rst` is asserted (R132). -/
theorem rst_of_err {s : State} (h : s.Inv) (he : s.err = true) : s.rst = false := by
  by_contra hr
  have hs : s.heldInReset := h.inReset (Bool.not_eq_false _ ▸ hr)
  rw [hs] at he
  cases he

/-- `t` has the error record of `s` (R25, R26). -/
def SameErrorRecord (s t : State) : Prop := t.errCode = s.errCode ∧ t.errInfo = s.errInfo

/-- A CMD write either clears ERR or leaves the record: CLEAR and SRESET alone write it (R107, R110, R111). -/
theorem sameErrorRecord_issue {s t : State} {w : Word} (h : issue w s = .next t) (ht : t.err = true) :
    SameErrorRecord s t := by
  rcases issue_cases w s with ⟨e, -⟩ | ⟨e, -⟩ | ⟨e, -⟩ | ⟨e, -⟩ | ⟨e, -⟩ <;> cases e.symm.trans h
  · exact ⟨rfl, rfl⟩
  · simp at ht
  · simp at ht
  · exact ⟨rfl, rfl⟩
  · exact ⟨rfl, rfl⟩

/-- A step from ERR = 1 either clears ERR or leaves the record: with ERR = 1 no command is pending, so the engine's
turn writes no second record (R47, R120). -/
theorem sameErrorRecord_step {s t : State} (h : s.Inv) (he : s.err = true) (hstep : step s = .next t)
    (ht : t.err = true) : SameErrorRecord s t := by
  rcases step_cases hstep with
    ⟨w, rest, -, -, hissue⟩ | ⟨a, v, rest, -, -, -, rfl | ⟨-, rfl⟩ | ⟨l, -, -, -, rfl⟩⟩ |
      ⟨a, rest, -, -, rfl⟩ | ⟨b, rest, -, rfl | ⟨-, -, rfl⟩⟩ | ⟨-, hengine⟩
  · exact (sameErrorRecord_issue hissue ht : SameErrorRecord (respond _ _) t)
  · exact ⟨rfl, rfl⟩
  · exact ⟨rfl, rfl⟩
  · rw [storeLoc_frame]
    exact ⟨rfl, rfl⟩
  · rw [hostRead_frame]
    exact ⟨rfl, rfl⟩
  · cases ht
  · exact ⟨rfl, rfl⟩
  · have hidle : engineTurn { s with inputs := s.inputs.tail } = .next { s with inputs := s.inputs.tail } :=
      if_neg (by simp [busy_of_err h he])
    cases hidle.symm.trans hengine
    exact ⟨rfl, rfl⟩

/-- Settles O15: a step keeps the record while it keeps ERR, and a CMD write of a queued word is dropped. -/
theorem firstErrorIsKept : Obligations.FirstErrorIsKept := by
  intro s t h he hstep
  refine ⟨sameErrorRecord_step h he hstep, fun w rest hin hnop hclear hsreset => ?_⟩
  rw [step_cmd (rst_of_err h he) hin, issue_queued hnop hclear hsreset,
    queueWord_err (s := { s with inputs := rest, bus := some (.write false) }) w he] at hstep
  exact (Host.Outcome.next.inj hstep).symm

end Sys2Proof.Machine
end

section
/-! # Reset: the hardware reset acts whatever the state (70_reset_and_hazards.md R132, R133), and a host access
while `rst` is asserted is a fault (R134). -/

namespace Sys2Proof.Machine

/-- No register reads the level of `rst`, the inputs to come, the answer on the bus or the draws: the registers after
a hardware reset are those of the reset state (R50, R132). -/
theorem readReg_hardwareReset (b : Bool) (s : State) (r : Reg) :
    (hardwareReset b s).readReg r = State.reset.readReg r := by
  cases r <;> rfl

/-- A hardware reset draws every byte anew (R133). -/
theorem byteAt_hardwareReset (b : Bool) (s : State) (a : Nat) :
    (hardwareReset b s).byteAt a = Config.unwrittenByte (s.epoch + 1) a := rfl

/-- The reset acts while `rst` is asserted and at the step of its release (R132). -/
theorem step_reset {s : State} {level : Bool} {rest : List Input} (hin : s.inputs = .rst level :: rest)
    (h : level = true ∨ s.rst = true) : step s = .next (hardwareReset level { s with inputs := rest }) := by
  rw [step_cons hin]
  exact if_pos (by simpa using h)

/-- Settles O57: neither a read nor a write gets as far as its offset. -/
theorem accessDuringResetFaults : Obligations.AccessDuringResetFaults := by
  intro s a v rest hr
  exact ⟨fun hin => (step_cons hin).trans (if_pos hr), fun hin => (step_cons hin).trans (if_pos hr)⟩

/-- Settles O56: the step is the hardware reset, which takes every register from the reset state. -/
theorem hardwareResetSetsEveryRegister : Obligations.HardwareResetSetsEveryRegister := by
  intro s level rest hin h
  exact ⟨_, step_reset hin h, readReg_hardwareReset level _, rfl, rfl, rfl, rfl, byteAt_hardwareReset level _⟩

end Sys2Proof.Machine
end

section
/-! # Runs to quiescence: each input that the host's duty allows is one step without a fault, and the engine's turn
after the last one ends BUSY (70_reset_and_hazards.md R134, R140, R142). -/

namespace Sys2Proof.Machine

/-- `t` has the inputs to come and the level of `rst` of `s`. -/
structure SamePorts (s t : State) : Prop where
  inputs : t.inputs = s.inputs
  rst : t.rst = s.rst

/-! ## Accesses and the engine's turn -/

theorem samePorts_hostRead (a : Addr) (s : State) : SamePorts s (hostRead a s) := by
  rw [hostRead_frame]
  exact ⟨rfl, rfl⟩

/-- The issue of a word always completes (R107). -/
theorem issue_completes (w : Word) (s : State) : ∃ t, issue w s = .next t ∧ SamePorts s t := by
  rcases issue_cases w s with ⟨e, -⟩ | ⟨e, -⟩ | ⟨e, -⟩ | ⟨e, -⟩ | ⟨e, -⟩ <;> exact ⟨_, e, rfl, rfl⟩

/-- A host write always completes (R58, R60). -/
theorem hostWrite_completes (a : Addr) (v : Word) (s : State) : ∃ t, hostWrite a v s = .next t ∧ SamePorts s t := by
  rcases hostWrite_cases a v s with ⟨-, e⟩ | ⟨-, e⟩ | ⟨-, -, e⟩ | ⟨l, -, -, -, -, e⟩ <;> rw [e]
  · obtain ⟨t, hissue, hports⟩ := issue_completes v (respond (.write false) s)
    exact ⟨t, hissue, hports.inputs, hports.rst⟩
  · exact ⟨_, rfl, rfl, rfl⟩
  · exact ⟨_, rfl, rfl, rfl⟩
  · rw [storeLoc_frame]
    exact ⟨_, rfl, rfl, rfl⟩

/-- The engine's turn always completes and leaves BUSY = 0 (R108, R142). -/
theorem engineTurn_completes (s : State) : ∃ t, engineTurn s = .next t ∧ SamePorts s t ∧ t.busy = false := by
  rcases engineTurn_cases s with ⟨e, hb⟩ | ⟨-, ⟨c, info, e, -⟩ | ⟨i, -, -, e⟩ | ⟨i, u, -, hi, hq, e⟩⟩
  · exact ⟨s, e, ⟨rfl, rfl⟩, hb⟩
  · exact ⟨_, e, ⟨rfl, rfl⟩, rfl⟩
  · exact ⟨_, e, ⟨rfl, rfl⟩, rfl⟩
  · rw [queuedCommand_frame hi hq] at e
    exact ⟨_, e, ⟨rfl, rfl⟩, rfl⟩

/-! ## The step and the run -/

/-- An input that the host's duty allows takes one step, after which the duty holds of the inputs left (R134). -/
theorem step_completes {s : State} {e : Input} {rest : List Input} (hin : s.inputs = e :: rest)
    (h : hostKeepsReset s.rst (e :: rest) = true) :
    ∃ t, step s = .next t ∧ t.inputs = rest ∧ hostKeepsReset t.rst rest = true := by
  have hports : ∀ {t : State}, SamePorts { s with inputs := rest } t → hostKeepsReset s.rst rest = true →
      t.inputs = rest ∧ hostKeepsReset t.rst rest = true := fun hp hk => ⟨hp.inputs, hp.rst ▸ hk⟩
  cases e with
  | read a =>
    obtain ⟨hr, hrest⟩ : s.rst = false ∧ hostKeepsReset s.rst rest = true := by simpa [hostKeepsReset] using h
    exact ⟨_, step_read hr hin, hports (samePorts_hostRead a _) hrest⟩
  | write a v =>
    obtain ⟨hr, hrest⟩ : s.rst = false ∧ hostKeepsReset s.rst rest = true := by simpa [hostKeepsReset] using h
    obtain ⟨t, hwrite, hp⟩ := hostWrite_completes a v { s with inputs := rest }
    exact ⟨t, (step_write hr hin).trans hwrite, hports hp hrest⟩
  | engine =>
    obtain ⟨t, hturn, hp, -⟩ := engineTurn_completes { s with inputs := rest }
    exact ⟨t, (step_engine hin).trans hturn, hports hp h⟩
  | rst level =>
    by_cases hacts : level = true ∨ s.rst = true
    · exact ⟨_, step_reset hin hacts, rfl, h⟩
    · obtain ⟨rfl, hr⟩ : level = false ∧ s.rst = false := by simpa using hacts
      exact ⟨{ s with inputs := rest }, by rw [step_cons hin]; exact if_neg (by simp [hr]), rfl, hr ▸ h⟩
  | clkStop => cases h

/-- Settles O11, by induction on the inputs: each is one step, and the last step is the engine's turn. -/
theorem everyRunBecomesQuiescent : Obligations.EveryRunBecomesQuiescent := by
  intro s h
  induction hin : s.inputs generalizing s with
  | nil =>
    obtain ⟨t, hturn, hports, hb⟩ := engineTurn_completes s
    exact ⟨t, core_run_next 0 ((step_nil hin).trans hturn), hports.inputs.trans hin, hb⟩
  | cons e rest ih =>
    obtain ⟨t, hstep, hrest, hkeeps⟩ := step_completes hin (hin ▸ h)
    obtain ⟨u, hrun, hu⟩ := ih t (hrest.symm ▸ hkeeps) hrest
    exact ⟨u, (core_run_next _ hstep).trans hrun, hu⟩

end Sys2Proof.Machine
end

section
/-! # What a queued command reads: the configuration and the samples below `N` (20_memory.md R70, 41_calculator.md
R90, 70_reset_and_hazards.md R138). Two states that agree on these raise the same error or make the same commit. -/

namespace Sys2Proof.Machine

/-- `t` agrees with `s` on everything that a queued command reads before it commits (R70, R90, R138). -/
structure SameCommandReads (s t : State) : Prop where
  n : t.n = s.n
  adcRes : t.adcRes = s.adcRes
  boardRef : t.boardRef = s.boardRef
  gridV : t.gridV = s.gridV
  xfmrV : t.xfmrV = s.xfmrV
  acAcc : t.acAcc = s.acAcc
  phase : t.phase = s.phase
  curAcc : t.curAcc = s.curAcc
  vrecStatus : t.vrecStatus = s.vrecStatus
  vram : ∀ j, j < s.batch → t.vram j = s.vram j
  iram : ∀ k j, j < s.batch → t.iram k j = s.iram k j
  vrec : ∀ j, j < s.batch → t.vrec j = s.vrec j

/-- What a queued command commits: the values it has computed. -/
inductive Commit where
  /-- RECON (R88). -/
  | recon (k : Channel) (ws : List Word)
  /-- CALC (R101). -/
  | calculate (k : Channel) (r : Reading × Debug)
  /-- MEASURE (R102). -/
  | measure (mask : BitVec 6) (rs : List (Channel × Reading × Debug))

/-- The model's commit of the values. -/
def Commit.apply : Commit → State → State
  | .recon k ws => commitRecon k ws
  | .calculate k r => commitCalc k r
  | .measure mask rs => commitMeasure mask rs

/-- Two command results, one on `s` and one on `t`: the same error, or the same values committed to each. -/
inductive SameCommit (s t : State) : Except CmdError State → Except CmdError State → Prop where
  | raised (e : CmdError) : SameCommit s t (.error e) (.error e)
  | committed (c : Commit) : SameCommit s t (.ok (c.apply s)) (.ok (c.apply t))

/-- A check that answers alike on both sides leaves the results alike. -/
theorem SameCommit.bind {s t : State} {α : Type} {f g : α → Except CmdError State} (x : Except CmdError α)
    (h : ∀ a, SameCommit s t (f a) (g a)) : SameCommit s t (x >>= f) (x >>= g) := by
  cases x with
  | error e => exact .raised e
  | ok a => exact h a

/-! ## The stages of the commands -/

section
variable {s t : State}

theorem SameCommandReads.batch (h : SameCommandReads s t) : t.batch = s.batch := batch_congr h.n

theorem SameCommandReads.vramSeq (h : SameCommandReads s t) : t.vramSeq = s.vramSeq := by
  rw [State.vramSeq, h.batch, State.vramSeq]
  exact List.map_congr_left fun j hj => h.vram j (List.mem_range.1 hj)

theorem SameCommandReads.iramSeq (h : SameCommandReads s t) (k : Channel) : t.iramSeq k = s.iramSeq k := by
  rw [State.iramSeq, h.batch, State.iramSeq]
  exact List.map_congr_left fun j hj => h.iram k j (List.mem_range.1 hj)

theorem SameCommandReads.vrecSeq (h : SameCommandReads s t) : t.vrecSeq = s.vrecSeq := by
  rw [State.vrecSeq, h.batch, State.vrecSeq]
  exact List.map_congr_left fun j hj => h.vrec j (List.mem_range.1 hj)

theorem SameCommandReads.needLength (h : SameCommandReads s t) : needLength t = needLength s := by
  rw [Machine.needLength, h.batch, Machine.needLength]

theorem SameCommandReads.needMatch (h : SameCommandReads s t) (k : Channel) : needMatch t k = needMatch s k := by
  rw [Machine.needMatch, h.vrecStatus, h.n, Machine.needMatch]

theorem SameCommandReads.reconstruct (h : SameCommandReads s t) (k : Channel) : t.reconstruct k = s.reconstruct k := by
  rw [State.reconstruct, h.adcRes, h.phase, h.vramSeq, State.reconstruct]

theorem SameCommandReads.scaleFactors (h : SameCommandReads s t) (k : Channel) :
    t.scaleFactors k = s.scaleFactors k := by
  have hproducts : scaleProducts t k = scaleProducts s k := by
    simp only [scaleProducts, h.adcRes, h.boardRef, h.gridV, h.xfmrV, h.acAcc, h.curAcc]
  rw [State.scaleFactors, hproducts, h.adcRes, h.boardRef, h.gridV, h.xfmrV, h.acAcc, h.curAcc, State.scaleFactors]

theorem SameCommandReads.pass (h : SameCommandReads s t) (k : Channel) (ws : List Word) : t.pass k ws = s.pass k ws := by
  rw [State.pass, h.adcRes, h.iramSeq, State.pass]

theorem SameCommandReads.calculate (h : SameCommandReads s t) (k : Channel) (ws : List Word) :
    t.calculate k ws = s.calculate k ws := by
  rw [State.calculate, h.scaleFactors, h.pass, h.batch, State.calculate]

theorem SameCommandReads.measureChannel (h : SameCommandReads s t) (k : Channel) :
    t.measureChannel k = s.measureChannel k := by
  simp only [State.measureChannel, h.reconstruct, h.calculate]

theorem SameCommandReads.measureAll (h : SameCommandReads s t) (ks : List Channel) :
    t.measureAll ks = s.measureAll ks := by
  induction ks with
  | nil => rfl
  | cons k ks ih => rw [measureAll_cons, h.measureChannel, ih, measureAll_cons]

/-! ## The commands -/

theorem reconCommand_sameCommit (h : SameCommandReads s t) (ch : Nat) :
    SameCommit s t (reconCommand ch s) (reconCommand ch t) := by
  simp only [reconCommand, h.needLength, h.reconstruct]
  exact .bind _ fun k => .bind _ fun _ => .bind _ fun ws => .committed (.recon k ws)

theorem calcCommand_sameCommit (h : SameCommandReads s t) (ch : Nat) :
    SameCommit s t (calcCommand ch s) (calcCommand ch t) := by
  simp only [calcCommand, h.needLength, h.needMatch, h.calculate, h.vrecSeq]
  exact .bind _ fun k => .bind _ fun _ => .bind _ fun _ => .bind _ fun r => .committed (.calculate k r)

theorem measureCommand_sameCommit (h : SameCommandReads s t) (mask : BitVec 6) :
    SameCommit s t (measureCommand mask s) (measureCommand mask t) := by
  simp only [measureCommand, h.needLength, h.measureAll]
  exact .bind _ fun _ => .bind _ fun _ => .bind _ fun rs => .committed (.measure mask rs)

/-- A queued command's result is a function of what it reads (R138). -/
theorem queuedCommand_sameCommit (h : SameCommandReads s t) {i : Instr} (hi : i.immediate = false) :
    SameCommit s t (queuedCommand i s) (queuedCommand i t) := by
  cases i with
  | recon ch => exact reconCommand_sameCommit h ch
  | calculate ch => exact calcCommand_sameCommit h ch
  | measure mask => exact measureCommand_sameCommit h mask
  | nop => cases hi
  | clear => cases hi
  | sreset => cases hi

end

/-! ## Samples at index `N` and above -/

/-- `s` with other bytes in VRAM, IRAM and VREC, written and unwritten. -/
def State.withMemory (s : State) (m : Memory) (e : Nat) : State := { s with mem := m, epoch := e }

/-- RECON's commit leaves an entry of VREC equal in two states in which it was equal: it stores one word there in
both, or none (R88). -/
theorem vrec_commitRecon_congr {s t : State} {j : Nat} (h : t.vrec j = s.vrec j) (k : Channel) (ws : List Word) :
    (commitRecon k ws t).vrec j = (commitRecon k ws s).vrec j := by
  by_cases hj : j < ws.length
  · rw [vrec_commitRecon k ws t j hj, vrec_commitRecon k ws s j hj]
  · have hkept : ∀ u : State, (commitRecon k ws u).vrec j = u.vrec j := fun u =>
      State.wordAt_congr u _ _ fun b hb => byteAt_commitRecon_of_not k ws u _ (by omega)
    rw [hkept t, h, hkept s]

/-- CALC and MEASURE commit no entry of VREC (R101, R102). -/
theorem Commit.vrec_congr {s t : State} {j : Nat} (h : t.vrec j = s.vrec j) (c : Commit) :
    (c.apply t).vrec j = (c.apply s).vrec j := by
  cases c with
  | recon k ws => exact vrec_commitRecon_congr h k ws
  | calculate k r => exact h
  | measure mask rs => exact h

/-- No commit copies a stored byte into a register (R88, R101, R102). -/
theorem Commit.apply_withMemory (c : Commit) (s : State) (m : Memory) (e : Nat) :
    c.apply (s.withMemory m e) = (c.apply s).withMemory (c.apply (s.withMemory m e)).mem e := by
  cases c <;> rfl

/-- The end of an engine step under another memory: the same state but for memory, and VREC equal where it was. -/
theorem finishQueued_withMemory {s : State} {m : Memory} {e : Nat} {x y : Except CmdError State}
    (h : SameCommit s (s.withMemory m e) x y) (w : Word) :
    (∃ m', finishQueued w (s.withMemory m e) y = (finishQueued w s x).withMemory m' e) ∧
      ∀ j, (s.withMemory m e).vrec j = s.vrec j →
        (finishQueued w (s.withMemory m e) y).vrec j = (finishQueued w s x).vrec j := by
  cases h with
  | raised err => exact ⟨⟨m, rfl⟩, fun _ hj => hj⟩
  | committed c =>
    refine ⟨⟨(c.apply (s.withMemory m e)).mem, ?_⟩, fun _ hj => c.vrec_congr hj⟩
    rw [finishQueued_ok, c.apply_withMemory]
    rfl

/-- Settles O42: the command's result is a function of the registers and of the samples below `N`. -/
theorem samplesBeyondTheBatchAreNeverRead : Obligations.SamplesBeyondTheBatchAreNeverRead := by
  intro s t i m e hi hagree hexec
  have hreads : SameCommandReads s (s.withMemory m e) :=
    ⟨rfl, rfl, rfl, rfl, rfl, rfl, rfl, rfl, rfl, fun j hj => (hagree j hj).1,
      fun k j hj => (hagree j hj).2.2 k, fun j hj => (hagree j hj).2.1⟩
  obtain ⟨⟨m', hstate⟩, hvrec⟩ := finishQueued_withMemory (queuedCommand_sameCommit hreads hi) (encode i)
  rw [exec_queued s hi] at hexec
  cases hexec
  refine ⟨_, exec_queued (s.withMemory m e) hi, ?_, fun j hj => hvrec j (hreads.vrec j hj)⟩
  rw [hstate]
  rfl

end Sys2Proof.Machine
end

section
/-! # Delay: the accesses between the acceptance of a command and its engine step leave nothing that the engine step
reads (70_reset_and_hazards.md R140, 20_memory.md R64). -/

namespace Sys2Proof.Machine

/-- `s` with what an access may change while a command is pending: DROP, the answer on the bus and the count of free
read-data words (R64). -/
def State.withAnswer (s : State) (drop : Bool) (bus : Option BusResponse) (draws : Nat) : State :=
  { s with drop := drop, bus := bus, draws := draws }

theorem sameCommandReads_withAnswer (s : State) (drop : Bool) (bus : Option BusResponse) (draws : Nat) :
    SameCommandReads s (s.withAnswer drop bus draws) :=
  ⟨rfl, rfl, rfl, rfl, rfl, rfl, rfl, rfl, rfl, fun _ _ => rfl, fun _ _ _ => rfl, fun _ _ => rfl⟩

/-- No commit reads or writes DROP, the bus or the draws (R88, R101, R102). -/
theorem Commit.apply_withAnswer (c : Commit) (s : State) (drop : Bool) (bus : Option BusResponse) (draws : Nat) :
    c.apply (s.withAnswer drop bus draws) = (c.apply s).withAnswer drop bus draws := by
  cases c <;> rfl

theorem finishQueued_withAnswer {s : State} {drop : Bool} {bus : Option BusResponse} {draws : Nat}
    {x y : Except CmdError State} (h : SameCommit s (s.withAnswer drop bus draws) x y) (w : Word) :
    finishQueued w (s.withAnswer drop bus draws) y = (finishQueued w s x).withAnswer drop bus draws := by
  cases h with
  | raised e => rfl
  | committed c => rw [c.apply_withAnswer]; rfl

/-- The engine step reads neither DROP nor the bus nor the draws (R108). -/
theorem engineStep_withAnswer (s : State) (drop : Bool) (bus : Option BusResponse) (draws : Nat) :
    ∃ u, engineStep s = .next u ∧
      engineStep (s.withAnswer drop bus draws) = .next (u.withAnswer drop bus draws) := by
  have hp : (s.withAnswer drop bus draws).pending = s.pending := rfl
  unfold engineStep
  rw [hp]
  cases decode s.pending with
  | error r => exact ⟨_, rfl, rfl⟩
  | ok i =>
    cases hi : i.immediate with
    | true => exact ⟨{ s with busy := false }, if_pos hi, if_pos hi⟩
    | false =>
      have hsame := queuedCommand_sameCommit (sameCommandReads_withAnswer s drop bus draws) hi
      have hpending : i.immediate ≠ true := by simp [hi]
      refine ⟨_, (if_neg hpending).trans (exec_queued s hi), ?_⟩
      rw [← finishQueued_withAnswer hsame]
      exact (if_neg hpending).trans (exec_queued _ hi)

/-- Accesses that leave the command pending, then the engine's turn: what the engine step leaves of the state before
them but for DROP, the bus and the draws (R64 item 2). -/
theorem run_between {s : State} {between : List Input} (hb : s.busy = true) (hr : s.rst = false)
    (hleaves : ∀ e ∈ between, leavesPending e = true) (hin : s.inputs = between ++ [.engine]) :
    ∃ drop bus draws, ∀ u, engineStep (State.withAnswer { s with inputs := [] } drop bus draws) = .next u →
      Host.Core.run Sys2Proof.core (between.length + 1) s = .next u := by
  induction between generalizing s with
  | nil =>
    refine ⟨s.drop, s.bus, s.draws, fun u hu => core_run_next 0 ?_⟩
    exact (step_engine hin).trans ((engineTurn_busy (s := { s with inputs := [] }) hb).trans hu)
  | cons e between ih =>
    obtain ⟨he, hrest⟩ := List.forall_mem_cons.1 hleaves
    obtain ⟨t, hstep, ht, -⟩ := busyAccessOnlyDrops s e _ hb hr (hin.trans List.cons_append) he
    have hafter : { t with inputs := [] } = State.withAnswer { s with inputs := [] } t.drop t.bus t.draws := by
      rw [ht]
      rfl
    obtain ⟨drop, bus, draws, hrun⟩ :=
      ih (s := t) (by rw [ht]; exact hb) (by rw [ht]; exact hr) hrest (by rw [ht])
    rw [hafter] at hrun
    exact ⟨drop, bus, draws, fun u hu => (core_run_next _ hstep).trans (hrun u hu)⟩

/-- Settles O13: the accesses leave DROP, the bus and the draws, and the engine step reads none of them. -/
theorem commitDoesNotDependOnTheDelay : Obligations.CommitDoesNotDependOnTheDelay := by
  intro s between hb hr hleaves
  obtain ⟨drop, bus, draws, hrun⟩ :=
    run_between (s := { s with inputs := between ++ [.engine] }) hb hr hleaves rfl
  obtain ⟨u, hatOnce, hlater⟩ := engineStep_withAnswer { s with inputs := [] } drop bus draws
  have hstep : step { s with inputs := [] } = .next u :=
    (step_nil rfl).trans ((engineTurn_busy (s := { s with inputs := [] }) hb).trans hatOnce)
  exact ⟨_, u, hrun _ hlater, hstep, rfl⟩

end Sys2Proof.Machine
end

section
/-! # One rounding: each operation on finite operands gives the binary64 value nearest to its exact result, ties to
even, an infinity from the overflow bound on (00_scope.md R10, 92_eei_decisions.md D32). -/

namespace Sys2Proof.Machine

/-! ## Signs of exact results -/

/-- The real number of a sign and a magnitude. -/
def withSign (neg : Bool) (w : ℝ) : ℝ := if neg then -w else w

@[simp] theorem withSign_false (w : ℝ) : withSign false w = w := rfl

@[simp] theorem withSign_true (w : ℝ) : withSign true w = -w := rfl

theorem abs_withSign (neg : Bool) {w : ℝ} (h : 0 ≤ w) : |withSign neg w| = w := by
  cases neg
  · exact abs_of_nonneg h
  · exact (abs_neg w).trans (abs_of_nonneg h)

theorem withSign_mul (neg neg' : Bool) (w w' : ℝ) :
    withSign neg w * withSign neg' w' = withSign (neg != neg') (w * w') := by
  cases neg <;> cases neg' <;> simp

theorem withSign_div (neg neg' : Bool) (w w' : ℝ) :
    withSign neg w / withSign neg' w' = withSign (neg != neg') (w / w') := by
  cases neg <;> cases neg' <;> simp [neg_div, div_neg]

/-- The sign of a number that is not zero. -/
theorem decide_withSign_neg (neg : Bool) {w : ℝ} (h : 0 < w) : decide (withSign neg w < 0) = neg := by
  cases neg
  · exact decide_eq_false h.not_gt
  · exact decide_eq_true (neg_neg_of_pos h)

theorem fVal_eq_withSign (x : Word) : (fVal x : ℝ) = withSign (fSign x) (fMag x) := by
  unfold fVal
  cases fSign x <;> simp

theorem cast_eq_withSign (z : ℤ) : (z : ℝ) = withSign (decide (z < 0)) (z.natAbs : ℝ) := by
  rw [Nat.cast_natAbs, Int.cast_abs]
  by_cases h : z < 0
  · rw [decide_eq_true h, withSign_true, abs_of_neg (Int.cast_lt_zero.2 h), neg_neg]
  · rw [decide_eq_false h, withSign_false, abs_of_nonneg (Int.cast_nonneg (not_lt.1 h))]

theorem cast_fUnit : (fUnit : ℝ) = 2 ^ 1074 := by rw [fUnit, Nat.cast_pow, Nat.cast_ofNat]

/-! ## The nearest multiple of a unit in the last place -/

/-- `a / b` is rounded as the exact magnitude `w` has to be: the significand is the nearest multiple of the unit in
the last place, the even one on a tie, and `w` is in the binade of that unit or above. -/
structure RoundsAs (w : ℝ) (a b : Nat) : Prop where
  nonneg : 0 ≤ w
  near : |(roundSignificand a b : ℝ) * 2 ^ roundShift a b - w| ≤ 2 ^ roundShift a b / 2
  even_of_tie : |(roundSignificand a b : ℝ) * 2 ^ roundShift a b - w| = 2 ^ roundShift a b / 2 →
    roundSignificand a b % 2 = 0
  normal : 0 < roundShift a b → (2 : ℝ) ^ 52 * 2 ^ roundShift a b ≤ w

/-- A unit in the last place above the least one is that of the quotient's binade. -/
theorem two_pow_roundShift_le {a b : Nat} (h : 0 < roundShift a b) : 2 ^ 52 * 2 ^ roundShift a b ≤ a / b := by
  unfold roundShift at h ⊢
  rw [← Nat.pow_add, show 52 + ((a / b).log2 - 52) = (a / b).log2 by omega]
  exact Nat.log2_self_le fun h0 => by simp [h0] at h

/-- `m` units of `u` are nearest to the quotient `a / b`, by cross-multiplication. -/
theorem near_quotient {a b m u : ℝ} (hb : 0 < b) (hhigh : 2 * a ≤ (2 * m + 1) * (b * u))
    (hlow : 2 * m * (b * u) ≤ 2 * a + b * u) : |m * u - a / b| ≤ u / 2 := by
  obtain ⟨w, rfl⟩ : ∃ w, a = w * b := ⟨a / b, (div_mul_cancel₀ a hb.ne').symm⟩
  rw [mul_div_cancel_right₀ w hb.ne', abs_le]
  constructor <;> refine le_of_mul_le_mul_right ?_ hb <;> linarith

/-- A tie between two such multiples, by cross-multiplication. -/
theorem tie_quotient {a b m u : ℝ} (hb : 0 < b) (h : |m * u - a / b| = u / 2) :
    2 * a = (2 * m + 1) * (b * u) ∨ 2 * m * (b * u) = 2 * a + b * u := by
  obtain ⟨w, rfl⟩ : ∃ w, a = w * b := ⟨a / b, (div_mul_cancel₀ a hb.ne').symm⟩
  rw [mul_div_cancel_right₀ w hb.ne'] at h
  rcases eq_or_eq_neg_of_abs_eq h with h | h
  · exact .inr (by linear_combination 2 * b * h)
  · exact .inl (by linear_combination -2 * b * h)

/-- A quotient is rounded as itself. -/
theorem roundsAs_div (a : Nat) {b : Nat} (hb : 0 < b) : RoundsAs ((a : ℝ) / b) a b where
  nonneg := by positivity
  near := by
    obtain ⟨hhigh, hlow, -, -⟩ := divNearestEven_spec a (Nat.mul_pos hb (Nat.two_pow_pos (roundShift a b)))
    exact near_quotient (Nat.cast_pos.2 hb) (by exact_mod_cast hhigh) (by exact_mod_cast hlow)
  even_of_tie h := by
    obtain ⟨-, -, hhigh, hlow⟩ := divNearestEven_spec a (Nat.mul_pos hb (Nat.two_pow_pos (roundShift a b)))
    rcases tie_quotient (Nat.cast_pos.2 hb) h with htie | htie
    · exact hhigh (by exact_mod_cast htie)
    · exact hlow (by exact_mod_cast htie)
  normal h := by
    have hquot : ((2 ^ 52 * 2 ^ roundShift a b : Nat) : ℝ) ≤ (a / b : Nat) := Nat.cast_le.2 (two_pow_roundShift_le h)
    rw [Nat.cast_mul, Nat.cast_pow, Nat.cast_pow, Nat.cast_ofNat] at hquot
    exact hquot.trans Nat.cast_div_le

/-- A whole number of units is rounded as itself. -/
theorem roundsAs_natCast (m : Nat) : RoundsAs m m 1 := by
  have h := roundsAs_div m Nat.one_pos
  rwa [Nat.cast_one, div_one] at h

/-! ## The values of binary64 on the grid of that unit -/

/-- A binary64 value is a multiple of the unit `2^sh`, or its magnitude is below every significand of 53 bits of
such units (R9). -/
theorem fMag_dvd_or_lt (x : Word) (sh : Nat) :
    2 ^ sh ∣ fMag x ∨ 0 < sh ∧ fMag x < 2 ^ 52 * 2 ^ sh := by
  have hfrac := fFrac_lt x
  rcases Nat.eq_zero_or_pos sh with rfl | hsh
  · exact .inl (one_dvd _)
  unfold fMag
  split
  · exact .inr ⟨hsh, hfrac.trans_le (Nat.le_mul_of_pos_right _ (Nat.two_pow_pos sh))⟩
  · rcases Nat.lt_or_ge (fExp x - 1) sh with hlt | hge
    · refine .inr ⟨hsh, ?_⟩
      calc (2 ^ 52 + fFrac x) * 2 ^ (fExp x - 1) < 2 ^ 53 * 2 ^ (fExp x - 1) :=
            Nat.mul_lt_mul_of_pos_right (by omega) (Nat.two_pow_pos _)
        _ = 2 ^ 52 * 2 ^ (fExp x - 1 + 1) := by rw [Nat.pow_succ]; omega
        _ ≤ 2 ^ 52 * 2 ^ sh := Nat.mul_le_mul_left _ (Nat.pow_le_pow_right (by omega) hlt)
    · exact .inl (Dvd.dvd.mul_left (Nat.pow_dvd_pow 2 hge) _)

/-- The same of the value, with its sign or with the other one. -/
theorem withSign_fVal_grid (neg : Bool) (x : Word) (sh : Nat) :
    (∃ k : ℤ, withSign neg (fVal x) = k * 2 ^ sh) ∨ 0 < sh ∧ withSign neg (fVal x) < 2 ^ 52 * 2 ^ sh := by
  have hsign : withSign neg (fVal x) = fMag x ∨ withSign neg (fVal x) = -fMag x := by
    rw [fVal_eq_withSign]
    cases neg <;> cases fSign x <;> simp
  rcases fMag_dvd_or_lt x sh with ⟨k, hk⟩ | ⟨hsh, hlt⟩
  · rw [hk] at hsign
    rcases hsign with h | h
    · exact .inl ⟨k, by rw [h]; push_cast; ring⟩
    · exact .inl ⟨-k, by rw [h]; push_cast; ring⟩
  · have hlt' : (fMag x : ℝ) < 2 ^ 52 * 2 ^ sh := by exact_mod_cast hlt
    have hnonneg : (0 : ℝ) ≤ fMag x := Nat.cast_nonneg _
    rcases hsign with h | h <;> exact .inr ⟨hsh, by linarith⟩

namespace RoundsAs

variable {w : ℝ} {a b : Nat}

/-- No other multiple of the unit is nearer, and one as near leaves an even significand. -/
theorem near_multiple (h : RoundsAs w a b) (k : ℤ) :
    |(roundSignificand a b : ℝ) * 2 ^ roundShift a b - w| ≤ |k * 2 ^ roundShift a b - w| ∧
      (|(roundSignificand a b : ℝ) * 2 ^ roundShift a b - w| = |k * 2 ^ roundShift a b - w| →
        (k : ℝ) * 2 ^ roundShift a b ≠ roundSignificand a b * 2 ^ roundShift a b →
          roundSignificand a b % 2 = 0) := by
  have hnear := h.near
  have heven := h.even_of_tie
  have hu : (0 : ℝ) < 2 ^ roundShift a b := by positivity
  generalize (2 : ℝ) ^ roundShift a b = u at *
  generalize roundSignificand a b = m at *
  rcases eq_or_ne k m with rfl | hne
  · exact ⟨le_of_eq (by simp), fun _ hk => absurd (by simp) hk⟩
  have hfar : u / 2 ≤ |k * u - w| := by
    have hint : (1 : ℝ) ≤ |(k : ℝ) - m| := by
      exact_mod_cast Int.one_le_abs (sub_ne_zero.2 hne)
    have hgap : u ≤ |k * u - m * u| := by
      rw [← sub_mul, abs_mul, abs_of_pos hu]
      exact le_mul_of_one_le_left hu.le hint
    have htri := abs_sub_le ((k : ℝ) * u) w (m * u)
    rw [abs_sub_comm w] at htri
    linarith
  exact ⟨hnear.trans hfar, fun htie _ => heven (le_antisymm hnear (htie ▸ hfar))⟩

/-- A value below the binade of `w` is farther from `w` than the least value of that binade. -/
theorem near_below (h : RoundsAs w a b) (hsh : 0 < roundShift a b) {z : ℝ} (hz : z < 2 ^ 52 * 2 ^ roundShift a b) :
    |(roundSignificand a b : ℝ) * 2 ^ roundShift a b - w| < |z - w| := by
  have hleast := (h.near_multiple (2 ^ 52)).1
  have hnormal := h.normal hsh
  rw [Int.cast_pow, Int.cast_ofNat] at hleast
  rw [abs_of_nonpos (sub_nonpos.2 hnormal)] at hleast
  rw [abs_of_neg (show z - w < 0 by linarith)]
  linarith

/-- No binary64 value is nearer than the rounded one, and another as near leaves an even significand. -/
theorem near_value (h : RoundsAs w a b) (neg : Bool) (x : Word) :
    |(roundSignificand a b : ℝ) * 2 ^ roundShift a b - w| ≤ |withSign neg (fVal x) - w| ∧
      (|(roundSignificand a b : ℝ) * 2 ^ roundShift a b - w| = |withSign neg (fVal x) - w| →
        withSign neg (fVal x) ≠ roundSignificand a b * 2 ^ roundShift a b → roundSignificand a b % 2 = 0) := by
  rcases withSign_fVal_grid neg x (roundShift a b) with ⟨k, hk⟩ | ⟨hsh, hlt⟩
  · rw [hk]
    exact h.near_multiple k
  · have hfar := h.near_below hsh hlt
    exact ⟨hfar.le, fun htie => absurd htie hfar.ne⟩

/-! ## Overflow -/

theorem le_half_above (h : RoundsAs w a b) : 2 * w ≤ (2 * roundSignificand a b + 1) * 2 ^ roundShift a b := by
  have := (abs_le.1 h.near).1
  linarith

theorem half_below_le (h : RoundsAs w a b) : (2 * roundSignificand a b - 1) * 2 ^ roundShift a b ≤ 2 * w := by
  have := (abs_le.1 h.near).2
  linarith

/-- Half a unit above an odd significand is a tie, so `w` is below it. -/
theorem lt_half_above (h : RoundsAs w a b) (hodd : roundSignificand a b % 2 = 1) :
    2 * w < (2 * roundSignificand a b + 1) * 2 ^ roundShift a b := by
  refine lt_of_le_of_ne h.le_half_above fun htie => ?_
  have hu : (0 : ℝ) < 2 ^ roundShift a b := by positivity
  have := h.even_of_tie (by rw [abs_of_nonpos (by linarith)]; linarith)
  omega

end RoundsAs

/-- The overflow bound is halfway between the greatest significand and the next power of two, at the unit `2^2045`. -/
theorem cast_overflowBound : 2 * (overflowBound : ℝ) = (2 ^ 54 - 1 : Nat) * 2 ^ 2045 := by
  rw [overflowBound, Nat.cast_mul, Nat.cast_pow, Nat.cast_ofNat, pow_succ (2 : ℝ) 2044,
    mul_comm 2, mul_assoc]

theorem overflowBound_pos : (0 : ℝ) < overflowBound := by
  rw [overflowBound]
  exact Nat.cast_pos.2 (Nat.mul_pos (by decide) (pow_pos Nat.two_pos 2044))

namespace RoundsAs

variable {w : ℝ} {a b : Nat}

/-- A magnitude below the overflow bound gets a finite pattern (R10). -/
theorem lt_infMagnitude (h : RoundsAs w a b) (hw : w < overflowBound) : roundMagnitude a b < infMagnitude := by
  have hunit : (0 : ℝ) < 2 ^ 2045 := by positivity
  have hbound : 2 * w < (2 ^ 54 - 1 : Nat) * 2 ^ 2045 := by
    rw [← cast_overflowBound]
    linarith
  have hshift : roundShift a b ≤ 2045 := by
    by_contra hgt
    have hnormal := h.normal (by omega)
    have hpow : (2 : ℝ) ^ (2045 + 1) ≤ 2 ^ roundShift a b := pow_le_pow_right₀ (by norm_num) (by omega)
    rw [pow_succ] at hpow
    generalize (2 : ℝ) ^ 2045 = u at *
    norm_num at hbound
    linarith
  have hsig : roundShift a b = 2045 → roundSignificand a b < 2 ^ 53 := by
    intro heq
    have hlow := h.half_below_le.trans_lt hbound
    rw [heq, mul_lt_mul_iff_left₀ hunit, sub_lt_iff_lt_add] at hlow
    have : 2 * roundSignificand a b < 2 ^ 54 - 1 + 1 := by exact_mod_cast hlow
    omega
  have hle := roundSignificand_le a b
  rw [roundMagnitude_eq]
  unfold infMagnitude
  omega

/-- A magnitude from the overflow bound on gets the pattern of infinity (R10). -/
theorem eq_infMagnitude (h : RoundsAs w a b) (hw : overflowBound ≤ w) : roundMagnitude a b = infMagnitude := by
  have hunit : (0 : ℝ) < 2 ^ 2045 := by positivity
  have hbound : (2 ^ 54 - 1 : Nat) * 2 ^ 2045 ≤ 2 * w := by
    rw [← cast_overflowBound]
    linarith
  have hsig := roundSignificand_le a b
  have hshift : 2045 ≤ roundShift a b := by
    by_contra hlt
    have hpow : (2 : ℝ) ^ (roundShift a b + 1) ≤ 2 ^ 2045 := pow_le_pow_right₀ (by norm_num) (by omega)
    have hsig' : (roundSignificand a b : ℝ) ≤ 2 ^ 53 := by exact_mod_cast hsig
    have hup : 2 * w * 2 ≤ (2 * 2 ^ 53 + 1) * 2 ^ 2045 :=
      calc 2 * w * 2 ≤ (2 * roundSignificand a b + 1) * 2 ^ roundShift a b * 2 := by linarith [h.le_half_above]
        _ = (2 * roundSignificand a b + 1) * 2 ^ (roundShift a b + 1) := by rw [pow_succ]; ring
        _ ≤ (2 * 2 ^ 53 + 1) * 2 ^ 2045 := mul_le_mul (by linarith) hpow (by positivity) (by positivity)
    generalize (2 : ℝ) ^ 2045 = u at *
    norm_num at hbound hup
    linarith
  have hcarry : roundShift a b = 2045 → 2 ^ 53 ≤ roundSignificand a b := by
    intro heq
    have hup := hbound.trans h.le_half_above
    have hup' := fun hodd => hbound.trans_lt (h.lt_half_above hodd)
    rw [heq, mul_le_mul_iff_left₀ hunit] at hup
    simp only [heq, mul_lt_mul_iff_left₀ hunit] at hup'
    have hle : 2 ^ 54 - 1 ≤ 2 * roundSignificand a b + 1 := by exact_mod_cast hup
    have hlt : roundSignificand a b % 2 = 1 → 2 ^ 54 - 1 < 2 * roundSignificand a b + 1 := by exact_mod_cast hup'
    omega
  have hbinade := le_roundSignificand (a := a) (b := b) (by omega)
  rw [roundMagnitude_eq]
  unfold infMagnitude
  omega

end RoundsAs

/-! ## The one rounding -/

/-- Bit 0 of a pattern is that of its significand. -/
theorem getLsbD_zero_packSign (neg : Bool) {p : Nat} (hp : p < 2 ^ 63) (heven : p % 2 = 0) :
    (packSign neg p).getLsbD 0 = false := by
  rw [BitVec.getLsbD, toNat_packSign neg hp, Nat.testBit_zero, decide_eq_false]
  cases neg <;> simp <;> omega

theorem fVal_roundNearest (neg : Bool) {a b : Nat} (h : roundMagnitude a b < infMagnitude) :
    (fVal (roundNearest neg a b) : ℝ) = withSign neg (roundSignificand a b * 2 ^ roundShift a b) := by
  rw [fVal_eq_withSign, fSign_roundNearest, fMag_roundNearest neg h, Nat.cast_mul, Nat.cast_pow, Nat.cast_ofNat]

theorem getLsbD_zero_roundNearest (neg : Bool) {a b : Nat} (h : roundMagnitude a b < infMagnitude)
    (heven : roundSignificand a b % 2 = 0) : (roundNearest neg a b).getLsbD 0 = false := by
  refine getLsbD_zero_packSign neg (h.trans (by decide)) ?_
  rw [roundMagnitude_eq] at h ⊢
  rw [min_eq_left (by omega)]
  omega

/-- A distance does not change when both numbers change their sign. -/
theorem abs_sub_withSign (neg : Bool) (z w : ℝ) : |z - withSign neg w| = |withSign neg z - w| := by
  cases neg
  · rfl
  · rw [withSign_true, withSign_true, ← abs_neg]
    congr 1
    ring

theorem withSign_withSign (neg : Bool) (w : ℝ) : withSign neg (withSign neg w) = w := by cases neg <;> simp

/-- What is rounded as `w` gives, with a sign, the binary64 value nearest to `w` with that sign (R10). -/
theorem roundsTo_roundNearest (neg : Bool) {w : ℝ} {a b : Nat} (h : RoundsAs w a b) :
    roundsTo (withSign neg w) (roundNearest neg a b) := by
  unfold roundsTo
  rw [abs_withSign neg h.nonneg]
  constructor
  · intro hw
    have hlt := h.lt_infMagnitude hw
    refine ⟨isFinite_packSign neg hlt, fun z _ => ?_⟩
    obtain ⟨hnear, htie⟩ := h.near_value neg z
    rw [fVal_roundNearest neg hlt, abs_sub_withSign, abs_sub_withSign, withSign_withSign]
    refine ⟨hnear, fun heq hne => getLsbD_zero_roundNearest neg hlt (htie heq fun hz => hne ?_)⟩
    have hval : (fVal z : ℝ) = fVal (roundNearest neg a b) := by
      rw [fVal_roundNearest neg hlt, ← hz, withSign_withSign]
    exact_mod_cast hval
  · intro hw
    have hpos : 0 < w := overflowBound_pos.trans_le hw
    rw [decide_withSign_neg neg hpos, roundNearest, h.eq_infMagnitude hw, infinity]

/-- A finite value is rounded to itself, the sign of a zero included. -/
theorem roundsTo_fVal {x : Word} (hx : isFinite x = true) : roundsTo (fVal x) x := by
  have h := roundsTo_roundNearest (fSign x) (roundsAs_natCast (fMag x))
  rwa [← fVal_eq_withSign, roundNearest_fMag hx] at h

/-! ## Sums -/

theorem fadd_of_sum_zero {x y : Word} (hx : isFinite x = true) (hy : isFinite y = true) (h : fVal x + fVal y = 0) :
    fadd x y = packSign (fSign x && fSign y) 0 := by
  rw [fadd_finite hx hy, if_pos h]

theorem packSign_zero (neg : Bool) : packSign neg 0 = if neg then 0x8000000000000000 else 0 := by
  cases neg <;> rfl

theorem fVal_packSign_zero (neg : Bool) : fVal (packSign neg 0) = 0 := by cases neg <;> decide

theorem roundsTo_fadd {x y : Word} (hx : isFinite x = true) (hy : isFinite y = true) :
    roundsTo ((fVal x : ℝ) + fVal y) (fadd x y) := by
  rw [← Int.cast_add]
  by_cases h : fVal x + fVal y = 0
  · have hround := roundsTo_fVal (isFinite_packSign (fSign x && fSign y) (m := 0) (by decide))
    rwa [fVal_packSign_zero, ← h, ← fadd_of_sum_zero hx hy h] at hround
  · rw [fadd_finite hx hy, if_neg h, cast_eq_withSign]
    exact roundsTo_roundNearest _ (roundsAs_natCast _)

/-- Settles O43: the exact sum is a whole number of units, rounded once, and a difference is the sum with the
subtrahend's sign changed. -/
theorem additionRoundsOnceToNearestEven : Obligations.AdditionRoundsOnceToNearestEven := by
  intro x y hx hy
  have hy' : isFinite (fneg y) = true := (isFinite_fneg y).trans hy
  refine ⟨roundsTo_fadd hx hy, ?_, fun h => ?_, fun h => ?_⟩
  · have hround := roundsTo_fadd hx hy'
    rwa [fVal_fneg, Int.cast_neg, ← sub_eq_add_neg] at hround
  · rw [fadd_of_sum_zero hx hy h, packSign_zero]
  · rw [fsub, fadd_of_sum_zero hx hy' (by rw [fVal_fneg]; omega), fSign_fneg, packSign_zero]

/-! ## Products and quotients -/

theorem fMag_pos {x : Word} (h0 : isZero x = false) : 0 < fMag x :=
  Nat.pos_of_ne_zero fun h => by simp [(isZero_iff_fMag x).2 h] at h0

/-- Settles O44: the exact product is a quotient by the units of one. -/
theorem multiplicationRoundsOnceToNearestEven : Obligations.MultiplicationRoundsOnceToNearestEven := by
  intro x y hx hy
  rw [fmul_finite hx hy]
  refine ⟨?_, fun _ => fSign_roundNearest _ _ _⟩
  have hround := roundsTo_roundNearest (fSign x != fSign y) (roundsAs_div (fMag x * fMag y) fUnit_pos)
  have hone := withSign_div (fSign x != fSign y) false (fMag x * fMag y) fUnit
  rw [Bool.bne_false, withSign_false] at hone
  rwa [Nat.cast_mul, ← hone, ← withSign_mul, ← fVal_eq_withSign, ← fVal_eq_withSign, cast_fUnit] at hround

/-- Settles O45: the exact quotient is one of magnitudes. -/
theorem divisionRoundsOnceToNearestEven : Obligations.DivisionRoundsOnceToNearestEven := by
  intro x y hx hy h0
  rw [fdiv_finite hx hy h0]
  refine ⟨?_, fun _ => fSign_roundNearest _ _ _⟩
  have hround := roundsTo_roundNearest (fSign x != fSign y) (roundsAs_div (fMag x * fUnit) (fMag_pos h0))
  have hone := withSign_mul (fSign x) false (fMag x) fUnit
  rw [Bool.bne_false, withSign_false] at hone
  rwa [Nat.cast_mul, ← withSign_div, ← hone, ← fVal_eq_withSign, ← fVal_eq_withSign, cast_fUnit] at hround

/-! ## Square roots -/

theorem roundShift_half {r : Nat} (hr : 2 ^ 53 ≤ r) : 0 < roundShift (2 * r + 1) 2 := by
  unfold roundShift
  rw [show (2 * r + 1) / 2 = r by omega]
  have := (Nat.le_log2 (by omega)).2 hr
  omega

/-- A number strictly between `r` and `r + 1` is nearest to what `r + 1/2` is nearest to where the unit in the last
place is 2 or more: halfway between two multiples of such a unit stands an integer. -/
theorem near_between {w : ℝ} {r : Nat} (hlo : r < w) (hhi : w < r + 1) (hr : 2 ^ 53 ≤ r) :
    |(roundSignificand (2 * r + 1) 2 : ℝ) * 2 ^ roundShift (2 * r + 1) 2 - w| < 2 ^ roundShift (2 * r + 1) 2 / 2 := by
  obtain ⟨sh, hsh⟩ := Nat.exists_eq_succ_of_ne_zero (roundShift_half hr).ne'
  obtain ⟨hhigh, hlow, -, -⟩ :=
    divNearestEven_spec (2 * r + 1) (Nat.mul_pos Nat.two_pos (Nat.two_pow_pos (roundShift (2 * r + 1) 2)))
  rw [← roundSignificand, hsh, Nat.pow_succ] at hhigh hlow
  rw [hsh, pow_succ]
  generalize roundSignificand (2 * r + 1) 2 = m at *
  have habove : r + 1 ≤ (2 * m + 1) * 2 ^ sh := by
    rw [show (2 * m + 1) * (2 * (2 ^ sh * 2)) = 4 * ((2 * m + 1) * 2 ^ sh) by ring] at hhigh
    omega
  have hbelow : 2 * m * 2 ^ sh ≤ r + 2 ^ sh := by
    rw [show 2 * m * (2 * (2 ^ sh * 2)) = 4 * (2 * m * 2 ^ sh) by ring] at hlow
    omega
  have habove' : (r : ℝ) + 1 ≤ (2 * m + 1) * 2 ^ sh := by exact_mod_cast habove
  have hbelow' : 2 * m * 2 ^ sh ≤ (r : ℝ) + 2 ^ sh := by exact_mod_cast hbelow
  rw [abs_lt]
  constructor <;> linarith

theorem roundsAs_between {w : ℝ} {r : Nat} (hlo : r < w) (hhi : w < r + 1) (hr : 2 ^ 53 ≤ r) :
    RoundsAs w (2 * r + 1) 2 where
  nonneg := (Nat.cast_nonneg r).trans hlo.le
  near := (near_between hlo hhi hr).le
  even_of_tie htie := absurd htie (near_between hlo hhi hr).ne
  normal h := by
    have hbinade := two_pow_roundShift_le h
    rw [show (2 * r + 1) / 2 = r by omega] at hbinade
    have : (2 : ℝ) ^ 52 * 2 ^ roundShift (2 * r + 1) 2 ≤ r := by exact_mod_cast hbinade
    exact this.trans hlo.le

/-- The integer square root with half a unit more where it is not exact is rounded as the square root is (D32). -/
theorem roundsAs_sqrt {n : Nat} (h : 2 ^ 53 ≤ isqrt n) :
    RoundsAs (Real.sqrt n) (2 * isqrt n + if isqrt n * isqrt n = n then 0 else 1) 2 := by
  obtain ⟨hle, hlt⟩ := isqrt_spec n
  generalize isqrt n = r at *
  have hr : (0 : ℝ) ≤ r := Nat.cast_nonneg r
  split
  case isTrue hexact =>
    have hround := roundsAs_div (2 * r) Nat.two_pos
    rwa [Nat.cast_mul, Nat.cast_ofNat, mul_div_cancel_left₀ _ two_ne_zero, ← Real.sqrt_mul_self hr, ← Nat.cast_mul,
      hexact] at hround
  case isFalse hbetween =>
    refine roundsAs_between (Real.lt_sqrt_of_sq_lt ?_) ((Real.sqrt_lt' (by positivity)).2 ?_) h
    · rw [sq]
      exact_mod_cast lt_of_le_of_ne hle hbetween
    · rw [sq]
      exact_mod_cast hlt

/-- The exact root of a magnitude other than zero has more than 53 bits. -/
theorem le_isqrt_mul_fUnit {m : Nat} (hm : 0 < m) : 2 ^ 53 ≤ isqrt (m * fUnit) := by
  obtain ⟨-, hlt⟩ := isqrt_spec (m * fUnit)
  have hunit : 2 ^ 53 * 2 ^ 53 ≤ m * fUnit := by
    rw [fUnit, ← Nat.pow_add]
    exact (pow_le_pow_right₀ one_le_two (by decide)).trans (Nat.le_mul_of_pos_left _ hm)
  have := Nat.mul_self_lt_mul_self_iff.1 (hunit.trans_lt hlt)
  omega

theorem fMag_lt_overflowBound {x : Word} (hx : isFinite x = true) : fMag x < overflowBound := by
  have hfrac := fFrac_lt x
  have hexp : fExp x - 1 ≤ 2045 := by
    have := fExp_lt x
    simp only [isFinite, bne_iff_ne, ne_eq] at hx
    omega
  have hmag : fMag x ≤ (2 ^ 53 - 1) * 2 ^ (fExp x - 1) := by
    unfold fMag
    split
    · exact (by omega : fFrac x ≤ 2 ^ 53 - 1).trans (Nat.le_mul_of_pos_right _ (Nat.two_pow_pos _))
    · exact Nat.mul_le_mul_right _ (by omega)
  calc fMag x ≤ (2 ^ 53 - 1) * 2 ^ (2044 + 1) :=
        hmag.trans (Nat.mul_le_mul_left _ (pow_le_pow_right₀ one_le_two hexp))
    _ = (2 ^ 54 - 2) * 2 ^ 2044 := by
      rw [show 2 ^ 54 - 2 = (2 ^ 53 - 1) * 2 from rfl, pow_succ' 2 2044, Nat.mul_assoc]
    _ < overflowBound := by
      rw [overflowBound]
      exact Nat.mul_lt_mul_of_pos_right (by decide) (pow_pos Nat.two_pos 2044)

theorem fUnit_le_overflowBound : fUnit ≤ overflowBound := by
  rw [fUnit, overflowBound]
  have hpow : 2 ^ 1074 ≤ 2 ^ 2044 := pow_le_pow_right₀ one_le_two (by decide)
  generalize 2 ^ 1074 = u at *
  generalize 2 ^ 2044 = v at *
  omega

/-- A square root does not overflow. -/
theorem sqrt_lt_overflowBound {x : Word} (hx : isFinite x = true) :
    Real.sqrt ((fMag x * fUnit : Nat) : ℝ) < overflowBound := by
  refine (Real.sqrt_lt' overflowBound_pos).2 ?_
  rw [sq, ← Nat.cast_mul, Nat.cast_lt]
  exact Nat.mul_lt_mul_of_lt_of_le (fMag_lt_overflowBound hx) fUnit_le_overflowBound
    ((Nat.zero_le _).trans_lt (fMag_lt_overflowBound hx))

theorem fSign_of_not_isNegative {x : Word} (hx : isFinite x = true) (hneg : isNegative x = false)
    (h0 : isZero x = false) : fSign x = false := by
  by_contra hs
  simp [(isNegative_iff hx).2 ⟨Bool.not_eq_false _ ▸ hs, h0⟩] at hneg

/-- The root of a finite operand above zero (R10). -/
theorem fsqrt_finite {x : Word} (hx : isFinite x = true) (h0 : isZero x = false) (hs : fSign x = false) :
    fsqrt x = roundNearest false (2 * isqrt (fMag x * fUnit) +
      if isqrt (fMag x * fUnit) * isqrt (fMag x * fUnit) = fMag x * fUnit then 0 else 1) 2 := by
  simp [fsqrt, isNaN_of_isFinite hx, isInf_of_isFinite hx, h0, hs]

/-- Settles O46: a zero is its own root, and any other root has so many bits that half a unit more stands for all
that lies between two integers. -/
theorem squareRootIsCorrectlyRounded : Obligations.SquareRootIsCorrectlyRounded := by
  intro x hx hneg
  rcases Bool.eq_false_or_eq_true (isZero x) with h0 | h0
  · have hval : fVal x = 0 := by simp [fVal, (isZero_iff_fMag x).1 h0]
    have hroot : fsqrt x = x := by simp [fsqrt, isNaN_of_isFinite hx, h0]
    have hround := roundsTo_fVal hx
    rw [hroot, hval, Int.cast_zero, zero_mul, Real.sqrt_zero]
    rw [hval, Int.cast_zero] at hround
    exact ⟨hround, hx⟩
  · have hs := fSign_of_not_isNegative hx hneg h0
    have hround := roundsTo_roundNearest false (roundsAs_sqrt (le_isqrt_mul_fUnit (fMag_pos h0)))
    rw [← fsqrt_finite hx h0 hs, withSign_false] at hround
    have hvalue : (fVal x : ℝ) * 2 ^ 1074 = (fMag x * fUnit : Nat) := by
      rw [fVal_eq_withSign, hs, withSign_false, Nat.cast_mul, cast_fUnit]
    rw [hvalue]
    refine ⟨hround, (hround.1 ?_).1⟩
    rw [abs_of_nonneg (Real.sqrt_nonneg _)]
    exact sqrt_lt_overflowBound hx

end Sys2Proof.Machine
end
